-- ==== Sys2Proof/Word.lean ====
section
/-!
DEFINITION. The value types of HBC: what the spec treats as bits is a `BitVec`, a bit-string is a list of bits.
-/

namespace Sys2Proof

/-- R12, R8 (`SYM_BITS`): a byte or symbol, "an 8-bit unsigned unit". -/
abbrev Byte := BitVec 8

/-- R8 (`CMD_BITS`, `COUNT_BITS`): a command word, a response word or a 32-bit count. -/
abbrev Word := BitVec 32

/-- R8 (`HANDLE_BITS`): a handle, which names an entry of the tree memory. -/
abbrev Handle := BitVec 9

/-- R8 (`LEN_BITS`): the length field of an `ENC.LOAD` header word. -/
abbrev LenField := BitVec 8

/-- R78: the register-number field. -/
abbrev RegNum := BitVec 4

/-- R10: a bit-string, first bit first. The head of the list is `b[0]`, "the first appended, the first transmitted,
the first read by the decoder". -/
abbrev Bits := List Bool

end Sys2Proof
end

