-- ==== Sys2Proof/Config.lean ====
section
/-!
DEFINITION. The parameters of HBC at the values R8 gives them, and the one parameter the spec leaves `OPEN` (D27).
HBC leaves no register or result undefined (R221, U1 to U25), so there is no free value of the hardware here.
-/

namespace Sys2Proof.Config

/-- R8 `NSYM`: the size of the alphabet and the number of code-table entries. -/
abbrev nSym : Nat := 256

/-- R8 `COUNT_MAX`: the largest value a count holds; "reaching past it is a fault, never a wrap". -/
abbrev countMax : Nat := 4294967295

/-- R8 `MAXLEN`: the largest code length, in bits, that a code-table entry holds. -/
abbrev maxLen : Nat := 255

/-- R8 `NNODES`: the number of entries of the tree memory. -/
abbrev nNodes : Nat := 512

/-- R8 `PAD_MAX`: the largest legal padding count. -/
abbrev padMax : Nat := 7

end Sys2Proof.Config

namespace Sys2Proof

/-- D27, N10: the two things `compressed_size` of R190 may count. -/
inductive CompressedSizeMeaning where
  | payloadBytes
  | containerBytes
  deriving DecidableEq, Repr, Inhabited

/-- D27 (`OPEN`), U9: `COMPRESSED_SIZE_MEANING`, a parameter of the host software. It has no body: nothing in Lean
can prove which of the two it is, and no command of HBC reads it (log entry 10). -/
opaque Config.compressedSizeMeaning : CompressedSizeMeaning

end Sys2Proof
end

