-- ==== Sys2Proof/Syntax.lean ====
section
/-!
DEFINITION. The 14 commands of HBC (R82), one constructor per row of spec/opcode_table.json and in its order.
The operands are the fields of R77 and R78; the code of `ENC.LOAD` is the bit-string R79 assembles.
-/

namespace Sys2Proof

/-- R73, R20: the two units. Bit 31 of a header word selects one. -/
inductive HbcUnit where
  | enc
  | dec
  deriving DecidableEq, Repr

/-- R82: the commands. -/
inductive Instr where
  /-- `ENC.RESET` (R120), format Z. -/
  | encReset
  /-- `ENC.LOAD sym, code` (R121), format L; the field `len` is the length of `code`. -/
  | encLoad (sym : Byte) (code : Bits)
  /-- `ENC.START` (R122), format Z. -/
  | encStart
  /-- `ENC.PUT sym` (R123), format S. -/
  | encPut (sym : Byte)
  /-- `ENC.FINISH` (R124), format Z. -/
  | encFinish
  /-- `ENC.RD reg` (R126), format R. -/
  | encRd (reg : RegNum)
  /-- `DEC.RESET` (R140), format Z. -/
  | decReset
  /-- `DEC.LEAF idx, sym` (R141), format N with bit 18 = 1. -/
  | decLeaf (idx : Handle) (sym : Byte)
  /-- `DEC.INODE idx, left, right` (R141), format N with bit 18 = 0. -/
  | decInode (idx left right : Handle)
  /-- `DEC.START` (R144), format Z. -/
  | decStart
  /-- `DEC.PUT byte` (R146), format S. -/
  | decPut (byte : Byte)
  /-- `DEC.FINISH` (R147), format Z. -/
  | decFinish
  /-- `DEC.RD reg` (R149), format R. -/
  | decRd (reg : RegNum)
  /-- `DEC.WR reg, value` (R142), format W. -/
  | decWr (reg : RegNum) (value : Word)
  deriving DecidableEq, Repr

/-- R73: the unit that executes a command. -/
def Instr.unit : Instr → HbcUnit
  | .encReset => .enc
  | .encLoad _ _ => .enc
  | .encStart => .enc
  | .encPut _ => .enc
  | .encFinish => .enc
  | .encRd _ => .enc
  | .decReset => .dec
  | .decLeaf _ _ => .dec
  | .decInode _ _ _ => .dec
  | .decStart => .dec
  | .decPut _ => .dec
  | .decFinish => .dec
  | .decRd _ => .dec
  | .decWr _ _ => .dec

end Sys2Proof
end

