-- ==== Sys2Proof/WellFormed.lean ====
section
/-!
DEFINITION. Which terms of `Instr` are commands that some word sequence encodes.
Every operand but the code of `ENC.LOAD` has a field of exactly its own width (R78); the length of a code has to fit
the 8-bit `len` field.
-/

namespace Sys2Proof

/-- R8 `MAXLEN`, R78 `len`: a code has at most 255 bits. A code of no bits is encodable (`len` = 0) and faults
`E_BADLEN` when executed, so it is well formed. -/
def Instr.wf : Instr → Bool
  | .encReset => true
  | .encLoad _ code => decide (code.length ≤ Config.maxLen)
  | .encStart => true
  | .encPut _ => true
  | .encFinish => true
  | .encRd _ => true
  | .decReset => true
  | .decLeaf _ _ => true
  | .decInode _ _ _ => true
  | .decStart => true
  | .decPut _ => true
  | .decFinish => true
  | .decRd _ => true
  | .decWr _ _ => true

end Sys2Proof
end

