-- ==== Sys2Proof/Decode.lean ====
section
/-!
DEFINITION. Framing of the `CMD` stream (R73, R74), decoding of one command (R75 to R83), and the encoder written
from the same tables. Decoding is total: a command that is not legal is rejected by name.
-/

namespace Sys2Proof

/-! ### Fields of a header word -/

/-- R73: the opcode, bits [31:28] of a header word. -/
def opField (h : Word) : BitVec 4 := h.extractLsb' 28 4

/-- R73: bit 31 of the header word selects the unit, "the command, legal or not, is executed by that unit". -/
def unitOf (h : Word) : HbcUnit := if h.getLsbD 31 then .dec else .enc

/-- Format S and `DEC.LEAF` (R77): `sym`, bits [7:0]. -/
def symField (h : Word) : Byte := h.extractLsb' 0 8

/-- Format R and W (R77): `reg`, bits [3:0]. -/
def regField (h : Word) : RegNum := h.extractLsb' 0 4

/-- Format L (R77): `sym`, bits [27:20]. -/
def loadSymField (h : Word) : Byte := h.extractLsb' 20 8

/-- Format L (R77): `len`, bits [19:12]. -/
def lenField (h : Word) : LenField := h.extractLsb' 12 8

/-- Format N (R77): `idx`, bits [27:19]. -/
def idxField (h : Word) : Handle := h.extractLsb' 19 9

/-- Format N, `DEC.INODE` (R77): `left`, bits [17:9]. -/
def leftField (h : Word) : Handle := h.extractLsb' 9 9

/-- Format N, `DEC.INODE` (R77): `right`, bits [8:0]. -/
def rightField (h : Word) : Handle := h.extractLsb' 0 9

/-! ### Framing -/

/-- R74 `next(header)`: the number of extension words, a function of the header word alone, whether the command is
legal, faults or is ignored. -/
def extWords (h : Word) : Nat :=
  if opField h = 0x1#4 then ((lenField h).toNat + 31) / 32
  else if opField h = 0xE#4 then 1
  else 0

/-- R73, R74: the first command of a word sequence, as header word, extension words and the words that follow.
None where the sequence does not hold a whole command yet (U23: the unit is idle, waiting). -/
def frame : List Word → Option (Word × List Word × List Word)
  | [] => none
  | h :: rest =>
    if extWords h ≤ rest.length then some (h, rest.take (extWords h), rest.drop (extWords h)) else none

/-! ### The opcode map -/

/-- The rows of R82 by name, without operands. -/
inductive Op where
  | encReset | encLoad | encStart | encPut | encFinish | encRd
  | decReset | decLeaf | decInode | decStart | decPut | decFinish | decRd | decWr
  deriving DecidableEq, Repr

/-- A row of R82: "a header word `w` selects the row when `w & mask = match`". -/
structure OpRow where
  op : Op
  pattern : Word
  mask : Word
  deriving DecidableEq, Repr

/-- R82: the opcode map. -/
def opcodeRows : List OpRow := [
  ⟨.encReset,  0x00000000#32, 0xFFFFFFFF#32⟩,
  ⟨.encLoad,   0x10000000#32, 0xF0000FFF#32⟩,
  ⟨.encStart,  0x20000000#32, 0xFFFFFFFF#32⟩,
  ⟨.encPut,    0x30000000#32, 0xFFFFFF00#32⟩,
  ⟨.encFinish, 0x40000000#32, 0xFFFFFFFF#32⟩,
  ⟨.encRd,     0x50000000#32, 0xFFFFFFF0#32⟩,
  ⟨.decReset,  0x80000000#32, 0xFFFFFFFF#32⟩,
  ⟨.decLeaf,   0x90040000#32, 0xF007FF00#32⟩,
  ⟨.decInode,  0x90000000#32, 0xF0040000#32⟩,
  ⟨.decStart,  0xA0000000#32, 0xFFFFFFFF#32⟩,
  ⟨.decPut,    0xB0000000#32, 0xFFFFFF00#32⟩,
  ⟨.decFinish, 0xC0000000#32, 0xFFFFFFFF#32⟩,
  ⟨.decRd,     0xD0000000#32, 0xFFFFFFF0#32⟩,
  ⟨.decWr,     0xE0000000#32, 0xFFFFFFF0#32⟩]

/-- R82: the row selects the header word. -/
def OpRow.selects (r : OpRow) (h : Word) : Bool := h &&& r.mask == r.pattern

/-- R75: the row a header word selects; none when the word is illegal. -/
def selectRow (h : Word) : Option OpRow := opcodeRows.find? fun r => r.selects h

/-! ### The code operand of ENC.LOAD -/

/-- R79: `code[i] = ext[i div 32][31 − (i mod 32)]`. -/
def codeBit (ext : List Word) (i : Nat) : Bool := (ext.getD (i / 32) 0#32).getLsbD (31 - i % 32)

/-- R79: the first `len` code bits of the extension words. -/
def codeBits (len : Nat) (ext : List Word) : Bits := (List.range len).map (codeBit ext)

/-- R79: a bit of the extension words beyond the code is 1. -/
def strayBits (len : Nat) (ext : List Word) : Bool :=
  (List.range (32 * ext.length - len)).any fun k => codeBit ext (len + k)

/-! ### Decoding -/

/-- Why a word sequence is not a legal command. -/
inductive Reject where
  /-- R75, R83 (a) and (b): the header word selects no row. -/
  | illegalHeader
  /-- R79, R83 (c): a 1 beyond the code in the last extension word of `ENC.LOAD`. -/
  | strayCodeBits
  /-- The number of extension words is not the one the header announces. `frame` never gives such a command. -/
  | extensionCount
  deriving DecidableEq, Repr

/-- R77 to R80: the command of a row's header word with its extension words. -/
def decodeRow (op : Op) (h : Word) (ext : List Word) : Except Reject Instr :=
  match op with
  | .encReset => .ok .encReset
  | .encLoad =>
    if strayBits (lenField h).toNat ext then .error .strayCodeBits
    else .ok (.encLoad (loadSymField h) (codeBits (lenField h).toNat ext))
  | .encStart => .ok .encStart
  | .encPut => .ok (.encPut (symField h))
  | .encFinish => .ok .encFinish
  | .encRd => .ok (.encRd (regField h))
  | .decReset => .ok .decReset
  | .decLeaf => .ok (.decLeaf (idxField h) (symField h))
  | .decInode => .ok (.decInode (idxField h) (leftField h) (rightField h))
  | .decStart => .ok .decStart
  | .decPut => .ok (.decPut (symField h))
  | .decFinish => .ok .decFinish
  | .decRd => .ok (.decRd (regField h))
  | .decWr => .ok (.decWr (regField h) (ext.getD 0 0#32))

/-- R75: the command of a header word with its extension words, or why there is none. -/
def decode (h : Word) (ext : List Word) : Except Reject Instr :=
  if ext.length ≠ extWords h then .error .extensionCount
  else
    match selectRow h with
    | none => .error .illegalHeader
    | some r => decodeRow r.op h ext

/-! ### Encoding -/

/-- The number whose binary digits, most significant first, are the bits of the list. -/
def natOfBits (b : Bits) : Nat := b.foldl (fun acc x => 2 * acc + x.toNat) 0

/-- R79: an extension word of 32 code bits, the first in bit 31. -/
def wordOfBits (b : Bits) : Word := BitVec.ofNat 32 (natOfBits b)

/-- R79: the extension words of a code, the bits beyond the code 0. -/
def codeExt (code : Bits) : List Word :=
  (List.range ((code.length + 31) / 32)).map fun j =>
    wordOfBits ((List.range 32).map fun k => code.getD (32 * j + k) false)

/-- R77 format Z. -/
def headerZ (op : BitVec 4) : Word := op ++ 0#28

/-- R77 format S. -/
def headerS (op : BitVec 4) (sym : Byte) : Word := op ++ 0#20 ++ sym

/-- R77 formats R and W. -/
def headerR (op : BitVec 4) (reg : RegNum) : Word := op ++ 0#24 ++ reg

/-- R77 format L. -/
def headerL (sym : Byte) (len : LenField) : Word := 0x1#4 ++ sym ++ len ++ 0#12

/-- R77 format N, `DEC.LEAF`. -/
def headerLeaf (idx : Handle) (sym : Byte) : Word := 0x9#4 ++ idx ++ 1#1 ++ 0#10 ++ sym

/-- R77 format N, `DEC.INODE`. -/
def headerInode (idx left right : Handle) : Word := 0x9#4 ++ idx ++ 0#1 ++ left ++ right

/-- R77, R82: the words of a command, header word first. -/
def encode : Instr → List Word
  | .encReset => [headerZ 0x0#4]
  | .encLoad sym code => headerL sym (BitVec.ofNat 8 code.length) :: codeExt code
  | .encStart => [headerZ 0x2#4]
  | .encPut sym => [headerS 0x3#4 sym]
  | .encFinish => [headerZ 0x4#4]
  | .encRd reg => [headerR 0x5#4 reg]
  | .decReset => [headerZ 0x8#4]
  | .decLeaf idx sym => [headerLeaf idx sym]
  | .decInode idx left right => [headerInode idx left right]
  | .decStart => [headerZ 0xA#4]
  | .decPut byte => [headerS 0xB#4 byte]
  | .decFinish => [headerZ 0xC#4]
  | .decRd reg => [headerR 0xD#4 reg]
  | .decWr reg value => [headerR 0xE#4 reg, value]

/-- The words of a sequence of commands, as the host sends them (R73). -/
def encodeAll (is : List Instr) : List Word := is.flatMap encode

/-! ### Pseudo-commands (R87) -/

/-- R87: `ENC.PUTS b0, ..., bn`. -/
def encPuts (bytes : List Byte) : List Instr := bytes.map .encPut

/-- R87: `DEC.PUTS b0, ..., bn`. -/
def decPuts (bytes : List Byte) : List Instr := bytes.map .decPut

/-- R87: `DEC.CFG orig, payload, pad, root`. -/
def decCfg (orig payload pad root : Word) : List Instr :=
  [.decWr 1#4 orig, .decWr 2#4 payload, .decWr 3#4 pad, .decWr 4#4 root]

/-! ### A table word -/

/-- The words of an instruction whose bits are `w`, numbered as spec/opcode_table.json numbers them: bit 0 is bit 0
of the header word, bits 32 and up are the extension words, every bit from `nbits` on is 0. -/
def tableWords (nbits w : Nat) : List Word :=
  let v := w % 2 ^ nbits
  let h : Word := BitVec.ofNat 32 v
  h :: (List.range (extWords h)).map fun j => BitVec.ofNat 32 (v >>> (32 * (j + 1)))

/-- The instruction the decoder reads from such bits, through the framing of the stream. -/
def decodeTableWord (nbits w : Nat) : Option Instr :=
  match frame (tableWords nbits w) with
  | none => none
  | some (h, ext, _) => (decode h ext).toOption

end Sys2Proof
end

