-- ==== Sys2Proof/Machine/State.lean ====
section
/-!
DEFINITION. The state of HBC: everything 10_state.md gives the block, as plain data, and its reset values (R46).
-/

namespace Sys2Proof.Machine

/-- R23, R31: the run state of a unit, `E_ST` or `D_ST`; its 2-bit code is `RunState.code`. -/
inductive RunState where
  /-- `CFG` = 0: tables and configuration registers may be written. -/
  | cfg
  /-- `RUN` = 1: a run is going on. -/
  | run
  /-- `DONE` = 2: the run has ended. -/
  | done
  /-- `ERR` = 3: a command faulted; sticky. -/
  | err
  deriving DecidableEq, Repr

/-- R201: the causes of an ENC fault; the 4-bit codes are `EncCause.code`. -/
inductive EncCause where
  | illegal | protocol | badLen | noCode | size
  deriving DecidableEq, Repr

/-- R202: the causes of a DEC fault; the 4-bit codes are `DecCause.code`. -/
inductive DecCause where
  | illegal | protocol | badHdr | badTree | badBit | extra | trunc | exhausted | length
  deriving DecidableEq, Repr

/-- R33, D6: the node a valid tree-memory entry holds. A leaf has no children, an internal node no symbol (U20). -/
inductive Node where
  /-- `LEAF` = 1, `SYM`. -/
  | leaf (sym : Byte)
  /-- `LEAF` = 0, `LEFT`, `RIGHT`. -/
  | inode (left right : Handle)
  deriving DecidableEq, Repr

/-- A table memory (R50): the valid entries by index, in rising order of index. An index that is not listed has
`V` = 0; R46: "a model represents the entry as none". -/
abbrev Table (α : Type) := List (Nat × α)

/-- R22 to R29: the state of ENC. -/
structure EncState where
  /-- `E_ST` (R23). -/
  eSt : RunState
  /-- `E_ERR` (R24), the cause code. -/
  eErr : BitVec 4
  /-- `CT` (R25). A listed entry has `V` = 1, `CODE` is its bit-string and `LEN` the length of it. -/
  ct : Table Bits
  /-- `E_ACC` (R26), the partial output byte. -/
  eAcc : BitVec 8
  /-- `E_NACC` (R26), the number of code bits it holds. -/
  eNacc : BitVec 3
  /-- `E_ORIG` (R27), the number of symbols accepted. -/
  eOrig : Word
  /-- `E_PAYLOAD` (R28), the number of bytes emitted. -/
  ePayload : Word
  /-- `E_PAD` (R29), the padding-bit count. -/
  ePad : BitVec 3
  deriving DecidableEq, Repr

/-- R31 to R40: the state of DEC. -/
structure DecState where
  /-- `D_ST` (R31). -/
  dSt : RunState
  /-- `D_ERR` (R32), the cause code. -/
  dErr : BitVec 4
  /-- `TREE` (R33). A listed entry has `V` = 1. -/
  tree : Table Node
  /-- `D_ROOT` (R34). -/
  dRoot : Handle
  /-- `D_CUR` (R35), the node the walk stands on. -/
  dCur : Handle
  /-- `D_DESC` (R35): false is "at root", true is "descending". -/
  dDesc : Bool
  /-- `D_ORIG` (R36), the expected number of symbols. -/
  dOrig : Word
  /-- `D_PAYLOAD` (R37), the announced number of payload bytes. -/
  dPayload : Word
  /-- `D_PAD` (R38), any 32-bit value; checked by `DEC.START`. -/
  dPad : Word
  /-- `D_BYTES` (R39), the number of payload bytes consumed. -/
  dBytes : Word
  /-- `D_OUT` (R40), the number of symbols emitted. -/
  dOut : Word
  deriving DecidableEq, Repr

/-- The state of the machine: the two units, which share nothing (R20), and the four streams (R42). -/
structure State where
  enc : EncState
  dec : DecState
  /-- `CMD` (R42): the command words sent and not yet consumed, in the order sent. -/
  cmd : List Word
  /-- `ENC_OUT` (R42): every byte emitted, in order. -/
  encOut : List Byte
  /-- `DEC_OUT` (R42): every symbol emitted, in order. -/
  decOut : List Byte
  /-- `RSP` (R42): every response word, in order; both units share it. -/
  rsp : List Word
  deriving DecidableEq, Repr

/-- What stops the machine. R210: no command of HBC does; a fault of the spec is a next state (R204). -/
inductive Fault where
  /-- Raised by `execEncLoad` on a term that no command word encodes: a code longer than 255 bits (R8 `MAXLEN`, R78).
  The decoder never gives one, so `step` never raises it. Safe: the model stops where the hardware has no behaviour. -/
  | overlongCode
  deriving DecidableEq, Repr

/-- What the model gives no meaning. R210: "a model needs no refusal". -/
inductive Refusal where
  /-- Raised only by an arm of `exec` for a command that has no meaning in the model yet; there is none. Safe. -/
  | notModelled (mnemonic : String)
  deriving DecidableEq, Repr

/-- The outcome of a step. -/
abbrev Result := Host.Outcome State Fault Refusal

/-- R46: ENC after reset. -/
def EncState.reset : EncState where
  eSt := .cfg
  eErr := 0#4
  ct := []
  eAcc := 0x00#8
  eNacc := 0#3
  eOrig := 0#32
  ePayload := 0#32
  ePad := 0#3

/-- R46: DEC after reset. -/
def DecState.reset : DecState where
  dSt := .cfg
  dErr := 0#4
  tree := []
  dRoot := 0#9
  dCur := 0#9
  dDesc := false
  dOrig := 0#32
  dPayload := 0#32
  dPad := 0#32
  dBytes := 0#32
  dOut := 0#32

/-- R46, R220 (a): the machine after power-on. Nothing has been sent and nothing emitted (95_test_vectors.md part 7:
"all streams empty"). -/
def State.reset : State where
  enc := EncState.reset
  dec := DecState.reset
  cmd := []
  encOut := []
  decOut := []
  rsp := []

end Sys2Proof.Machine
end

