-- ==== Sys2Proof/Machine/Reference.lean ====
section
/-!
DEFINITION. The reference functions of 40_reference_functions.md (R100 to R111) as pure functions over whole
sequences: what the commands compute is stated against them. The meanings of the commands are written from the
pseudocode of 41_encoder.md and 42_decoder.md and use only `bits8` and `byte8` of this file.
-/

namespace Sys2Proof.Machine

/-! ### Bytes and bit-strings -/

/-- R10, R52: `bits8(B) = (B[7], ..., B[0])`, most significant bit first. -/
def bits8 (b : Byte) : Bits := (List.range 8).map fun i => b.getLsbD (7 - i)

/-- R10, R52: `byte8(b) = Σ b[i]·2^(7−i)`, for an 8-bit bit-string. -/
def byte8 (b : Bits) : Byte := BitVec.ofNat 8 (natOfBits b)

/-- R10: `zeros(k)`. -/
def zeros (k : Nat) : Bits := List.replicate k false

/-- R10: `b[i..j)`. -/
def slice (b : Bits) (i j : Nat) : Bits := (b.drop i).take (j - i)

/-- R100: `pack`, `P[k] = byte8(b[8k .. 8k+8))` for `k < len(b) div 8`. R100 defines it for a length that is a multiple
of 8 only; on another length this function leaves the last bits out. -/
def pack (b : Bits) : List Byte := (List.range (b.length / 8)).map fun k => byte8 (slice b (8 * k) (8 * k + 8))

/-- R101: `unpack`. -/
def unpack (p : List Byte) : Bits := p.flatMap bits8

/-- R102: `trim(b, p) = b[0 .. len(b) − p)`. -/
def trim (b : Bits) (p : Nat) : Bits := b.take (b.length - p)

/-- R103: `padding(n)`. -/
def padding (n : Nat) : Nat := if n % 8 = 0 then 0 else 8 - n % 8

/-! ### Encoding a symbol sequence -/

/-- R104: a code table is a partial map from symbols to bit-strings. R104's have non-empty codes only; the type admits an
empty one, with which `encBits` adds nothing for its symbol (DESIGN CHOICE, log entry 12). -/
abbrev CodeMap := Byte → Option Bits

/-- R104: `enc(T, D)`, for a `D` every member of which has a code in `T` (a symbol without one adds nothing). -/
def encBits (T : CodeMap) (D : List Byte) : Bits := D.flatMap fun d => (T d).getD []

/-- R104: `pad(T, D)`. -/
def padOf (T : CodeMap) (D : List Byte) : Nat := padding (encBits T D).length

/-- R104: `payload(T, D)`. -/
def payload (T : CodeMap) (D : List Byte) : List Byte := pack (encBits T D ++ zeros (padOf T D))

/-! ### The tree walk -/

/-- R105: a tree is a partial map from handles to nodes, together with a root handle. -/
abbrev TreeMap := Handle → Option Node

/-- R106: the automaton state `(cur, desc)`. -/
structure WalkPos where
  cur : Handle
  desc : Bool
  deriving DecidableEq, Repr

/-- R106: `walk`, one transition of the automaton: the next position and the symbol emitted, if any. -/
def walk (Tr : TreeMap) (r : Handle) (pos : WalkPos) (x : Bool) : Except DecCause (WalkPos × Option Byte) :=
  match Tr pos.cur with
  | none => .error .badTree
  | some (.leaf s) => if x then .error .badBit else .ok (⟨r, false⟩, some s)
  | some (.inode l rt) =>
    let c := if x then rt else l
    match Tr c with
    | none => .error .badTree
    | some (.leaf s) => .ok (⟨r, false⟩, some s)
    | some (.inode _ _) => .ok (⟨c, true⟩, none)

/-- R107: the loop of `decode`, from a position and an output. A symbol beyond the limit is a length fault. -/
def decodeLoop (Tr : TreeMap) (r : Handle) (N : Nat) :
    Bits → WalkPos → List Byte → Except DecCause (WalkPos × List Byte)
  | [], pos, out => .ok (pos, out)
  | x :: xs, pos, out =>
    match walk Tr r pos x with
    | .error c => .error c
    | .ok (pos', none) => decodeLoop Tr r N xs pos' out
    | .ok (pos', some s) => if out.length = N then .error .length else decodeLoop Tr r N xs pos' (out ++ [s])

/-- R107: `decode(Tr, r, b, N)`. -/
def decodeBits (Tr : TreeMap) (r : Handle) (b : Bits) (N : Nat) : Except DecCause (List Byte) :=
  match decodeLoop Tr r N b ⟨r, false⟩ [] with
  | .error c => .error c
  | .ok (pos, out) =>
    if pos.desc then .error .exhausted
    else if out.length ≠ N then .error .length
    else .ok out

/-- R108: `decompress_payload(Tr, r, orig, pcount, pad, P)`. -/
def decompressPayload (Tr : TreeMap) (r : Handle) (orig pcount pad : Nat) (P : List Byte) :
    Except DecCause (List Byte) :=
  if pad > 7 then .error .badHdr
  else if pcount = 0 ∧ pad ≠ 0 then .error .badHdr
  else if P.length > pcount then .error .extra
  else if P.length < pcount then .error .trunc
  else decodeBits Tr r (trim (unpack P) pad) orig

/-! ### Agreement of table and tree -/

/-- The handle reached from `h` along a bit-string: bit 0 descends left, bit 1 right (R70). -/
def follow (Tr : TreeMap) : Handle → Bits → Option Handle
  | h, [] => some h
  | h, x :: xs =>
    match Tr h with
    | some (.inode l rt) => follow Tr (if x then rt else l) xs
    | some (.leaf _) => none
    | none => none

/-- R105: the tree is proper: the root is defined, every child handle of a defined internal node is defined, reached or
not, and no handle is reached along two paths ("following child handles from `r` never revisits a handle"). -/
def ProperTree (Tr : TreeMap) (r : Handle) : Prop :=
  (Tr r).isSome ∧
  (∀ h l rt, Tr h = some (.inode l rt) → (Tr l).isSome ∧ (Tr rt).isSome) ∧
  (∀ p q h, follow Tr r p = some h → follow Tr r q = some h → p = q)

/-- R109: the bit-string is the code of the symbol: the 1-bit fallback `"0"` when the root is a leaf, else the path
from the root to a leaf of the symbol. R109 defines `codes` for a proper tree in which no two leaves carry the same
symbol. On any other tree this is the model's choice: a path that meets an undefined node or no leaf is no code, and a
symbol of two leaves has both paths (DESIGN CHOICE, log entry 15). -/
def IsCode (Tr : TreeMap) (r : Handle) (s : Byte) (c : Bits) : Prop :=
  match Tr r with
  | some (.leaf s') => s' = s ∧ c = [false]
  | some (.inode _ _) => ∃ h, follow Tr r c = some h ∧ Tr h = some (.leaf s)
  | none => False

/-- R109: no two leaves carry the same symbol, the condition under which `codes` is defined. -/
def OneLeafPerSymbol (Tr : TreeMap) : Prop :=
  ∀ h k s, Tr h = some (.leaf s) → Tr k = some (.leaf s) → h = k

/-- R109: the table and the tree agree, `T = codes(Tr, r)`. It is not confined to R109's domain (`ProperTree` with
`OneLeafPerSymbol`): on a tree outside it, with an undefined child or a cycle, a table of exactly the codes there are
still agrees (DESIGN CHOICE, log entry 15). -/
def Agree (T : CodeMap) (Tr : TreeMap) (r : Handle) : Prop := ∀ s c, T s = some c ↔ IsCode Tr r s c

/-- R70, R111: no code of the table is a prefix of the code of another symbol. -/
def PrefixFree (T : CodeMap) : Prop :=
  ∀ s t c d, T s = some c → T t = some d → s ≠ t → ¬ c <+: d

end Sys2Proof.Machine
end

