-- ==== Sys2Proof/Machine/Ops.lean ====
section
/-!
DEFINITION. The named operations over the state: the codes of states and causes, the table memories, taking a fault and
leaving one (R204, R207), the gate every command passes (R206), the bit packer and the tree walk on the registers.
-/

namespace Sys2Proof.Machine

/-! ### Codes -/

/-- R23, R31: the 2-bit code of a run state. -/
def RunState.code : RunState → BitVec 2
  | .cfg => 0#2
  | .run => 1#2
  | .done => 2#2
  | .err => 3#2

/-- R201. -/
def EncCause.code : EncCause → BitVec 4
  | .illegal => 1#4
  | .protocol => 2#4
  | .badLen => 3#4
  | .noCode => 4#4
  | .size => 5#4

/-- R202. -/
def DecCause.code : DecCause → BitVec 4
  | .illegal => 1#4
  | .protocol => 2#4
  | .badHdr => 3#4
  | .badTree => 4#4
  | .badBit => 5#4
  | .extra => 6#4
  | .trunc => 7#4
  | .exhausted => 8#4
  | .length => 9#4

/-! ### The table memories (R50, R58: an access moves a whole entry) -/

/-- The entry at an index; none where `V` = 0. -/
def Table.read {α : Type} : Table α → Nat → Option α
  | [], _ => none
  | (a, v) :: rest, k => if a = k then some v else Table.read rest k

/-- Writing a whole entry with `V` = 1, in place of the one the index held. -/
def Table.write {α : Type} : Table α → Nat → α → Table α
  | [], k, v => [(k, v)]
  | (a, w) :: rest, k, v =>
    if k < a then (k, v) :: (a, w) :: rest
    else if k = a then (k, v) :: rest
    else (a, w) :: Table.write rest k v

/-- The canonical form of a table of `size` entries: indexes strictly rising, each below the size. An unlisted index
reads as none and no listed one does, so equal tables are equal lists. -/
abbrev Table.wf {α : Type} (size : Nat) (t : Table α) : Prop :=
  (t.map Prod.fst).Pairwise (· < ·) ∧ ∀ k ∈ t.map Prod.fst, k < size

/-- `CT[s]` (R11, R25). -/
def EncState.code (e : EncState) (s : Byte) : Option Bits := e.ct.read s.toNat

/-- `TREE[h]` (R11, R33). -/
def DecState.node (d : DecState) (h : Handle) : Option Node := d.tree.read h.toNat

/-! ### Faults: entry (R204) and exit (R207) -/

/-- R204: taking a fault, the one operation every fault of either unit goes through. The unit's state becomes `ERR`
and its cause register the cause; "nothing else changes". It is applied to the state before the command, which undoes
everything the command did. -/
def takeFault (u : HbcUnit) (c : BitVec 4) (s : State) : State :=
  match u with
  | .enc => { s with enc := { s.enc with eSt := .err, eErr := c } }
  | .dec => { s with dec := { s.dec with dSt := .err, dErr := c } }

/-- R207, R120, R140: the reset of one unit, the only exit from `ERR`. The streams are not touched (R222). -/
def resetUnit (u : HbcUnit) (s : State) : State :=
  match u with
  | .enc => { s with enc := EncState.reset }
  | .dec => { s with dec := DecState.reset }

/-- R220 (a), R222: the hardware reset input resets both units; what was emitted stays emitted and what was sent is
still executed. It is an input of the block, not a step (log entry 4). -/
def hardwareReset (s : State) : State := resetUnit .dec (resetUnit .enc s)

/-- R31, R23: the run state of a unit. -/
def runState (u : HbcUnit) (s : State) : RunState :=
  match u with
  | .enc => s.enc.eSt
  | .dec => s.dec.dSt

/-! ### Streams -/

/-- R11 `emit(ENC_OUT, B)`, for the bytes of one command in order. -/
def emitEnc (bs : List Byte) (s : State) : State := { s with encOut := s.encOut ++ bs }

/-- R11 `emit(DEC_OUT, B)`, for the symbols of one command in order. -/
def emitDec (bs : List Byte) (s : State) : State := { s with decOut := s.decOut ++ bs }

/-- R11 `respond(v)`. -/
def respond (v : Word) (s : State) : State := { s with rsp := s.rsp ++ [v] }

/-! ### The gate (R206, R208 step 1) -/

/-- One ENC command: ignored in `ERR`; else its own checks and effect, which end in a fault or in the new unit state
with the bytes emitted (R76). -/
def encCommand (s : State) (body : Except EncCause (EncState × List Byte)) : Result :=
  if s.enc.eSt = .err then .next s
  else
    match body with
    | .error c => .next (takeFault .enc c.code s)
    | .ok (e, bs) => .next (emitEnc bs { s with enc := e })

/-- One DEC command, likewise. -/
def decCommand (s : State) (body : Except DecCause (DecState × List Byte)) : Result :=
  if s.dec.dSt = .err then .next s
  else
    match body with
    | .error c => .next (takeFault .dec c.code s)
    | .ok (d, bs) => .next (emitDec bs { s with dec := d })

/-- R127, R150: an illegal command of a unit, whatever its words: it faults, and in `ERR` is ignored. -/
def execIllegal (u : HbcUnit) (s : State) : Result :=
  match u with
  | .enc => encCommand s (.error .illegal)
  | .dec => decCommand s (.error .illegal)

/-! ### The bit packer of ENC.PUT (R123) -/

/-- The variables of the loop of R123: `acc`, `n`, and the bytes emitted so far. -/
structure Packer where
  acc : BitVec 8
  n : BitVec 3
  out : List Byte
  deriving DecidableEq, Repr

/-- R123: `acc[7 − n] = x`. -/
def setAccBit (acc : BitVec 8) (n : BitVec 3) (x : Bool) : BitVec 8 :=
  let m : BitVec 8 := 0x80#8 >>> n.toNat
  if x then acc ||| m else acc &&& ~~~m

/-- R123: one turn of the loop, which appends one code bit. -/
def Packer.push (p : Packer) (x : Bool) : Packer :=
  let acc := setAccBit p.acc p.n x
  if p.n.toNat + 1 = 8 then ⟨0x00#8, 0#3, p.out ++ [acc]⟩
  else ⟨acc, p.n + 1#3, p.out⟩

/-- R123: the loop over the code bits, the first code bit first. -/
def Packer.pushAll (p : Packer) (code : Bits) : Packer := code.foldl Packer.push p

/-! ### The tree walk of DEC.PUT (R145) -/

/-- R145 `dec_emit(s)`: the registers after it and the byte emitted. -/
def decEmit (sym : Byte) (d : DecState) : Except DecCause (DecState × List Byte) :=
  if d.dOut = d.dOrig then .error .length
  else .ok ({ d with dOut := d.dOut + 1#32 }, [sym])

/-- R145 `dec_bit(x)`. -/
def decBit (x : Bool) (d : DecState) : Except DecCause (DecState × List Byte) :=
  match d.node d.dCur with
  | none => .error .badTree
  | some (.leaf sym) => if x then .error .badBit else decEmit sym d
  | some (.inode left right) =>
    let c := if x then right else left
    match d.node c with
    | none => .error .badTree
    | some (.leaf sym) =>
      match decEmit sym d with
      | .error f => .error f
      | .ok (d', bs) => .ok ({ d' with dCur := d'.dRoot, dDesc := false }, bs)
    | some (.inode _ _) => .ok ({ d with dCur := c, dDesc := true }, [])

/-- R146: `dec_bit` for each bit in turn; the first fault ends it and is the fault of the whole command. -/
def decWalk : Bits → DecState → Except DecCause (DecState × List Byte)
  | [], d => .ok (d, [])
  | x :: xs, d =>
    match decBit x d with
    | .error f => .error f
    | .ok (d', bs) =>
      match decWalk xs d' with
      | .error f => .error f
      | .ok (d'', bs') => .ok (d'', bs ++ bs')

/-- R146 `nbits`: the bits of the next payload byte that are walked, 8 less the padding in the last byte. The sum and
the difference are those of unbounded integers (R9); R144 keeps `D_PAD` at 7 or less in `RUN`. -/
def liveBits (d : DecState) : Nat :=
  if d.dBytes.toNat + 1 = d.dPayload.toNat then 8 - d.dPad.toNat else 8

end Sys2Proof.Machine
end

