-- ==== Sys2Proof/Machine/Flags.lean ====
section
/-!
DEFINITION. The status words. R44: HBC has no arithmetic flags and no condition codes; "the only status flags are the
run state and the cause code" and `D_DESC`. Each is composed here as R30 and R41 lay it out.
-/

namespace Sys2Proof.Machine

/-- The layout R30 and R41 give both status words: bits [7:4] the cause, [3:2] zero, [1:0] the run state, zero-extended. -/
def statusWord (cause : BitVec 4) (st : RunState) : Word := (cause ++ 0b00#2 ++ st.code).zeroExtend 32

/-- `E_STATUS` (R30, R126). -/
def eStatus (e : EncState) : Word := statusWord e.eErr e.eSt

/-- `D_STATUS` (R41, R149). -/
def dStatus (d : DecState) : Word := statusWord d.dErr d.dSt

/-- `D_POS` (R41, R149): bit 16 `D_DESC`, bits [8:0] `D_CUR`. -/
def dPos (d : DecState) : Word := (BitVec.ofBool d.dDesc ++ 0b0000000#7 ++ d.dCur).zeroExtend 32

end Sys2Proof.Machine
end

