-- ==== Sys2Proof/Machine/Operands.lean ====
section
/-!
DEFINITION. The register operands: what a register number names when read and when written (R30, R41). The other
operands of HBC (symbol, code, handle, value) are used as they stand (R51, R78).
-/

namespace Sys2Proof.Machine

/-- R30, R126: the word `ENC.RD reg` answers; none for a number with no register. -/
def encReadReg (reg : RegNum) (e : EncState) : Option Word :=
  match reg.toNat with
  | 0 => some (eStatus e)
  | 1 => some e.eOrig
  | 2 => some e.ePayload
  | 3 => some (e.ePad.zeroExtend 32)
  | _ => none

/-- R41, R149: the word `DEC.RD reg` answers; none for a number with no register. -/
def decReadReg (reg : RegNum) (d : DecState) : Option Word :=
  match reg.toNat with
  | 0 => some (dStatus d)
  | 1 => some d.dOrig
  | 2 => some d.dPayload
  | 3 => some d.dPad
  | 4 => some (d.dRoot.zeroExtend 32)
  | 5 => some d.dBytes
  | 6 => some d.dOut
  | 7 => some (dPos d)
  | _ => none

/-- R41, R142: the register write of `DEC.WR reg, value`; none where the register is not writable or the root is out
of range. -/
def decWriteReg (reg : RegNum) (value : Word) (d : DecState) : Option DecState :=
  match reg.toNat with
  | 1 => some { d with dOrig := value }
  | 2 => some { d with dPayload := value }
  | 3 => some { d with dPad := value }
  | 4 => if value.toNat ≤ 511 then some { d with dRoot := value.extractLsb' 0 9 } else none
  | _ => none

end Sys2Proof.Machine
end

