-- ==== Sys2Proof/Machine/Decoder.lean ====
section
/-!
DEFINITION. The meanings of the eight DEC commands (42_decoder.md). In each, the checks stand in the order R208 gives.
-/

namespace Sys2Proof.Machine

/-- R140 `DEC.RESET`: accepted in every state. -/
def execDecReset (s : State) : Result := .next (resetUnit .dec s)

/-- R141: `DEC.NODE`, the common part of `DEC.LEAF` and `DEC.INODE`: one whole entry is written, nothing is checked
but the state. -/
def nodeBody (idx : Handle) (n : Node) (d : DecState) : Except DecCause (DecState × List Byte) :=
  if d.dSt ≠ .cfg then .error .protocol
  else .ok ({ d with tree := d.tree.write idx.toNat n }, [])

/-- R141 `DEC.LEAF idx, sym`. -/
def execDecLeaf (idx : Handle) (sym : Byte) (s : State) : Result := decCommand s (nodeBody idx (.leaf sym) s.dec)

/-- R141 `DEC.INODE idx, left, right`. -/
def execDecInode (idx left right : Handle) (s : State) : Result :=
  decCommand s (nodeBody idx (.inode left right) s.dec)

/-- R144: the checks and the effect of `DEC.START`. -/
def decStartBody (d : DecState) : Except DecCause (DecState × List Byte) :=
  if d.dSt ≠ .cfg then .error .protocol
  else if d.dPad.toNat > Config.padMax then .error .badHdr
  else if d.dPayload.toNat = 0 ∧ d.dPad.toNat ≠ 0 then .error .badHdr
  else .ok ({ d with dCur := d.dRoot, dDesc := false, dSt := .run }, [])

/-- R144 `DEC.START`. -/
def execDecStart (s : State) : Result := decCommand s (decStartBody s.dec)

/-- R146: the checks and the effect of `DEC.PUT`. -/
def decPutBody (byte : Byte) (d : DecState) : Except DecCause (DecState × List Byte) :=
  if d.dSt ≠ .run then .error .protocol
  else if d.dBytes = d.dPayload then .error .extra
  else
    match decWalk ((bits8 byte).take (liveBits d)) d with
    | .error f => .error f
    | .ok (d', bs) => .ok ({ d' with dBytes := d'.dBytes + 1#32 }, bs)

/-- R146 `DEC.PUT byte`. -/
def execDecPut (byte : Byte) (s : State) : Result := decCommand s (decPutBody byte s.dec)

/-- R147: the checks and the effect of `DEC.FINISH`. -/
def decFinishBody (d : DecState) : Except DecCause (DecState × List Byte) :=
  if d.dSt ≠ .run then .error .protocol
  else if d.dBytes ≠ d.dPayload then .error .trunc
  else if d.dDesc then .error .exhausted
  else if d.dOut ≠ d.dOrig then .error .length
  else .ok ({ d with dSt := .done }, [])

/-- R147 `DEC.FINISH`. -/
def execDecFinish (s : State) : Result := decCommand s (decFinishBody s.dec)

/-- R149 `DEC.RD reg`: a legal read answers in every state; another is an illegal command. -/
def execDecRd (reg : RegNum) (s : State) : Result :=
  match decReadReg reg s.dec with
  | some v => .next (respond v s)
  | none => execIllegal .dec s

/-- R142: the checks and the effect of `DEC.WR`. -/
def decWrBody (reg : RegNum) (value : Word) (d : DecState) : Except DecCause (DecState × List Byte) :=
  if d.dSt ≠ .cfg then .error .protocol
  else
    match decWriteReg reg value d with
    | none => .error .illegal
    | some d' => .ok (d', [])

/-- R142 `DEC.WR reg, value`. -/
def execDecWr (reg : RegNum) (value : Word) (s : State) : Result := decCommand s (decWrBody reg value s.dec)

end Sys2Proof.Machine
end

