-- ==== Sys2Proof/Machine/Encoder.lean ====
section
/-!
DEFINITION. The meanings of the six ENC commands (41_encoder.md). In each, the checks stand in the order R208 gives.
-/

namespace Sys2Proof.Machine

/-- R120 `ENC.RESET`: accepted in every state. -/
def execEncReset (s : State) : Result := .next (resetUnit .enc s)

/-- R121: the checks and the effect of `ENC.LOAD`. -/
def loadBody (sym : Byte) (code : Bits) (e : EncState) : Except EncCause (EncState × List Byte) :=
  if e.eSt ≠ .cfg then .error .protocol
  else if code.length < 1 then .error .badLen
  else .ok ({ e with ct := e.ct.write sym.toNat code }, [])

/-- R121 `ENC.LOAD sym, code`. A code no command word encodes stops the model by name (log entry 7). -/
def execEncLoad (sym : Byte) (code : Bits) (s : State) : Result :=
  if code.length > Config.maxLen then .fault .overlongCode
  else encCommand s (loadBody sym code s.enc)

/-- R122: the check and the effect of `ENC.START`. -/
def encStartBody (e : EncState) : Except EncCause (EncState × List Byte) :=
  if e.eSt ≠ .cfg then .error .protocol
  else .ok ({ e with eSt := .run }, [])

/-- R122 `ENC.START`. -/
def execEncStart (s : State) : Result := encCommand s (encStartBody s.enc)

/-- R123: the checks and the effect of `ENC.PUT`. The comparisons with `COUNT_MAX` are on unbounded integers (R9). -/
def encPutBody (sym : Byte) (e : EncState) : Except EncCause (EncState × List Byte) :=
  if e.eSt ≠ .run then .error .protocol
  else
    match e.code sym with
    | none => .error .noCode
    | some code =>
      if e.eOrig.toNat = Config.countMax then .error .size
      else
        let k := (e.eNacc.toNat + code.length) / 8
        if e.ePayload.toNat + k > Config.countMax then .error .size
        else
          let p := Packer.pushAll ⟨e.eAcc, e.eNacc, []⟩ code
          .ok ({ e with eAcc := p.acc, eNacc := p.n, ePayload := e.ePayload + BitVec.ofNat 32 k,
                        eOrig := e.eOrig + 1#32 }, p.out)

/-- R123 `ENC.PUT sym`. -/
def execEncPut (sym : Byte) (s : State) : Result := encCommand s (encPutBody sym s.enc)

/-- R124: the checks and the effect of `ENC.FINISH`. -/
def encFinishBody (e : EncState) : Except EncCause (EncState × List Byte) :=
  if e.eSt ≠ .run then .error .protocol
  else if e.eNacc.toNat = 0 then .ok ({ e with ePad := 0#3, eSt := .done }, [])
  else if e.ePayload.toNat = Config.countMax then .error .size
  else .ok ({ e with ePad := BitVec.ofNat 3 (8 - e.eNacc.toNat), ePayload := e.ePayload + 1#32, eAcc := 0x00#8,
                     eNacc := 0#3, eSt := .done }, [e.eAcc])

/-- R124 `ENC.FINISH`. -/
def execEncFinish (s : State) : Result := encCommand s (encFinishBody s.enc)

/-- R126 `ENC.RD reg`: a legal read answers in every state; another is an illegal command. -/
def execEncRd (reg : RegNum) (s : State) : Result :=
  match encReadReg reg s.enc with
  | some v => .next (respond v s)
  | none => execIllegal .enc s

end Sys2Proof.Machine
end

