-- ==== Sys2Proof/Machine/Dispatch.lean ====
section
/-!
DEFINITION. The one match over the commands.
-/

namespace Sys2Proof.Machine

/-- R76: the outcome of one command in a state, one arm per row of R82. -/
def exec (i : Instr) (s : State) : Host.Outcome State Fault Refusal :=
  match i with
  | .encReset => Sys2Proof.Machine.execEncReset s
  | .encLoad sym code => Sys2Proof.Machine.execEncLoad sym code s
  | .encStart => Sys2Proof.Machine.execEncStart s
  | .encPut sym => Sys2Proof.Machine.execEncPut sym s
  | .encFinish => Sys2Proof.Machine.execEncFinish s
  | .encRd reg => Sys2Proof.Machine.execEncRd reg s
  | .decReset => Sys2Proof.Machine.execDecReset s
  | .decLeaf idx sym => Sys2Proof.Machine.execDecLeaf idx sym s
  | .decInode idx left right => Sys2Proof.Machine.execDecInode idx left right s
  | .decStart => Sys2Proof.Machine.execDecStart s
  | .decPut byte => Sys2Proof.Machine.execDecPut byte s
  | .decFinish => Sys2Proof.Machine.execDecFinish s
  | .decRd reg => Sys2Proof.Machine.execDecRd reg s
  | .decWr reg value => Sys2Proof.Machine.execDecWr reg value s

end Sys2Proof.Machine
end

