-- ==== Sys2Proof/Machine/Step.lean ====
section
/-!
DEFINITION. One step: the next whole command of `CMD` is taken and executed (R191: "take the next command from the
host, apply the unit's step").
-/

namespace Sys2Proof.Machine

/-- R73, R74, R76, R191: the words of the command are consumed whatever its outcome; a legal command is executed, an
illegal one faults in the unit bit 31 names. Where `CMD` holds no whole command the block is idle (U23). -/
def step (s : State) : Host.Outcome State Fault Refusal :=
  match frame s.cmd with
  | none => .next s
  | some (h, ext, rest) =>
    match decode h ext with
    | .ok i => exec i { s with cmd := rest }
    | .error _ => execIllegal (unitOf h) { s with cmd := rest }

/-- The state in which the command whose bits are `w` (numbered as spec/opcode_table.json numbers them) is the next
on `CMD`: its header word and the extension words it announces are put before the words waiting. It stands for the
host's sending them (log entry 5). -/
def State.withFetchWord (s : State) (nbits w : Nat) : State := { s with cmd := tableWords nbits w ++ s.cmd }

end Sys2Proof.Machine
end

