-- ==== Sys2Proof/Machine/HostSoftware.lean ====
section
/-!
DEFINITION. The host software of 48_host_software.md, as pure functions and as the command sequences it sends. "Nothing
in this file is hardware" (R5): `step` uses nothing of it. It is here because the counts, tables and the container are
stated by the spec, and statements about a host and the block together need them (log entry 9).
-/

namespace Sys2Proof.Machine

/-! ### Command sequences -/

/-- R62: commands take effect one at a time, in order; the run of a sequence of commands. -/
def runCommands : List Instr → State → Result
  | [], s => .next s
  | i :: is, s =>
    match exec i s with
    | .next s' => runCommands is s'
    | .fault f => .fault f
    | .refused r => .refused r

/-! ### Frequency table -/

/-- R171, R8 (`COUNT_BITS`): a frequency table, "mapping from Byte to a 32-bit unsigned occurrence count", in ascending
order of byte value. -/
abbrev FreqTable := List (Byte × Word)

/-- R170: the number of occurrences of each byte value present in the input, in ascending order of byte value. -/
def occurrences (D : List Byte) : List (Byte × Nat) :=
  ((List.range Config.nSym).map fun v => (BitVec.ofNat 8 v, D.count (BitVec.ofNat 8 v))).filter fun p => p.2 ≠ 0

/-- R170, R171: the frequency table of an input. None where a count does not fit 32 bits: R186 makes the limit "an
explicit size-limit precondition rather than silently wrapping" (log entry 17). -/
def freqTable (D : List Byte) : Option FreqTable :=
  if (occurrences D).all fun p => decide (p.2 ≤ Config.countMax) then
    some ((occurrences D).map fun p => (p.1, BitVec.ofNat 32 p.2))
  else none

/-! ### Tree builder -/

/-- R175: the arena of nodes, a node's handle being its index, and the root. -/
structure BuiltTree where
  nodes : List Node
  root : Handle
  deriving DecidableEq, Repr

/-- R175: the order of the priority structure, "frequency first, then handle". -/
def keyLt (a b : Nat × Nat) : Bool := decide (a.1 < b.1) || (decide (a.1 = b.1) && decide (a.2 < b.2))

/-- R175: putting a (frequency, handle) pair into the priority structure, which is held in rising order. -/
def queueInsert (p : Nat × Nat) : List (Nat × Nat) → List (Nat × Nat)
  | [] => [p]
  | q :: rest => if keyLt p q then p :: q :: rest else q :: queueInsert p rest

/-- R173, R175: the loop. The two smallest are removed, the first becomes the left child, their parent takes the next
handle and is put back with the sum of the two frequencies, "on unbounded non-negative integers" (R9). Every turn
shortens the queue by one, so its first length is fuel enough. A handle is an index taken modulo 512, which changes none
of a table of at most 256 entries (log entry 16). -/
def mergeLoop : Nat → List Node → List (Nat × Nat) → List Node × List (Nat × Nat)
  | fuel + 1, nodes, a :: b :: q =>
    mergeLoop fuel (nodes ++ [.inode (BitVec.ofNat 9 a.2) (BitVec.ofNat 9 b.2)])
      (queueInsert (a.1 + b.1, nodes.length) q)
  | _, nodes, q => (nodes, q)

/-- R172, R175, R176: the reference builder `build(F)`; none for the empty table ("the host never builds a tree from an
empty table"). The tie-break, the sides and the handles are D19 to D21. On a table of more than 256 entries, which R171
excludes and N9 leaves to the reader of a container, a handle past 511 wraps (DESIGN CHOICE, log entry 16). -/
def build (F : FreqTable) : Option BuiltTree :=
  match mergeLoop F.length (F.map fun p => .leaf p.1) ((F.mapIdx fun i p => (p.2.toNat, i)).foldr queueInsert []) with
  | (nodes, root :: _) => some ⟨nodes, BitVec.ofNat 9 root.2⟩
  | (_, []) => none

/-- R105: the map of a built tree. -/
def BuiltTree.map (t : BuiltTree) : TreeMap := fun h => t.nodes[h.toNat]?

/-! ### Code table generator -/

/-- R177: the descent, with the path accumulated so far. A proper tree is at most 255 deep (R8), so 256 is fuel
enough. On a tree that is not, it leaves out an undefined node and stops at depth 256 (DESIGN CHOICE, log entry 15). -/
def codesFrom (Tr : TreeMap) : Nat → Handle → Bits → List (Byte × Bits)
  | 0, _, _ => []
  | fuel + 1, h, path =>
    match Tr h with
    | some (.leaf s) => [(s, path)]
    | some (.inode l r) => codesFrom Tr fuel l (path ++ [false]) ++ codesFrom Tr fuel r (path ++ [true])
    | none => []

/-- R109, R177: the code table of a proper tree; the 1-bit fallback `"0"` when the root is a leaf (D13).
On a tree outside R109's domain it lists what `codesFrom` finds (log entry 15). -/
def codes (Tr : TreeMap) (r : Handle) : List (Byte × Bits) :=
  match Tr r with
  | some (.leaf s) => [(s, [false])]
  | _ => codesFrom Tr 256 r []

/-- The partial map of a list of codes, in which the last entry of a symbol wins, as with the loads of R121. -/
def codeMapOf (cs : List (Byte × Bits)) : CodeMap := fun s => (cs.reverse.find? fun p => p.1 == s).map Prod.snd

/-! ### Container -/

/-- R55, R184, D22: a 4-byte unsigned integer, least-significant byte first. -/
def u32le (w : Word) : List Byte := (List.range 4).map fun i => w.extractLsb' (8 * i) 8

/-- R184, R8 (`COUNT_BITS`): the container's fields. -/
structure Container where
  originalSize : Word
  payloadCount : Word
  paddingBits : Word
  freqs : FreqTable
  payload : List Byte
  deriving DecidableEq, Repr

/-- R184: the write path. None where the number of entries does not fit its 32-bit field, which no table of R171 comes
to (log entry 17). -/
def Container.write (c : Container) : Option (List Byte) :=
  if c.freqs.length ≤ Config.countMax then
    some (u32le c.originalSize ++ u32le c.payloadCount ++ u32le c.paddingBits ++ u32le (BitVec.ofNat 32 c.freqs.length) ++
      (c.freqs.flatMap fun p => p.1 :: u32le p.2) ++ c.payload)
  else none

/-- R184, R185: a 4-byte field and the bytes after it; none when the bytes end first. -/
def readU32 : List Byte → Option (Word × List Byte)
  | a :: b :: c :: d :: rest => some (d ++ c ++ b ++ a, rest)
  | _ => none

/-- R185: the entries of the frequency table and the bytes after them. -/
def readFreqs : Nat → List Byte → Option (FreqTable × List Byte)
  | 0, bs => some ([], bs)
  | n + 1, s :: bs =>
    match readU32 bs with
    | none => none
    | some (f, bs) =>
      match readFreqs n bs with
      | none => none
      | some (F, bs) => some ((s, f) :: F, bs)
  | _ + 1, [] => none

/-- R185: the read path, "in the same order and same widths". All remaining bytes are the payload: a count that differs
from `payload_byte_count` is left for DEC to find, which R185 allows (log entry 9). What N9 leaves open is not checked, a
`symbol_count` above 256 included (log entries 9 and 16). -/
def Container.read (bytes : List Byte) : Option Container := do
  let (orig, bs) ← readU32 bytes
  let (pcount, bs) ← readU32 bs
  let (pad, bs) ← readU32 bs
  let (n, bs) ← readU32 bs
  let (F, bs) ← readFreqs n.toNat bs
  pure ⟨orig, pcount, pad, F, bs⟩

/-! ### The two flows -/

/-- R181, R223: the commands of an ENC run for a code table and an input. -/
def encRun (T : List (Byte × Bits)) (D : List Byte) : List Instr :=
  [.encReset] ++ T.map (fun p => .encLoad p.1 p.2) ++ [.encStart] ++ encPuts D ++ [.encFinish]

/-- R223 step 6: the reads after a run. -/
def encReads : List Instr := [.encRd 0#4, .encRd 1#4, .encRd 2#4, .encRd 3#4]

/-- R87: `DEC.NODE idx, leaf(sym)` or `DEC.NODE idx, node(l, r)`. -/
def decNode (idx : Handle) : Node → Instr
  | .leaf sym => .decLeaf idx sym
  | .inode l r => .decInode idx l r

/-- R182: one `DEC.NODE` per node of a built tree. A node past index 511, which no table of at most 256 entries gives,
goes to its index modulo 512 and replaces the node there (DESIGN CHOICE, log entry 16). -/
def decNodes (t : BuiltTree) : List Instr := t.nodes.mapIdx fun i n => decNode (BitVec.ofNat 9 i) n

/-- R182, R224: the commands of a DEC run. -/
def decRun (nodes : List Instr) (orig pcount pad root : Word) (P : List Byte) : List Instr :=
  [.decReset] ++ nodes ++ decCfg orig pcount pad root ++ [.decStart] ++ decPuts P ++ [.decFinish]

/-- The code table of a frequency table under the reference builder; empty for the empty table (R183). -/
def codesOfFreqs (F : FreqTable) : List (Byte × Bits) :=
  match build F with
  | none => []
  | some t => codes t.map t.root

/-- R190, D27: the second result of `compress`, whose meaning the spec leaves `OPEN`: of the payload, or of the bytes of
the container. -/
def compressedSize (payload container : List Byte) : Nat :=
  match Config.compressedSizeMeaning with
  | .payloadBytes => payload.length
  | .containerBytes => container.length

/-- R181, R183, R190 `compress`: none when a count of the frequency table does not fit (R186) or the unit ends in `ERR`
(R187). -/
def compress (D : List Byte) : Option (List Byte × Nat) := do
  let F ← freqTable D
  match runCommands (encRun (codesOfFreqs F) D ++ encReads) State.reset with
  | .next s =>
    match s.rsp with
    | [status, orig, pcount, pad] =>
      if status = 0x00000002#32 then
        let bytes ← Container.write ⟨orig, pcount, pad, F, s.encOut⟩
        pure (bytes, compressedSize s.encOut bytes)
      else none
    | _ => none
  | _ => none

/-- R182, R183, R190 `decompress`: none when the container does not parse or the unit ends in `ERR` (R187). -/
def decompress (bytes : List Byte) : Option (List Byte) := do
  let c ← Container.read bytes
  let t : BuiltTree := (build c.freqs).getD ⟨[], 0#9⟩
  let cmds := decRun (decNodes t) c.originalSize c.payloadCount c.paddingBits (t.root.zeroExtend 32) c.payload ++
    [.decRd 0#4]
  match runCommands cmds State.reset with
  | .next s => if s.rsp = [0x00000002#32] then some s.decOut else none
  | _ => none

end Sys2Proof.Machine
end

