-- ==== Sys2Proof/Safety.lean ====
section
/-!
DEFINITION. The terms claims are stated in: the invariants of R43, the states in which a command is accepted, what
ends a run, and the command sequences of R125 and R148.
-/

namespace Sys2Proof.Machine

/-! ### The bit-string held in ENC -/

/-- R26: the bits held in an accumulator, `h[j] = E_ACC[7 − j]` for `j < E_NACC`. -/
def heldBits (acc : BitVec 8) (n : BitVec 3) : Bits := (List.range n.toNat).map fun j => acc.getLsbD (7 - j)

/-- R26, R43 (a): `E_ACC[7 − E_NACC : 0] = 0`. -/
def cleanBelow (acc : BitVec 8) (n : BitVec 3) : Prop := ∀ i, i + n.toNat < 8 → acc.getLsbD i = false

/-- The bit-string ENC holds back until a byte is full. -/
def EncState.held (e : EncState) : Bits := heldBits e.eAcc e.eNacc

/-- R43 (a), of ENC's registers. -/
def EncState.accClean (e : EncState) : Prop := cleanBelow e.eAcc e.eNacc

/-! ### Invariants -/

/-- R43 for ENC, with what R23 to R29 and R201 say each run state leaves. -/
structure EncState.Inv (e : EncState) : Prop where
  /-- R43 (a). -/
  accClean : e.accClean
  /-- R43 (e). -/
  errIff : e.eErr ≠ 0#4 ↔ e.eSt = .err
  /-- R201: causes 6 to 15 are "never written". -/
  errLe : e.eErr.toNat ≤ 5
  /-- The canonical form of `CT`, which has 256 entries (R25). -/
  ctWf : e.ct.wf Config.nSym
  /-- R25: `LEN` is 1 to 255 when `V` = 1. -/
  codeLen : ∀ p ∈ e.ct, 1 ≤ p.2.length ∧ p.2.length ≤ Config.maxLen
  /-- R122: in `CFG` "the counts are already 0 since the reset that entered `CFG`". -/
  cfgZero : e.eSt = .cfg → e.eNacc = 0#3 ∧ e.eOrig = 0#32 ∧ e.ePayload = 0#32
  /-- R29: `E_PAD` is 0 in `CFG` and `RUN`. -/
  padZero : e.eSt = .cfg ∨ e.eSt = .run → e.ePad = 0#3
  /-- R124: in `DONE` no bit is held, and an empty payload has no padding. -/
  doneFlushed : e.eSt = .done → e.eNacc = 0#3 ∧ (e.ePayload = 0#32 → e.ePad = 0#3)

/-- R43 for DEC, with what R39, R40, R147 and R202 say. -/
structure DecState.Inv (d : DecState) : Prop where
  /-- R43 (e). -/
  errIff : d.dErr ≠ 0#4 ↔ d.dSt = .err
  /-- R202: causes 10 to 15 are "never written". -/
  errLe : d.dErr.toNat ≤ 9
  /-- The canonical form of `TREE`, which has 512 entries (R33). -/
  treeWf : d.tree.wf Config.nNodes
  /-- R39: `D_BYTES ≤ D_PAYLOAD` "always". -/
  bytesLe : d.dBytes.toNat ≤ d.dPayload.toNat
  /-- R40: `D_OUT ≤ D_ORIG` "always". -/
  outLe : d.dOut.toNat ≤ d.dOrig.toNat
  /-- R144: in `CFG` `D_BYTES` and `D_OUT` "are already 0 since the reset that entered `CFG`". -/
  cfgZero : d.dSt = .cfg → d.dBytes = 0#32 ∧ d.dOut = 0#32
  /-- R43 (f). -/
  padLe : d.dSt = .run ∨ d.dSt = .done → d.dPad.toNat ≤ Config.padMax
  /-- R144: a run has no padding without a payload. -/
  padPayload : d.dSt = .run ∨ d.dSt = .done → d.dPayload = 0#32 → d.dPad = 0#32
  /-- R43 (d), first half. -/
  atRoot : d.dSt = .run → d.dDesc = false → d.dCur = d.dRoot
  /-- R43 (d), second half; the tree is frozen in `RUN` (R65). -/
  descending : d.dSt = .run → d.dDesc = true → ∃ l r, d.node d.dCur = some (.inode l r)
  /-- R147: what `DONE` means. -/
  doneComplete : d.dSt = .done → d.dBytes = d.dPayload ∧ d.dDesc = false ∧ d.dOut = d.dOrig

/-- The invariants of R43 in one. -/
structure State.Inv (s : State) : Prop where
  enc : s.enc.Inv
  dec : s.dec.Inv

/-! ### Acceptance -/

/-- The tables of 41_encoder.md and 42_decoder.md, `allowed_states` of the opcode table: the run states in which a
command is accepted. -/
def acceptedIn : Instr → RunState → Bool
  | .encReset, _ => true
  | .encLoad _ _, st => decide (st = .cfg)
  | .encStart, st => decide (st = .cfg)
  | .encPut _, st => decide (st = .run)
  | .encFinish, st => decide (st = .run)
  | .encRd _, _ => true
  | .decReset, _ => true
  | .decLeaf _ _, st => decide (st = .cfg)
  | .decInode _ _ _, st => decide (st = .cfg)
  | .decStart, st => decide (st = .cfg)
  | .decPut _, st => decide (st = .run)
  | .decFinish, st => decide (st = .run)
  | .decRd _, _ => true
  | .decWr _ _, st => decide (st = .cfg)

/-- R126, R149: a read of a register that exists. -/
def isLegalRead : Instr → Bool
  | .encRd reg => decide (reg.toNat ≤ 3)
  | .decRd reg => decide (reg.toNat ≤ 7)
  | _ => false

/-- R120, R140: a `RESET` command. -/
def isReset (i : Instr) : Prop := i = .encReset ∨ i = .decReset

/-- R210: a run of the unit has ended, by a fault-free `FINISH`. -/
def RunEnded (u : HbcUnit) (s : State) : Prop := runState u s = .done

/-- R204: the unit has faulted. -/
def Faulted (u : HbcUnit) (s : State) : Prop := runState u s = .err

/-! ### The command sequences of a run -/

/-- The commands of a unit that are not a legal read: what a run of the unit consists of, once "`RD` commands anywhere
between" (R125) and the other unit's commands (R63) are set aside. -/
def ownWork (u : HbcUnit) (is : List Instr) : List Instr :=
  is.filter fun i => decide (i.unit = u) && !isLegalRead i

/-- R142, R141: a command that writes the tree or a configuration register, and is accepted in `CFG`. -/
def isDecConfig : Instr → Bool
  | .decLeaf _ _ => true
  | .decInode _ _ _ => true
  | .decWr reg value =>
    decide (reg.toNat = 1) || decide (reg.toNat = 2) || decide (reg.toNat = 3) ||
      (decide (reg.toNat = 4) && decide (value.toNat ≤ 511))
  | _ => false

/-- The tree a sequence of configuration commands leaves from an empty one: "a second write to the same `idx` replaces
the entry" (R141). -/
def treeLeft : List Instr → TreeMap
  | [], _ => none
  | .decLeaf idx sym :: is, h => (treeLeft is h).or (if h = idx then some (.leaf sym) else none)
  | .decInode idx l r :: is, h => (treeLeft is h).or (if h = idx then some (.inode l r) else none)
  | _ :: is, h => treeLeft is h

/-- The value a sequence of configuration commands leaves in a register: "the last value before `DEC.START` counts; a
register never written holds 0 from reset" (R142). -/
def regLeft (is : List Instr) (n : Nat) : Word :=
  is.foldl (fun v i =>
    match i with
    | .decWr reg value => if reg.toNat = n then value else v
    | _ => v) 0#32

end Sys2Proof.Machine
end

