-- ==== Sys2Proof/Certificates/Slice0/Obligations.lean ====
section
/-!
DEFINITION. The statements for the provers. Each docstring names the rule of spec/ it formalises. Where a rule gives an
outcome by cases, the clauses of the statement exclude each other or agree.
-/

open Sys2Proof Sys2Proof.Machine

/-! ### Encoding and framing (30_encoding.md) -/

/-- R79, R80, R82: words written out in 30_encoding.md and 95_test_vectors.md W1 to W22 decode to the commands they
stand for, at least one of each format. -/
def Obligations.SpecWordsDecode : Prop :=
  decode 0x00000000#32 [] = .ok .encReset ∧
  decode 0x14403000#32 [0xC0000000#32] = .ok (.encLoad 0x44#8 [true, true, false]) ∧
  decode 0x14202000#32 [0x80000000#32] = .ok (.encLoad 0x42#8 [true, false]) ∧
  decode 0x30000041#32 [] = .ok (.encPut 0x41#8) ∧
  decode 0x50000003#32 [] = .ok (.encRd 3#4) ∧
  decode 0x90040041#32 [] = .ok (.decLeaf 0#9 0x41#8) ∧
  decode 0x901C0044#32 [] = .ok (.decLeaf 3#9 0x44#8) ∧
  decode 0x90200602#32 [] = .ok (.decInode 4#9 3#9 2#9) ∧
  decode 0x9FFBFDFD#32 [] = .ok (.decInode 511#9 510#9 509#9) ∧
  decode 0xB000005F#32 [] = .ok (.decPut 0x5F#8) ∧
  decode 0xD0000007#32 [] = .ok (.decRd 7#4) ∧
  decode 0xE0000001#32 [0x0000000B#32] = .ok (.decWr 1#4 11#32)

/-- R77, R79, R82: decoding the words of a well-formed command gives it back, every operand at every value, and the
words are as many as the header announces (R74). -/
def Obligations.DecodeOfEncode : Prop :=
  ∀ i : Instr, i.wf = true →
    ∃ h ext, encode i = h :: ext ∧ ext.length = extWords h ∧ decode h ext = .ok i

/-- R75, R79, R82: a legal command is well formed and its words are the only ones that encode it. -/
def Obligations.EncodeOfDecode : Prop :=
  ∀ (h : Word) (ext : List Word) (i : Instr), decode h ext = .ok i →
    i.wf = true ∧ encode i = h :: ext ∧ i.unit = (if h.getLsbD 31 then .dec else .enc)

/-- R82: "The rows are mutually exclusive". -/
def Obligations.OpcodeRowsExclusive : Prop :=
  opcodeRows.length = 14 ∧
  ∀ (w : Word) (r q : OpRow), r ∈ opcodeRows → q ∈ opcodeRows →
    w &&& r.mask = r.pattern → w &&& q.mask = q.pattern → r = q

/-- R75, R77, R83 (a) and (b): a header word selects no row exactly when its opcode is reserved or a bit that its
format marks `0` is 1. -/
def Obligations.IllegalHeaderIffReservedBits : Prop :=
  ∀ h : Word,
    (∀ r ∈ opcodeRows, h &&& r.mask ≠ r.pattern) ↔
      (match (h.extractLsb' 28 4).toNat with
       | 0 | 2 | 4 | 8 | 10 | 12 => h.extractLsb' 0 28 ≠ 0#28
       | 1 => h.extractLsb' 0 12 ≠ 0#12
       | 3 | 11 => h.extractLsb' 8 20 ≠ 0#20
       | 5 | 13 | 14 => h.extractLsb' 4 24 ≠ 0#24
       | 9 => h.getLsbD 18 = true ∧ h.extractLsb' 8 10 ≠ 0#10
       | _ => True)

/-- R79: the code operand of `ENC.LOAD` is `code[i] = ext[i div 32][31 − (i mod 32)]`, and a 1 beyond the code makes
the command illegal. -/
def Obligations.LoadCodeAssembly : Prop :=
  ∀ (h : Word) (ext : List Word), h &&& 0xF0000FFF#32 = 0x10000000#32 →
    ext.length = ((h.extractLsb' 12 8).toNat + 31) / 32 →
    ((∃ k, (h.extractLsb' 12 8).toNat ≤ k ∧ k < 32 * ext.length ∧
        (ext.getD (k / 32) 0#32).getLsbD (31 - k % 32) = true) →
      decode h ext = .error .strayCodeBits) ∧
    ((∀ k, (h.extractLsb' 12 8).toNat ≤ k → k < 32 * ext.length →
        (ext.getD (k / 32) 0#32).getLsbD (31 - k % 32) = false) →
      ∃ code : Bits, decode h ext = .ok (.encLoad (h.extractLsb' 20 8) code) ∧
        code.length = (h.extractLsb' 12 8).toNat ∧
        ∀ i, i < code.length → code[i]? = some ((ext.getD (i / 32) 0#32).getLsbD (31 - i % 32)))

/-- R74, R206: a step consumes the header word and the extension words the header announces, whether the command is
legal, faults or is ignored. The second clause is not R74's: that a step changes nothing while the words are not all there
is the model's reading of U23 (log entry 6). -/
def Obligations.StepConsumesAnnouncedWords : Prop :=
  ∀ (s : State) (h : Word) (rest : List Word), s.cmd = h :: rest →
    let n := if h.extractLsb' 28 4 = 0x1#4 then ((h.extractLsb' 12 8).toNat + 31) / 32
             else if h.extractLsb' 28 4 = 0xE#4 then 1 else 0
    (n ≤ rest.length → ∃ t, step s = .next t ∧ t.cmd = rest.drop n) ∧
    (rest.length < n → step s = .next s)

/-- R76, R191: when the words at the head of `CMD` decode to a command, the step is that command's, on the state with
its words consumed and nothing else added. -/
def Obligations.StepRunsDecodedCommand : Prop :=
  ∀ (s : State) (h : Word) (ext rest : List Word) (i : Instr),
    s.cmd = h :: (ext ++ rest) → ext.length = extWords h → decode h ext = .ok i →
    step s = exec i { s with cmd := rest }

/-- R62, R73, R191: a sequence of well-formed commands sent as words is run one command a step, in order, and the words
after it stay. -/
def Obligations.StreamRunsCommandsInOrder : Prop :=
  ∀ (is : List Instr) (rest : List Word) (s : State), (∀ i ∈ is, i.wf = true) →
    Host.Core.run core is.length { s with cmd := encodeAll is ++ rest } = runCommands is { s with cmd := rest }

/-- R127, R150, R75: an illegal command faults with cause 1 in the unit bit 31 names, its extension words consumed; in
`ERR` it is ignored. -/
def Obligations.IllegalWordFaultsItsUnit : Prop :=
  ∀ (s : State) (h : Word) (ext rest : List Word) (e : Reject),
    s.cmd = h :: (ext ++ rest) → ext.length = extWords h → decode h ext = .error e →
    (h.getLsbD 31 = false → s.enc.eSt ≠ .err →
      step s = .next { s with cmd := rest, enc := { s.enc with eSt := .err, eErr := 1#4 } }) ∧
    (h.getLsbD 31 = false → s.enc.eSt = .err → step s = .next { s with cmd := rest }) ∧
    (h.getLsbD 31 = true → s.dec.dSt ≠ .err →
      step s = .next { s with cmd := rest, dec := { s.dec with dSt := .err, dErr := 1#4 } }) ∧
    (h.getLsbD 31 = true → s.dec.dSt = .err → step s = .next { s with cmd := rest })

/-- R76, R210: the step is total; no state stops the machine. -/
def Obligations.EveryStepHasANextState : Prop := ∀ s : State, ∃ t, step s = .next t

/-! ### The ENC commands (41_encoder.md) -/

/-- R120: `ENC.RESET` in every state. -/
def Obligations.EncResetClearsUnit : Prop :=
  ∀ s : State, ∃ e : EncState, exec .encReset s = .next { s with enc := e } ∧
    e.eSt = .cfg ∧ e.eErr = 0#4 ∧ (∀ sym : Byte, e.code sym = none) ∧ e.eAcc = 0x00#8 ∧ e.eNacc = 0#3 ∧
    e.eOrig = 0#32 ∧ e.ePayload = 0#32 ∧ e.ePad = 0#3

/-- R121: `ENC.LOAD` outside `ERR`: its illegal words, its faults in order, and the one entry it writes. -/
def Obligations.EncLoadWritesOneEntry : Prop :=
  (∀ (s : State) (h : Word) (ext rest : List Word), s.enc.eSt ≠ .err → h.extractLsb' 28 4 = 0x1#4 →
    ext.length = ((h.extractLsb' 12 8).toNat + 31) / 32 → s.cmd = h :: (ext ++ rest) →
    (h.extractLsb' 0 12 ≠ 0#12 ∨ ∃ k, (h.extractLsb' 12 8).toNat ≤ k ∧ k < 32 * ext.length ∧
      (ext.getD (k / 32) 0#32).getLsbD (31 - k % 32) = true) →
    step s = .next { s with cmd := rest, enc := { s.enc with eSt := .err, eErr := 1#4 } }) ∧
  (∀ (s : State) (sym : Byte) (code : Bits), code.length ≤ 255 → s.enc.eSt ≠ .err →
    (s.enc.eSt ≠ .cfg →
      exec (.encLoad sym code) s = .next { s with enc := { s.enc with eSt := .err, eErr := 2#4 } }) ∧
    (s.enc.eSt = .cfg → code = [] →
      exec (.encLoad sym code) s = .next { s with enc := { s.enc with eSt := .err, eErr := 3#4 } }) ∧
    (s.enc.eSt = .cfg → code ≠ [] → ∃ e : EncState,
      exec (.encLoad sym code) s = .next { s with enc := e } ∧ e = { s.enc with ct := e.ct } ∧
      e.code sym = some code ∧ ∀ other : Byte, other ≠ sym → e.code other = s.enc.code other))

/-- Log entry 7, the model's choice: a code longer than 255 bits, which no command word encodes (R8 `MAXLEN`, R78),
stops the model by name; the decoder never gives one. -/
def Obligations.OverlongCodeStopsByName : Prop :=
  (∀ (s : State) (sym : Byte) (code : Bits), 255 < code.length →
    exec (.encLoad sym code) s = .fault .overlongCode) ∧
  (∀ (h : Word) (ext : List Word) (sym : Byte) (code : Bits), decode h ext = .ok (.encLoad sym code) →
    code.length ≤ 255)

/-- R122: `ENC.START` outside `ERR`. -/
def Obligations.EncStartBeginsRun : Prop :=
  ∀ s : State, s.enc.eSt ≠ .err →
    (s.enc.eSt ≠ .cfg → exec .encStart s = .next { s with enc := { s.enc with eSt := .err, eErr := 2#4 } }) ∧
    (s.enc.eSt = .cfg → exec .encStart s = .next { s with enc := { s.enc with eSt := .run } })

/-- R123: `ENC.PUT` outside `ERR`: the faults in order, and the closed form of the effect: with `h` the bits held,
`w = h ++ CODE` and `k = (E_NACC + LEN) div 8`, it emits `pack(w[0 .. 8k))` and holds `w[8k .. len(w))`, left-aligned
with zeros below. -/
def Obligations.EncPutPacksCode : Prop :=
  ∀ (s : State) (sym : Byte), s.enc.eSt ≠ .err →
    (s.enc.eSt ≠ .run → exec (.encPut sym) s = .next { s with enc := { s.enc with eSt := .err, eErr := 2#4 } }) ∧
    (s.enc.eSt = .run → s.enc.code sym = none →
      exec (.encPut sym) s = .next { s with enc := { s.enc with eSt := .err, eErr := 4#4 } }) ∧
    (∀ code, s.enc.eSt = .run → s.enc.code sym = some code →
      (s.enc.eOrig.toNat = 4294967295 ∨
        s.enc.ePayload.toNat + (s.enc.eNacc.toNat + code.length) / 8 > 4294967295) →
      exec (.encPut sym) s = .next { s with enc := { s.enc with eSt := .err, eErr := 5#4 } }) ∧
    (∀ code, s.enc.eSt = .run → s.enc.code sym = some code → s.enc.eOrig.toNat ≠ 4294967295 →
      s.enc.ePayload.toNat + (s.enc.eNacc.toNat + code.length) / 8 ≤ 4294967295 → s.enc.accClean →
      let w := s.enc.held ++ code
      let k := (s.enc.eNacc.toNat + code.length) / 8
      ∃ e : EncState,
        exec (.encPut sym) s = .next { s with enc := e, encOut := s.encOut ++ pack (w.take (8 * k)) } ∧
        e = { s.enc with eAcc := e.eAcc, eNacc := e.eNacc, ePayload := e.ePayload, eOrig := e.eOrig } ∧
        e.held = w.drop (8 * k) ∧ e.accClean ∧
        e.eNacc.toNat = (s.enc.eNacc.toNat + code.length) % 8 ∧
        e.ePayload.toNat = s.enc.ePayload.toNat + k ∧ e.eOrig.toNat = s.enc.eOrig.toNat + 1)

/-- R124: `ENC.FINISH` outside `ERR`. -/
def Obligations.EncFinishPadsAndFlushes : Prop :=
  ∀ s : State, s.enc.eSt ≠ .err →
    (s.enc.eSt ≠ .run → exec .encFinish s = .next { s with enc := { s.enc with eSt := .err, eErr := 2#4 } }) ∧
    (s.enc.eSt = .run → s.enc.eNacc = 0#3 →
      exec .encFinish s = .next { s with enc := { s.enc with ePad := 0#3, eSt := .done } }) ∧
    (s.enc.eSt = .run → s.enc.eNacc ≠ 0#3 → s.enc.ePayload.toNat = 4294967295 →
      exec .encFinish s = .next { s with enc := { s.enc with eSt := .err, eErr := 5#4 } }) ∧
    (s.enc.eSt = .run → s.enc.eNacc ≠ 0#3 → s.enc.ePayload.toNat ≠ 4294967295 → ∃ e : EncState,
      exec .encFinish s = .next { s with enc := e, encOut := s.encOut ++ [s.enc.eAcc] } ∧
      e = { s.enc with ePad := e.ePad, ePayload := e.ePayload, eAcc := 0x00#8, eNacc := 0#3, eSt := .done } ∧
      e.ePad.toNat = 8 - s.enc.eNacc.toNat ∧
      e.ePad.toNat = padding (8 * s.enc.ePayload.toNat + s.enc.eNacc.toNat) ∧
      e.ePayload.toNat = s.enc.ePayload.toNat + 1)

/-- R126, R30: `ENC.RD` in every state. -/
def Obligations.EncReadAnswersRegister : Prop :=
  ∀ s : State,
    (∃ w : Word, exec (.encRd 0#4) s = .next { s with rsp := s.rsp ++ [w] } ∧
      w.extractLsb' 4 4 = s.enc.eErr ∧ w.extractLsb' 2 2 = 0#2 ∧ w.extractLsb' 8 24 = 0#24 ∧
      (w.extractLsb' 0 2).toNat =
        (match s.enc.eSt with | .cfg => 0 | .run => 1 | .done => 2 | .err => 3)) ∧
    exec (.encRd 1#4) s = .next { s with rsp := s.rsp ++ [s.enc.eOrig] } ∧
    exec (.encRd 2#4) s = .next { s with rsp := s.rsp ++ [s.enc.ePayload] } ∧
    (∃ w : Word, exec (.encRd 3#4) s = .next { s with rsp := s.rsp ++ [w] } ∧ w.toNat = s.enc.ePad.toNat) ∧
    (∀ reg : RegNum, 4 ≤ reg.toNat → s.enc.eSt ≠ .err →
      exec (.encRd reg) s = .next { s with enc := { s.enc with eSt := .err, eErr := 1#4 } }) ∧
    (∀ reg : RegNum, 4 ≤ reg.toNat → s.enc.eSt = .err → exec (.encRd reg) s = .next s)

/-! ### The DEC commands (42_decoder.md) -/

/-- R140: `DEC.RESET` in every state. -/
def Obligations.DecResetClearsUnit : Prop :=
  ∀ s : State, ∃ d : DecState, exec .decReset s = .next { s with dec := d } ∧
    d.dSt = .cfg ∧ d.dErr = 0#4 ∧ (∀ h : Handle, d.node h = none) ∧ d.dRoot = 0#9 ∧ d.dCur = 0#9 ∧
    d.dDesc = false ∧ d.dOrig = 0#32 ∧ d.dPayload = 0#32 ∧ d.dPad = 0#32 ∧ d.dBytes = 0#32 ∧ d.dOut = 0#32

/-- R141: `DEC.LEAF` and `DEC.INODE` outside `ERR`: the illegal leaf words, the fault, and the one entry written. -/
def Obligations.DecNodeWritesOneEntry : Prop :=
  (∀ (s : State) (h : Word) (rest : List Word), s.dec.dSt ≠ .err → h.extractLsb' 28 4 = 0x9#4 →
    h.getLsbD 18 = true → h.extractLsb' 8 10 ≠ 0#10 → s.cmd = h :: rest →
    step s = .next { s with cmd := rest, dec := { s.dec with dSt := .err, dErr := 1#4 } }) ∧
  (∀ (s : State) (idx left right : Handle) (sym : Byte), s.dec.dSt ≠ .err →
    (s.dec.dSt ≠ .cfg →
      exec (.decLeaf idx sym) s = .next { s with dec := { s.dec with dSt := .err, dErr := 2#4 } } ∧
      exec (.decInode idx left right) s = .next { s with dec := { s.dec with dSt := .err, dErr := 2#4 } }) ∧
    (s.dec.dSt = .cfg →
      (∃ d : DecState, exec (.decLeaf idx sym) s = .next { s with dec := d } ∧ d = { s.dec with tree := d.tree } ∧
        d.node idx = some (.leaf sym) ∧ ∀ h : Handle, h ≠ idx → d.node h = s.dec.node h) ∧
      (∃ d : DecState, exec (.decInode idx left right) s = .next { s with dec := d } ∧
        d = { s.dec with tree := d.tree } ∧
        d.node idx = some (.inode left right) ∧ ∀ h : Handle, h ≠ idx → d.node h = s.dec.node h)))

/-- R142, R41: `DEC.WR` outside `ERR`: its illegal words, its faults in order, and the one register it writes. -/
def Obligations.DecWriteSetsRegister : Prop :=
  (∀ (s : State) (h value : Word) (rest : List Word), s.dec.dSt ≠ .err → h.extractLsb' 28 4 = 0xE#4 →
    h.extractLsb' 4 24 ≠ 0#24 → s.cmd = h :: value :: rest →
    step s = .next { s with cmd := rest, dec := { s.dec with dSt := .err, dErr := 1#4 } }) ∧
  (∀ (s : State) (value : Word), s.dec.dSt ≠ .err →
    (∀ reg : RegNum, s.dec.dSt ≠ .cfg →
      exec (.decWr reg value) s = .next { s with dec := { s.dec with dSt := .err, dErr := 2#4 } }) ∧
    (s.dec.dSt = .cfg →
      exec (.decWr 1#4 value) s = .next { s with dec := { s.dec with dOrig := value } } ∧
      exec (.decWr 2#4 value) s = .next { s with dec := { s.dec with dPayload := value } } ∧
      exec (.decWr 3#4 value) s = .next { s with dec := { s.dec with dPad := value } } ∧
      (value.toNat ≤ 511 → ∃ root : Handle, root.toNat = value.toNat ∧
        exec (.decWr 4#4 value) s = .next { s with dec := { s.dec with dRoot := root } }) ∧
      (511 < value.toNat →
        exec (.decWr 4#4 value) s = .next { s with dec := { s.dec with dSt := .err, dErr := 1#4 } }) ∧
      (∀ reg : RegNum, reg.toNat = 0 ∨ 5 ≤ reg.toNat →
        exec (.decWr reg value) s = .next { s with dec := { s.dec with dSt := .err, dErr := 1#4 } })))

/-- R144: `DEC.START` outside `ERR`. -/
def Obligations.DecStartChecksHeader : Prop :=
  ∀ s : State, s.dec.dSt ≠ .err →
    (s.dec.dSt ≠ .cfg → exec .decStart s = .next { s with dec := { s.dec with dSt := .err, dErr := 2#4 } }) ∧
    (s.dec.dSt = .cfg → (7 < s.dec.dPad.toNat ∨ (s.dec.dPayload = 0#32 ∧ s.dec.dPad ≠ 0#32)) →
      exec .decStart s = .next { s with dec := { s.dec with dSt := .err, dErr := 3#4 } }) ∧
    (s.dec.dSt = .cfg → s.dec.dPad.toNat ≤ 7 → ¬ (s.dec.dPayload = 0#32 ∧ s.dec.dPad ≠ 0#32) →
      exec .decStart s = .next { s with dec := { s.dec with dCur := s.dec.dRoot, dDesc := false, dSt := .run } })

/-- R145: the walk step on the registers, arm by arm. -/
def Obligations.DecBitWalksTree : Prop :=
  ∀ (d : DecState) (x : Bool),
    (d.node d.dCur = none → decBit x d = .error .badTree) ∧
    (∀ sym, d.node d.dCur = some (.leaf sym) →
      (x = true → decBit x d = .error .badBit) ∧
      (x = false → d.dOut = d.dOrig → decBit x d = .error .length) ∧
      (x = false → d.dOut ≠ d.dOrig → decBit x d = .ok ({ d with dOut := d.dOut + 1#32 }, [sym]))) ∧
    (∀ left right, d.node d.dCur = some (.inode left right) →
      (d.node (if x then right else left) = none → decBit x d = .error .badTree) ∧
      (∀ sym, d.node (if x then right else left) = some (.leaf sym) →
        (d.dOut = d.dOrig → decBit x d = .error .length) ∧
        (d.dOut ≠ d.dOrig →
          decBit x d = .ok ({ d with dOut := d.dOut + 1#32, dCur := d.dRoot, dDesc := false }, [sym]))) ∧
      (∀ l r, d.node (if x then right else left) = some (.inode l r) →
        decBit x d = .ok ({ d with dCur := if x then right else left, dDesc := true }, [])))

/-- R146 with R106 and R107: `DEC.PUT` outside `ERR`. The bits walked are the first `nbits` of the byte, most
significant first; what they do is the loop of `decode` (R107) from the registers' position, with `D_OUT` symbols
already out and the limit `D_ORIG`. A fault in any bit undoes the whole command. The premises on `D_PAD`, on the position
and on `D_OUT` hold in every reachable `RUN` state (R43; "since `D_PAD ≤ 7`", R146). -/
def Obligations.DecPutWalksByte : Prop :=
  ∀ (s : State) (byte : Byte), s.dec.dSt ≠ .err →
    (s.dec.dSt ≠ .run → exec (.decPut byte) s = .next { s with dec := { s.dec with dSt := .err, dErr := 2#4 } }) ∧
    (s.dec.dSt = .run → s.dec.dBytes = s.dec.dPayload →
      exec (.decPut byte) s = .next { s with dec := { s.dec with dSt := .err, dErr := 6#4 } }) ∧
    (s.dec.dSt = .run → s.dec.dBytes.toNat < s.dec.dPayload.toNat → s.dec.dPad.toNat ≤ 7 →
      s.dec.dOut.toNat ≤ s.dec.dOrig.toNat →
      (∀ sym, s.dec.node s.dec.dCur = some (.leaf sym) → s.dec.dCur = s.dec.dRoot ∧ s.dec.dDesc = false) →
      let nbits := if s.dec.dBytes.toNat + 1 = s.dec.dPayload.toNat then 8 - s.dec.dPad.toNat else 8
      let bits := (List.range nbits).map fun i => byte.getLsbD (7 - i)
      ∀ before : List Byte, before.length = s.dec.dOut.toNat →
        (∀ c, decodeLoop s.dec.node s.dec.dRoot s.dec.dOrig.toNat bits ⟨s.dec.dCur, s.dec.dDesc⟩ before = .error c →
          exec (.decPut byte) s = .next { s with dec := { s.dec with dSt := .err, dErr := c.code } }) ∧
        (∀ pos out,
          decodeLoop s.dec.node s.dec.dRoot s.dec.dOrig.toNat bits ⟨s.dec.dCur, s.dec.dDesc⟩ before = .ok (pos, out) →
          ∃ (d : DecState) (bs : List Byte), out = before ++ bs ∧
            exec (.decPut byte) s = .next { s with dec := d, decOut := s.decOut ++ bs } ∧
            d = { s.dec with dCur := pos.cur, dDesc := pos.desc, dOut := d.dOut, dBytes := d.dBytes } ∧
            d.dOut.toNat = s.dec.dOut.toNat + bs.length ∧ d.dBytes.toNat = s.dec.dBytes.toNat + 1))

/-- R147: `DEC.FINISH` outside `ERR`. -/
def Obligations.DecFinishChecksEnd : Prop :=
  ∀ s : State, s.dec.dSt ≠ .err →
    (s.dec.dSt ≠ .run → exec .decFinish s = .next { s with dec := { s.dec with dSt := .err, dErr := 2#4 } }) ∧
    (s.dec.dSt = .run → s.dec.dBytes ≠ s.dec.dPayload →
      exec .decFinish s = .next { s with dec := { s.dec with dSt := .err, dErr := 7#4 } }) ∧
    (s.dec.dSt = .run → s.dec.dBytes = s.dec.dPayload → s.dec.dDesc = true →
      exec .decFinish s = .next { s with dec := { s.dec with dSt := .err, dErr := 8#4 } }) ∧
    (s.dec.dSt = .run → s.dec.dBytes = s.dec.dPayload → s.dec.dDesc = false → s.dec.dOut ≠ s.dec.dOrig →
      exec .decFinish s = .next { s with dec := { s.dec with dSt := .err, dErr := 9#4 } }) ∧
    (s.dec.dSt = .run → s.dec.dBytes = s.dec.dPayload → s.dec.dDesc = false → s.dec.dOut = s.dec.dOrig →
      exec .decFinish s = .next { s with dec := { s.dec with dSt := .done } })

/-- R149, R41: `DEC.RD` in every state. -/
def Obligations.DecReadAnswersRegister : Prop :=
  ∀ s : State,
    (∃ w : Word, exec (.decRd 0#4) s = .next { s with rsp := s.rsp ++ [w] } ∧
      w.extractLsb' 4 4 = s.dec.dErr ∧ w.extractLsb' 2 2 = 0#2 ∧ w.extractLsb' 8 24 = 0#24 ∧
      (w.extractLsb' 0 2).toNat =
        (match s.dec.dSt with | .cfg => 0 | .run => 1 | .done => 2 | .err => 3)) ∧
    exec (.decRd 1#4) s = .next { s with rsp := s.rsp ++ [s.dec.dOrig] } ∧
    exec (.decRd 2#4) s = .next { s with rsp := s.rsp ++ [s.dec.dPayload] } ∧
    exec (.decRd 3#4) s = .next { s with rsp := s.rsp ++ [s.dec.dPad] } ∧
    (∃ w : Word, exec (.decRd 4#4) s = .next { s with rsp := s.rsp ++ [w] } ∧ w.toNat = s.dec.dRoot.toNat) ∧
    exec (.decRd 5#4) s = .next { s with rsp := s.rsp ++ [s.dec.dBytes] } ∧
    exec (.decRd 6#4) s = .next { s with rsp := s.rsp ++ [s.dec.dOut] } ∧
    (∃ w : Word, exec (.decRd 7#4) s = .next { s with rsp := s.rsp ++ [w] } ∧
      w.extractLsb' 0 9 = s.dec.dCur ∧ w.extractLsb' 9 7 = 0#7 ∧ w.getLsbD 16 = s.dec.dDesc ∧
      w.extractLsb' 17 15 = 0#15) ∧
    (∀ reg : RegNum, 8 ≤ reg.toNat → s.dec.dSt ≠ .err →
      exec (.decRd reg) s = .next { s with dec := { s.dec with dSt := .err, dErr := 1#4 } }) ∧
    (∀ reg : RegNum, 8 ≤ reg.toNat → s.dec.dSt = .err → exec (.decRd reg) s = .next s)

/-! ### Faults and run states (60_exceptions.md, 49_command_classes.md) -/

/-- R204, R201, R202: whatever command, legal or not, puts a unit into `ERR`, the state is that before the command plus
the two writes to `U_ST` and `U_ERR`; over `step`, `CMD` has lost the header word and the extension words it announces. -/
def Obligations.FaultWritesOnlyStateAndCause : Prop :=
  (∀ (i : Instr) (s t : State), exec i s = .next t →
    (s.enc.eSt ≠ .err → t.enc.eSt = .err → ∃ c : BitVec 4, 1 ≤ c.toNat ∧ c.toNat ≤ 5 ∧
      t = { s with enc := { s.enc with eSt := .err, eErr := c } }) ∧
    (s.dec.dSt ≠ .err → t.dec.dSt = .err → ∃ c : BitVec 4, 1 ≤ c.toNat ∧ c.toNat ≤ 9 ∧
      t = { s with dec := { s.dec with dSt := .err, dErr := c } })) ∧
  (∀ s t : State, step s = .next t →
    (s.enc.eSt ≠ .err → t.enc.eSt = .err → ∃ (h : Word) (ext rest : List Word) (c : BitVec 4),
      s.cmd = h :: (ext ++ rest) ∧ ext.length = extWords h ∧ h.getLsbD 31 = false ∧ 1 ≤ c.toNat ∧ c.toNat ≤ 5 ∧
      t = { s with cmd := rest, enc := { s.enc with eSt := .err, eErr := c } }) ∧
    (s.dec.dSt ≠ .err → t.dec.dSt = .err → ∃ (h : Word) (ext rest : List Word) (c : BitVec 4),
      s.cmd = h :: (ext ++ rest) ∧ ext.length = extWords h ∧ h.getLsbD 31 = true ∧ 1 ≤ c.toNat ∧ c.toNat ≤ 9 ∧
      t = { s with cmd := rest, dec := { s.dec with dSt := .err, dErr := c } }))

/-- R206: in `ERR` a unit ignores every command, legal or not, but its `RESET` and a legal `RD`; the extension words
are consumed. -/
def Obligations.ErrStateIgnoresCommands : Prop :=
  ∀ (s : State) (h : Word) (ext rest : List Word), s.cmd = h :: (ext ++ rest) → ext.length = extWords h →
    (h.getLsbD 31 = false ∧ s.enc.eSt = .err) ∨ (h.getLsbD 31 = true ∧ s.dec.dSt = .err) →
    (∀ e, decode h ext = .error e → step s = .next { s with cmd := rest }) ∧
    (∀ i, decode h ext = .ok i → ¬ isReset i → isLegalRead i = false → step s = .next { s with cmd := rest }) ∧
    (decode h ext = .ok .encReset → step s = .next { s with cmd := rest, enc := EncState.reset }) ∧
    (decode h ext = .ok .decReset → step s = .next { s with cmd := rest, dec := DecState.reset }) ∧
    (∀ i, decode h ext = .ok i → isLegalRead i = true →
      ∃ v, step s = .next { s with cmd := rest, rsp := s.rsp ++ [v] })

/-- R207: the only command that leaves `ERR` is the unit's `RESET`, which clears the table and every register; over
`step`, it is the one word that encodes it. -/
def Obligations.OnlyResetLeavesErr : Prop :=
  (∀ (i : Instr) (s t : State), exec i s = .next t →
    (s.enc.eSt = .err → t.enc.eSt ≠ .err → i = .encReset ∧ t = { s with enc := EncState.reset }) ∧
    (s.dec.dSt = .err → t.dec.dSt ≠ .err → i = .decReset ∧ t = { s with dec := DecState.reset })) ∧
  (∀ s t : State, step s = .next t →
    (s.enc.eSt = .err → t.enc.eSt ≠ .err →
      ∃ rest, s.cmd = 0x00000000#32 :: rest ∧ t = { s with cmd := rest, enc := EncState.reset }) ∧
    (s.dec.dSt = .err → t.dec.dSt ≠ .err →
      ∃ rest, s.cmd = 0x80000000#32 :: rest ∧ t = { s with cmd := rest, dec := DecState.reset }))

/-- R192: the transition relation of a unit's run state over the legal commands; the other unit's run state stays.
Illegal words are in `IllegalWordFaultsItsUnit`. -/
def Obligations.RunStateTransitions : Prop :=
  ∀ (i : Instr) (s t : State), exec i s = .next t →
    (∀ u, u ≠ i.unit → runState u t = runState u s) ∧
    (isReset i → runState i.unit t = .cfg) ∧
    (¬ isReset i → runState i.unit s = .err → runState i.unit t = .err) ∧
    (isLegalRead i = true → runState i.unit t = runState i.unit s) ∧
    (¬ isReset i → isLegalRead i = false → runState i.unit s ≠ .err →
      (acceptedIn i (runState i.unit s) = false → runState i.unit t = .err) ∧
      (∀ reg, i = .encRd reg ∨ i = .decRd reg → runState i.unit t = .err) ∧
      (runState i.unit t = .err ∨
        runState i.unit t =
          (match i with
           | .encStart => .run
           | .decStart => .run
           | .encFinish => .done
           | .decFinish => .done
           | _ => runState i.unit s)))

/-! ### Separation, streams, counts, tables (10_state.md, 20_memory.md) -/

/-- R20: "no register, table or stream of ENC is read or written by DEC or the reverse": the written half, as the frame
of every command. `CMD` is left alone too. -/
def Obligations.CommandLeavesOtherUnit : Prop :=
  ∀ (i : Instr) (s t : State), exec i s = .next t →
    t.cmd = s.cmd ∧
    (i.unit = .enc → t.dec = s.dec ∧ t.decOut = s.decOut) ∧
    (i.unit = .dec → t.enc = s.enc ∧ t.encOut = s.encOut)

/-- R20, R63: the read half: what a command does to its unit and what it emits depends on its unit's state alone. -/
def Obligations.CommandReadsOwnUnitOnly : Prop :=
  ∀ (i : Instr) (s s' t : State), exec i s = .next t →
    (i.unit = .enc → s'.enc = s.enc → ∃ (bs : List Byte) (ws : List Word),
      t.encOut = s.encOut ++ bs ∧ t.rsp = s.rsp ++ ws ∧
      exec i s' = .next { s' with enc := t.enc, encOut := s'.encOut ++ bs, rsp := s'.rsp ++ ws }) ∧
    (i.unit = .dec → s'.dec = s.dec → ∃ (bs : List Byte) (ws : List Word),
      t.decOut = s.decOut ++ bs ∧ t.rsp = s.rsp ++ ws ∧
      exec i s' = .next { s' with dec := t.dec, decOut := s'.decOut ++ bs, rsp := s'.rsp ++ ws })

/-- R63: after a command sequence, the state of each unit and the content of its output stream are those its own
sub-sequence gives. -/
def Obligations.InterleavingGivesOwnSubsequence : Prop :=
  ∀ (is : List Instr) (s : State), (∀ i ∈ is, i.wf = true) →
    ∃ t te td : State,
      runCommands is s = .next t ∧
      runCommands (is.filter fun i => i.unit = .enc) s = .next te ∧
      runCommands (is.filter fun i => i.unit = .dec) s = .next td ∧
      t.enc = te.enc ∧ t.encOut = te.encOut ∧ t.dec = td.dec ∧ t.decOut = td.decOut ∧
      (∃ ws, t.rsp = s.rsp ++ ws ∧ ws.length = (te.rsp.length - s.rsp.length) + (td.rsp.length - s.rsp.length))

/-- R59: a legal read changes nothing but the response stream and may be repeated; no other command answers. -/
def Obligations.ReadsHaveNoSideEffect : Prop :=
  (∀ (i : Instr) (s : State), isLegalRead i = true → ∃ v : Word,
    exec i s = .next { s with rsp := s.rsp ++ [v] } ∧
    exec i { s with rsp := s.rsp ++ [v] } = .next { s with rsp := s.rsp ++ [v] ++ [v] }) ∧
  (∀ (i : Instr) (s t : State), isLegalRead i = false → exec i s = .next t → t.rsp = s.rsp)

/-- R42, R58: a step only appends to the output streams, at most 32 bytes, 8 symbols and one response, and only takes
words from the head of `CMD`, at most nine. -/
def Obligations.StreamsOnlyGrow : Prop :=
  ∀ s t : State, s.Inv → step s = .next t →
    (∃ bs, t.encOut = s.encOut ++ bs ∧ bs.length ≤ 32) ∧
    (∃ bs, t.decOut = s.decOut ++ bs ∧ bs.length ≤ 8) ∧
    (∃ ws, t.rsp = s.rsp ++ ws ∧ ws.length ≤ 1) ∧
    (∃ ws, s.cmd = ws ++ t.cmd ∧ ws.length ≤ 9)

/-- R112, R212: no count wraps: unless its unit is reset, `E_ORIG` and `D_BYTES` grow by 1 with a `PUT` that is accepted
in `RUN` and does not fault and stay with everything else, and `E_PAYLOAD` and `D_OUT` grow by what was emitted, as
numbers. -/
def Obligations.CountsNeverWrap : Prop :=
  ∀ (i : Instr) (s t : State), s.Inv → exec i s = .next t →
    (i ≠ .encReset →
      ((∃ sym, i = .encPut sym) ∧ s.enc.eSt = .run ∧ t.enc.eSt ≠ .err →
        t.enc.eOrig.toNat = s.enc.eOrig.toNat + 1) ∧
      (¬ ((∃ sym, i = .encPut sym) ∧ s.enc.eSt = .run ∧ t.enc.eSt ≠ .err) →
        t.enc.eOrig.toNat = s.enc.eOrig.toNat) ∧
      t.enc.ePayload.toNat + s.encOut.length = s.enc.ePayload.toNat + t.encOut.length) ∧
    (i ≠ .decReset →
      ((∃ byte, i = .decPut byte) ∧ s.dec.dSt = .run ∧ t.dec.dSt ≠ .err →
        t.dec.dBytes.toNat = s.dec.dBytes.toNat + 1) ∧
      (¬ ((∃ byte, i = .decPut byte) ∧ s.dec.dSt = .run ∧ t.dec.dSt ≠ .err) →
        t.dec.dBytes.toNat = s.dec.dBytes.toNat) ∧
      t.dec.dOut.toNat + s.decOut.length = s.dec.dOut.toNat + t.decOut.length)

/-- R65, R143, R225: outside `CFG` no command but the unit's `RESET` changes its table or its configuration registers,
and `START`, `PUT` and `FINISH` change them in no state. -/
def Obligations.TablesFrozenOutsideCfg : Prop :=
  ∀ (i : Instr) (s t : State), exec i s = .next t →
    (i ≠ .encReset → (s.enc.eSt ≠ .cfg ∨ ∀ sym code, i ≠ .encLoad sym code) → t.enc.ct = s.enc.ct) ∧
    (i ≠ .decReset →
      (s.dec.dSt ≠ .cfg ∨ ((∀ h b, i ≠ .decLeaf h b) ∧ (∀ h l r, i ≠ .decInode h l r) ∧ ∀ r v, i ≠ .decWr r v)) →
      t.dec.tree = s.dec.tree ∧ t.dec.dRoot = s.dec.dRoot ∧ t.dec.dOrig = s.dec.dOrig ∧
      t.dec.dPayload = s.dec.dPayload ∧ t.dec.dPad = s.dec.dPad)

/-- R43 (a), (c) to (f), with the canonical form of the tables: every step keeps the invariants, from every state that
meets them. -/
def Obligations.StepKeepsInvariants : Prop := ∀ s t : State, s.Inv → step s = .next t → t.Inv

/-- R43, R46: the invariants hold after power-on. -/
def Obligations.PowerOnMeetsInvariants : Prop := State.reset.Inv

/-- R46, R220, R222: the reset values; and the hardware reset input gives both units those values in every state,
leaving the streams, the commands not yet executed included. Two clauses are the model's reading: that the four streams
are empty at power-on (log entry 8, from 95_test_vectors.md part 7), and that the input is a function of the state (log
entry 4). -/
def Obligations.ResetValues : Prop :=
  (∀ s : State, hardwareReset s = { s with enc := State.reset.enc, dec := State.reset.dec } ∧
    runCommands [.encReset, .decReset] s = .next (hardwareReset s)) ∧
  (State.reset.cmd = [] ∧ State.reset.encOut = [] ∧ State.reset.decOut = [] ∧ State.reset.rsp = []) ∧
  (let e := State.reset.enc;
    e.eSt = .cfg ∧ e.eErr = 0#4 ∧ (∀ sym : Byte, e.code sym = none) ∧ e.eAcc = 0x00#8 ∧ e.eNacc = 0#3 ∧
    e.eOrig = 0#32 ∧ e.ePayload = 0#32 ∧ e.ePad = 0#3) ∧
  (let d := State.reset.dec;
    d.dSt = .cfg ∧ d.dErr = 0#4 ∧ (∀ h : Handle, d.node h = none) ∧ d.dRoot = 0#9 ∧ d.dCur = 0#9 ∧
    d.dDesc = false ∧ d.dOrig = 0#32 ∧ d.dPayload = 0#32 ∧ d.dPad = 0#32 ∧ d.dBytes = 0#32 ∧ d.dOut = 0#32)

/-! ### Reference functions and whole runs (40_reference_functions.md, R125, R148) -/

/-- R100, R101: `unpack(P)[8k+i] = P[k][7−i]`, and `pack` and `unpack` are inverse of each other. -/
def Obligations.PackUnpackInverse : Prop :=
  (∀ P : List Byte, (unpack P).length = 8 * P.length ∧ pack (unpack P) = P ∧
    ∀ k i, k < P.length → i ≤ 7 → (unpack P)[8 * k + i]? = some ((P.getD k 0#8).getLsbD (7 - i))) ∧
  (∀ b : Bits, b.length % 8 = 0 → (pack b).length = b.length / 8 ∧ unpack (pack b) = b)

/-- R103: "`0 ≤ padding(n) ≤ 7` and `n + padding(n)` is a multiple of 8". -/
def Obligations.PaddingReachesByteBoundary : Prop :=
  ∀ n : Nat, padding n ≤ 7 ∧ (n + padding n) % 8 = 0 ∧ padding n = (8 - n % 8) % 8

/-- R104: the header accounting, and "trimming the stored `padding` count of trailing bits, reproduces exactly the
original bit-string". For a sequence with a member that has no code, or an empty one, which R104 leaves out, it holds
of the model's total `encBits` (log entry 12). -/
def Obligations.PayloadAccounting : Prop :=
  ∀ (T : CodeMap) (D : List Byte),
    8 * (payload T D).length = (encBits T D).length + padOf T D ∧
    trim (unpack (payload T D)) (padOf T D) = encBits T D

/-- R110: the round trip of the datapaths, for a table and a tree that agree (R109). It holds of R109's trees and of
every other tree to which the model extends `Agree` (its choice, log entry 15). -/
def Obligations.DatapathRoundTrip : Prop :=
  ∀ (T : CodeMap) (Tr : TreeMap) (r : Handle) (D : List Byte), Agree T Tr r → (∀ d ∈ D, (T d).isSome) →
    decodeBits Tr r (encBits T D) D.length = .ok D

/-- R111: the codes of a tree are prefix-free, for R109's trees and every other to which the model extends `Agree` (its
choice, log entry 15). -/
def Obligations.TreeCodesArePrefixFree : Prop :=
  ∀ (T : CodeMap) (Tr : TreeMap) (r : Handle), Agree T Tr r → PrefixFree T

/-- R43 (b), R113: over any `ENC.PUT`s that do not fault, `8·E_PAYLOAD + E_NACC` grows by the lengths of the codes put
and `E_ORIG` by their number; a fault-free `ENC.FINISH` then leaves `8·E_PAYLOAD − E_PAD` at that sum. -/
def Obligations.BitCountIsSumOfCodeLengths : Prop :=
  ∀ (s t : State) (D : List Byte), s.enc.Inv → s.enc.eSt = .run →
    runCommands (encPuts D) s = .next t → t.enc.eSt = .run →
    8 * t.enc.ePayload.toNat + t.enc.eNacc.toNat =
      8 * s.enc.ePayload.toNat + s.enc.eNacc.toNat + (encBits s.enc.code D).length ∧
    t.enc.eOrig.toNat = s.enc.eOrig.toNat + D.length ∧
    ∀ u : State, exec .encFinish t = .next u → u.enc.eSt = .done →
      8 * u.enc.ePayload.toNat = 8 * t.enc.ePayload.toNat + t.enc.eNacc.toNat + u.enc.ePad.toNat

/-- R125: the whole run of ENC, legal `RD` commands and any commands of DEC between its own, from any state: it emits
exactly `payload(T, D)` and ends in `DONE` with the three counts. -/
def Obligations.EncoderWholeRun : Prop :=
  ∀ (s : State) (is : List Instr) (loads : List (Byte × Bits)) (D : List Byte),
    (∀ i ∈ is, i.wf = true) → ownWork .enc is = encRun loads D →
    (∀ p ∈ loads, 1 ≤ p.2.length) → (∀ d ∈ D, (codeMapOf loads d).isSome) → D.length ≤ 4294967295 →
    (payload (codeMapOf loads) D).length ≤ 4294967295 →
    ∃ t, runCommands is s = .next t ∧
      t.encOut = s.encOut ++ payload (codeMapOf loads) D ∧
      t.enc.eSt = .done ∧ t.enc.eErr = 0#4 ∧ t.enc.eOrig.toNat = D.length ∧
      t.enc.ePayload.toNat = (payload (codeMapOf loads) D).length ∧
      t.enc.ePad.toNat = padOf (codeMapOf loads) D

/-- R148: the whole run of DEC, legal `RD` commands and any commands of ENC between its own, from any state: it ends in
`DONE` exactly when `decompress_payload` returns, and then emits its result; else it ends in `ERR`, having emitted what
`decode` had produced up to the end of the last payload byte consumed, which is byte `D_BYTES`. -/
def Obligations.DecoderWholeRun : Prop :=
  ∀ (s : State) (is cfg : List Instr) (P : List Byte),
    (∀ i ∈ is, i.wf = true) → (∀ i ∈ cfg, isDecConfig i = true) →
    ownWork .dec is = [.decReset] ++ cfg ++ [.decStart] ++ decPuts P ++ [.decFinish] →
    let Tr := treeLeft cfg
    let orig := (regLeft cfg 1).toNat
    let pcount := (regLeft cfg 2).toNat
    let pad := (regLeft cfg 3).toNat
    let r : Handle := BitVec.ofNat 9 (regLeft cfg 4).toNat
    ∃ t, runCommands is s = .next t ∧
      (t.dec.dSt = .done ↔ ∃ out, decompressPayload Tr r orig pcount pad P = .ok out) ∧
      (∀ out, decompressPayload Tr r orig pcount pad P = .ok out →
        t.decOut = s.decOut ++ out ∧ t.dec.dErr = 0#4 ∧ t.dec.dOut.toNat = orig ∧ t.dec.dBytes.toNat = pcount) ∧
      (∀ c, decompressPayload Tr r orig pcount pad P = .error c →
        t.dec.dSt = .err ∧ (P.length = pcount → t.dec.dErr = c.code) ∧
        let m := t.dec.dBytes.toNat
        m ≤ P.length ∧ m ≤ pcount ∧ ∃ pos out,
          decodeLoop Tr r orig (if m = pcount then trim (unpack (P.take m)) pad else unpack (P.take m))
            ⟨r, false⟩ [] = .ok (pos, out) ∧
          t.decOut = s.decOut ++ out)

/-- R148's last sentence with R125 and R110: if the tree agrees with the encoder's table and the three counts are the
encoder's, the decoder emits the encoder's input. `Agree` on a tree outside R109's domain is log entry 15. -/
def Obligations.EncodeThenDecodeReturnsInput : Prop :=
  ∀ (s : State) (loads : List (Byte × Bits)) (nodes : List (Handle × Node)) (root : Handle) (D : List Byte),
    (∀ p ∈ loads, 1 ≤ p.2.length ∧ p.2.length ≤ 255) →
    Agree (codeMapOf loads) (treeLeft (nodes.map fun p => decNode p.1 p.2)) root →
    (∀ d ∈ D, (codeMapOf loads d).isSome) → D.length ≤ 4294967295 →
    (payload (codeMapOf loads) D).length ≤ 4294967295 →
    ∃ t u P, runCommands (encRun loads D) s = .next t ∧ t.encOut = s.encOut ++ P ∧
      runCommands (decRun (nodes.map fun p => decNode p.1 p.2) t.enc.eOrig t.enc.ePayload
        (t.enc.ePad.zeroExtend 32) (root.zeroExtend 32) P) t = .next u ∧
      u.dec.dSt = .done ∧ u.decOut = t.decOut ++ D

/-! ### Host software (48_host_software.md) -/

/-- R170, R171, R186: the keys of the frequency table are the byte values present, ascending; the count of each, in 32
bits, is its number of occurrences; the counts add up to the length. That there is no table exactly where a count does
not fit is the model's choice for the precondition of R186 (log entry 17). -/
def Obligations.FreqTableCountsOccurrences : Prop :=
  ∀ D : List Byte,
    (∀ F, freqTable D = some F →
      (∀ b, b ∈ F.map Prod.fst ↔ b ∈ D) ∧ (∀ p ∈ F, p.2.toNat = D.count p.1) ∧
      (F.map fun p => p.1.toNat).Pairwise (· < ·) ∧ (F.map fun p => p.2.toNat).sum = D.length) ∧
    (freqTable D = none ↔ ∃ b, 2 ^ 32 ≤ D.count b)

/-- R185: "write-then-read is a byte-exact round trip of all four header fields and the frequency table", with R184's total
length. For a container whose payload count is not the payload's length, or whose entries are unordered, repeated, above
256 or of count 0, it is the model's choice that the reader takes all remaining bytes and checks nothing (log entry 9;
N9). The last clause is the model's choice too: no container is written where the number of entries does not fit its field
(log entry 17). -/
def Obligations.ContainerRoundTrip : Prop :=
  (∀ c : Container, c.freqs.length < 2 ^ 32 → ∃ bytes, c.write = some bytes ∧ Container.read bytes = some c ∧
    bytes.length = 16 + 5 * c.freqs.length + c.payload.length) ∧
  (∀ c : Container, 2 ^ 32 ≤ c.freqs.length → c.write = none)

/-- R173: a table of `n ≥ 1` entries gives a tree of `n` leaves, in the table's order (R175), and `n − 1` internal
nodes. For a table of more than 256 entries, which R171 excludes, the arena is the model's choice (log entry 16). -/
def Obligations.BuilderNodeCount : Prop :=
  ∀ F : FreqTable, F ≠ [] → ∃ t inner, build F = some t ∧
    t.nodes = (F.map fun p => Node.leaf p.1) ++ inner ∧ inner.length = F.length - 1 ∧
    ∀ n ∈ inner, ∃ l r, n = .inode l r

/-- R105, R109, R175: for a table of distinct byte values the built tree is proper (the root and both children of every
internal node of the arena are defined, and no handle is reached along two paths) and no two leaves of the arena carry the same
symbol. -/
def Obligations.BuiltTreeIsProper : Prop :=
  ∀ F : FreqTable, F ≠ [] → (F.map Prod.fst).Nodup → ∃ t, build F = some t ∧
    ProperTree t.map t.root ∧ OneLeafPerSymbol t.map

/-- R173, R175 to R177: for a table of distinct byte values the reference builder and the code generator give a code
table that agrees with the tree (R109), is prefix-free, and has exactly one code of 1 to 255 bits for each of them. -/
def Obligations.BuilderCodesAgreeWithTree : Prop :=
  ∀ F : FreqTable, F ≠ [] → (F.map Prod.fst).Nodup → ∃ t, build F = some t ∧
    Agree (codeMapOf (codes t.map t.root)) t.map t.root ∧ PrefixFree (codeMapOf (codes t.map t.root)) ∧
    ((codes t.map t.root).map Prod.fst).Perm (F.map Prod.fst) ∧
    ∀ p ∈ codes t.map t.root, 1 ≤ p.2.length ∧ p.2.length ≤ 255

/-- R188: "for all non-empty byte sequences `D`, `decompress(compress(D)) == D`", extended to the empty one by R183;
host software and block together, under the size limit R188 names. -/
def Obligations.CompressDecompressRoundTrip : Prop :=
  ∀ D : List Byte, D.length < 2 ^ 32 → ∃ F, freqTable D = some F ∧
    ((payload (codeMapOf (codesOfFreqs F)) D).length < 2 ^ 32 →
      ∃ container size, compress D = some (container, size) ∧ decompress container = some D)
end

