-- ==== Sys2Proof/Laws/Bits.lean ====
section
/-!
SUPPORT. Bit-strings, bytes and words: `natOfBits` bit by bit, `byte8` and `bits8` as inverses, `pack` byte by byte, and
the one lemma of the bit packer of ENC.PUT.
-/

namespace Sys2Proof

theorem natOfBits_concat (b : Bits) (x : Bool) : natOfBits (b ++ [x]) = 2 * natOfBits b + x.toNat := by
  simp [natOfBits, List.foldl_append]

/-- Bit `i` of the number is the bit of the list counted from its end. -/
theorem natOfBits_testBit (b : Bits) (i : Nat) : (natOfBits b).testBit i = b.reverse.getD i false := by
  induction b using List.reverseRecOn generalizing i with
  | nil => simp [natOfBits]
  | append_singleton b x ih =>
    rw [natOfBits_concat]
    cases i with
    | zero => cases x <;> simp [Nat.testBit_zero]
    | succ i =>
      rw [Nat.testBit_succ]
      have : (2 * natOfBits b + x.toNat) / 2 = natOfBits b := by
        cases x
        · simp
        · simp; omega
      rw [this, ih]
      simp

theorem wordOfBits_getLsbD (b : Bits) (hb : b.length = 32) (i : Nat) (hi : i < 32) :
    (wordOfBits b).getLsbD i = b.getD (31 - i) false := by
  simp only [wordOfBits, BitVec.getLsbD_ofNat, hi, decide_true, Bool.true_and, natOfBits_testBit]
  rw [List.getD_eq_getElem?_getD, List.getD_eq_getElem?_getD, List.getElem?_reverse (by omega)]
  congr 2
  omega

namespace Machine

theorem byte8_getLsbD (b : Bits) (hb : b.length = 8) (i : Nat) (hi : i < 8) :
    (byte8 b).getLsbD i = b.getD (7 - i) false := by
  simp only [byte8, BitVec.getLsbD_ofNat, hi, decide_true, Bool.true_and, natOfBits_testBit]
  rw [List.getD_eq_getElem?_getD, List.getD_eq_getElem?_getD, List.getElem?_reverse (by omega)]
  congr 2
  omega

@[simp] theorem bits8_length (b : Byte) : (bits8 b).length = 8 := by simp [bits8]

theorem bits8_getElem? (b : Byte) (i : Nat) (hi : i < 8) : (bits8 b)[i]? = some (b.getLsbD (7 - i)) := by
  simp [bits8, hi]

theorem byte8_bits8 (b : Byte) : byte8 (bits8 b) = b := by
  apply BitVec.eq_of_getLsbD_eq
  intro i hi
  rw [byte8_getLsbD _ (by simp) _ hi, List.getD_eq_getElem?_getD, bits8_getElem? _ _ (by omega)]
  simp only [Option.getD_some]
  congr 1
  omega

theorem bits8_byte8 (b : Bits) (hb : b.length = 8) : bits8 (byte8 b) = b := by
  apply List.ext_getElem?
  intro i
  by_cases hi : i < 8
  · rw [bits8_getElem? _ _ hi, byte8_getLsbD _ hb _ (by omega), List.getD_eq_getElem?_getD]
    have : 7 - (7 - i) = i := by omega
    rw [this, List.getElem?_eq_getElem (by omega)]
    simp
  · rw [List.getElem?_eq_none (by simp; omega), List.getElem?_eq_none (by omega)]

@[simp] theorem unpack_nil : unpack [] = [] := rfl

theorem unpack_cons (b : Byte) (p : List Byte) : unpack (b :: p) = bits8 b ++ unpack p := by simp [unpack]

theorem unpack_append (p q : List Byte) : unpack (p ++ q) = unpack p ++ unpack q := by simp [unpack]

@[simp] theorem unpack_length (p : List Byte) : (unpack p).length = 8 * p.length := by
  induction p with
  | nil => rfl
  | cons b p ih => rw [unpack_cons, List.length_append, ih]; simp; omega

@[simp] theorem pack_length (b : Bits) : (pack b).length = b.length / 8 := by simp [pack]

theorem pack_of_short (b : Bits) (h : b.length < 8) : pack b = [] := by
  have : b.length / 8 = 0 := by omega
  simp [pack, this]

/-- `pack` takes one byte at a time from the front. -/
theorem pack_append_byte (c b : Bits) (hc : c.length = 8) : pack (c ++ b) = byte8 c :: pack b := by
  unfold pack
  have hl : (c ++ b).length / 8 = b.length / 8 + 1 := by simp [hc]
  rw [hl, List.range_succ_eq_map, List.map_cons, List.map_map]
  congr 1
  · congr 1
    simp [slice, hc]
  · apply List.map_congr_left
    intro k _
    simp only [Function.comp, slice]
    congr 1
    have h1 : 8 * Nat.succ k = c.length + 8 * k := by omega
    have h2 : 8 * Nat.succ k + 8 - 8 * Nat.succ k = 8 * k + 8 - 8 * k := by omega
    rw [h2, h1, List.drop_append, List.drop_eq_nil_of_le (by omega)]
    simp

/-! ### The packer (R123) -/

theorem setAccBit_getLsbD (acc : BitVec 8) (n : BitVec 3) (x : Bool) (i : Nat) (hi : i < 8) :
    (setAccBit acc n x).getLsbD i = if i + n.toNat = 7 then x else acc.getLsbD i := by
  have hn := n.isLt
  have hm : (0x80#8).getLsbD (n.toNat + i) = decide (i + n.toNat = 7) := by
    have h128 : ∀ j, j < 16 → (0x80#8).getLsbD j = decide (j = 7) := by decide
    rw [h128 _ (by omega), Nat.add_comm]
  cases x <;> by_cases h : i + n.toNat = 7 <;> simp_all [setAccBit]

/-- One turn of the loop: the bits emitted and held grow by the bit, the accumulator stays clean. -/
theorem Packer.push_spec (p : Packer) (x : Bool) :
    (p.push x).n.toNat = (p.n.toNat + 1) % 8 ∧
    (p.push x).out.length = p.out.length + (p.n.toNat + 1) / 8 ∧
    (cleanBelow p.acc p.n →
      cleanBelow (p.push x).acc (p.push x).n ∧
      unpack (p.push x).out ++ heldBits (p.push x).acc (p.push x).n = unpack p.out ++ heldBits p.acc p.n ++ [x]) := by
  have hn := p.n.isLt
  unfold Packer.push
  simp only
  split
  · rename_i h
    have h7 : p.n.toNat = 7 := by omega
    refine ⟨by simp [h7], by simp [h7], fun hc => ⟨?_, ?_⟩⟩
    · intro i _; simp
    · rw [unpack_append, unpack_cons]
      simp only [unpack_nil, List.append_nil, List.append_assoc]
      congr 1
      apply List.ext_getElem?
      intro i
      simp only [heldBits, BitVec.toNat_ofNat, Nat.zero_mod, List.range_zero, List.map_nil, List.append_nil, h7]
      by_cases hi : i < 8
      · rw [bits8_getElem? _ _ hi, setAccBit_getLsbD _ _ _ _ (by omega), h7]
        by_cases hi7 : i = 7
        · subst hi7; simp
        · rw [List.getElem?_append_left (by simp; omega)]
          rw [if_neg (by omega)]
          simp [List.getElem?_range (show i < 7 by omega)]
      · rw [List.getElem?_eq_none (by simp; omega), List.getElem?_eq_none (by simp; omega)]
  · rename_i h
    have hn1 : (p.n + 1#3).toNat = p.n.toNat + 1 := by
      rw [BitVec.toNat_add]
      simp
      omega
    refine ⟨by simp only [hn1]; omega, by simp only; omega, fun hc => ⟨?_, ?_⟩⟩
    · intro i hi
      rw [hn1] at hi
      rw [setAccBit_getLsbD _ _ _ _ (by omega)]
      have : ¬ (i + p.n.toNat = 7) := by omega
      simp only [this, if_false]
      exact hc i (by omega)
    · simp only [List.append_assoc]
      congr 1
      simp only [heldBits, hn1, List.range_succ, List.map_append, List.map_cons, List.map_nil]
      congr 1
      · apply List.map_congr_left
        intro j hj
        simp only [List.mem_range] at hj
        rw [setAccBit_getLsbD _ _ _ _ (by omega)]
        have : ¬ (7 - j + p.n.toNat = 7) := by omega
        simp [this]
      · rw [setAccBit_getLsbD _ _ _ _ (by omega)]
        have : 7 - p.n.toNat + p.n.toNat = 7 := by omega
        simp [this]

/-- The whole loop of R123: what it emits and holds is what was emitted and held, with the code appended. -/
theorem Packer.pushAll_spec (p : Packer) (code : Bits) :
    (p.pushAll code).n.toNat = (p.n.toNat + code.length) % 8 ∧
    (p.pushAll code).out.length = p.out.length + (p.n.toNat + code.length) / 8 ∧
    (cleanBelow p.acc p.n →
      cleanBelow (p.pushAll code).acc (p.pushAll code).n ∧
      unpack (p.pushAll code).out ++ heldBits (p.pushAll code).acc (p.pushAll code).n =
        unpack p.out ++ heldBits p.acc p.n ++ code) := by
  induction code generalizing p with
  | nil =>
    have := p.n.isLt
    simp only [Packer.pushAll, List.foldl_nil, List.length_nil, List.append_nil]
    refine ⟨by omega, by omega, fun h => ⟨h, trivial⟩⟩
  | cons x code ih =>
    obtain ⟨h1, h2, h3⟩ := p.push_spec x
    obtain ⟨i1, i2, i3⟩ := ih (p.push x)
    have hp : p.pushAll (x :: code) = (p.push x).pushAll code := rfl
    rw [hp]
    refine ⟨by rw [i1, h1]; simp; omega, by rw [i2, h2, h1]; simp; omega, fun hc => ?_⟩
    obtain ⟨c1, c2⟩ := h3 hc
    obtain ⟨d1, d2⟩ := i3 c1
    exact ⟨d1, by rw [d2, c2]; simp⟩

/-- The emitted bytes, as `pack` of the bits they carry. -/
theorem pack_unpack_append (p : List Byte) (b : Bits) (hb : b.length < 8) : pack (unpack p ++ b) = p := by
  induction p with
  | nil => simpa using pack_of_short b hb
  | cons c p ih => rw [unpack_cons, List.append_assoc, pack_append_byte _ _ (by simp), byte8_bits8, ih]

end Machine

end Sys2Proof
end

