-- ==== Sys2Proof/Laws/Decode.lean ====
section
/-!
SUPPORT. Header words bit by bit, masks as pairs of fields, and the code operand of ENC.LOAD: what the decoder and the
encoder read and write, said once.
-/

namespace Sys2Proof

/-! ### Fields of the header words the encoder writes -/

theorem append_getLsbD {n m w : Nat} (x : BitVec n) (y : BitVec m) (z : BitVec w) (hw : w = n + m)
    (hz : z = (x ++ y).cast hw.symm) (i : Nat) :
    z.getLsbD i = if i < m then y.getLsbD i else x.getLsbD (i - m) := by
  subst hw
  subst hz
  simp [BitVec.getLsbD_append]

theorem headerZ_getLsbD (op : BitVec 4) (i : Nat) :
    (headerZ op).getLsbD i = if i < 28 then false else op.getLsbD (i - 28) := by
  rw [append_getLsbD op (0#28) (headerZ op) rfl rfl i]
  simp

theorem headerS_getLsbD (op : BitVec 4) (sym : Byte) (i : Nat) :
    (headerS op sym).getLsbD i = if i < 8 then sym.getLsbD i else if i < 28 then false else op.getLsbD (i - 28) := by
  rw [append_getLsbD (op ++ 0#20) sym (headerS op sym) rfl rfl i]
  split
  · rfl
  · rw [BitVec.getLsbD_append]
    by_cases h : i < 28
    · rw [if_pos h, if_pos (by omega)]; simp
    · rw [if_neg h, if_neg (by omega)]; congr 1

theorem headerR_getLsbD (op : BitVec 4) (reg : RegNum) (i : Nat) :
    (headerR op reg).getLsbD i = if i < 4 then reg.getLsbD i else if i < 28 then false else op.getLsbD (i - 28) := by
  rw [append_getLsbD (op ++ 0#24) reg (headerR op reg) rfl rfl i]
  split
  · rfl
  · rw [BitVec.getLsbD_append]
    by_cases h : i < 28
    · rw [if_pos h, if_pos (by omega)]; simp
    · rw [if_neg h, if_neg (by omega)]; congr 1

theorem headerL_getLsbD (sym : Byte) (len : LenField) (i : Nat) :
    (headerL sym len).getLsbD i =
      if i < 12 then false else if i < 20 then len.getLsbD (i - 12)
      else if i < 28 then sym.getLsbD (i - 20) else (0x1#4).getLsbD (i - 28) := by
  rw [append_getLsbD (0x1#4 ++ sym ++ len) (0#12) (headerL sym len) rfl rfl i]
  split
  · simp
  · rw [BitVec.getLsbD_append]
    by_cases h : i < 20
    · rw [if_pos h, if_pos (by omega)]
    · rw [if_neg h, if_neg (by omega), BitVec.getLsbD_append]
      by_cases h' : i < 28
      · rw [if_pos h', if_pos (by omega)]; congr 1
      · rw [if_neg h', if_neg (by omega)]; congr 1

theorem headerLeaf_getLsbD (idx : Handle) (sym : Byte) (i : Nat) :
    (headerLeaf idx sym).getLsbD i =
      if i < 8 then sym.getLsbD i else if i < 18 then false else if i < 19 then true
      else if i < 28 then idx.getLsbD (i - 19) else (0x9#4).getLsbD (i - 28) := by
  rw [append_getLsbD (0x9#4 ++ idx ++ 1#1 ++ 0#10) sym (headerLeaf idx sym) rfl rfl i]
  split
  · rfl
  · rw [BitVec.getLsbD_append]
    by_cases h : i < 18
    · rw [if_pos h, if_pos (by omega)]; simp
    · rw [if_neg h, if_neg (by omega), BitVec.getLsbD_append]
      by_cases h' : i < 19
      · rw [if_pos h', if_pos (by omega)]
        have : i - 8 - 10 = 0 := by omega
        rw [this]; rfl
      · rw [if_neg h', if_neg (by omega), BitVec.getLsbD_append]
        by_cases h'' : i < 28
        · rw [if_pos h'', if_pos (by omega)]; congr 1
        · rw [if_neg h'', if_neg (by omega)]; congr 1

theorem headerInode_getLsbD (idx left right : Handle) (i : Nat) :
    (headerInode idx left right).getLsbD i =
      if i < 9 then right.getLsbD i else if i < 18 then left.getLsbD (i - 9) else if i < 19 then false
      else if i < 28 then idx.getLsbD (i - 19) else (0x9#4).getLsbD (i - 28) := by
  rw [append_getLsbD (0x9#4 ++ idx ++ 0#1 ++ left) right (headerInode idx left right) rfl rfl i]
  split
  · rfl
  · rw [BitVec.getLsbD_append]
    by_cases h : i < 18
    · rw [if_pos h, if_pos (by omega)]
    · rw [if_neg h, if_neg (by omega), BitVec.getLsbD_append]
      by_cases h' : i < 19
      · rw [if_pos h', if_pos (by omega)]; simp
      · rw [if_neg h', if_neg (by omega), BitVec.getLsbD_append]
        by_cases h'' : i < 28
        · rw [if_pos h'', if_pos (by omega)]; congr 1
        · rw [if_neg h'', if_neg (by omega)]; congr 1

/-- Two fields are equal when their bits are. -/
theorem extract_eq {n : Nat} (h : Word) (s : Nat) (x : BitVec n)
    (hb : ∀ j, j < n → h.getLsbD (s + j) = x.getLsbD j) : h.extractLsb' s n = x := by
  apply BitVec.eq_of_getLsbD_eq
  intro j hj
  rw [BitVec.getLsbD_extractLsb']
  simp [hj, hb j hj]

theorem opField_headerZ (op : BitVec 4) : opField (headerZ op) = op := extract_eq _ _ _ fun j hj => by
  rw [headerZ_getLsbD, if_neg (by omega)]; congr 1; omega

theorem opField_headerS (op : BitVec 4) (sym : Byte) : opField (headerS op sym) = op := extract_eq _ _ _ fun j hj => by
  rw [headerS_getLsbD, if_neg (by omega), if_neg (by omega)]; congr 1; omega

theorem opField_headerR (op : BitVec 4) (reg : RegNum) : opField (headerR op reg) = op :=
  extract_eq _ _ _ fun j hj => by
    rw [headerR_getLsbD, if_neg (by omega), if_neg (by omega)]; congr 1; omega

theorem opField_headerL (sym : Byte) (len : LenField) : opField (headerL sym len) = 0x1#4 :=
  extract_eq _ _ _ fun j hj => by
    rw [headerL_getLsbD, if_neg (by omega), if_neg (by omega), if_neg (by omega)]; congr 1; omega

theorem opField_headerLeaf (idx : Handle) (sym : Byte) : opField (headerLeaf idx sym) = 0x9#4 :=
  extract_eq _ _ _ fun j hj => by
    rw [headerLeaf_getLsbD, if_neg (by omega), if_neg (by omega), if_neg (by omega), if_neg (by omega)]; congr 1; omega

theorem opField_headerInode (idx left right : Handle) : opField (headerInode idx left right) = 0x9#4 :=
  extract_eq _ _ _ fun j hj => by
    rw [headerInode_getLsbD, if_neg (by omega), if_neg (by omega), if_neg (by omega), if_neg (by omega)]; congr 1; omega

theorem lenField_headerL (sym : Byte) (len : LenField) : lenField (headerL sym len) = len :=
  extract_eq _ _ _ fun j hj => by
    rw [headerL_getLsbD, if_neg (by omega), if_pos (by omega)]; congr 1; omega

/-- The unit of a header word, from its opcode. -/
theorem unitOf_eq (h : Word) : unitOf h = if (opField h).getLsbD 3 then .dec else .enc := by
  unfold unitOf opField
  rw [BitVec.getLsbD_extractLsb']
  rfl

/-! ### Framing -/

theorem extWords_of_other {h : Word} (h1 : opField h ≠ 0x1#4) (h2 : opField h ≠ 0xE#4) : extWords h = 0 := by
  simp [extWords, h1, h2]

/-- `frame` finds the command at the head of a word sequence that holds it whole. -/
theorem frame_append {h : Word} {ext rest : List Word} (hl : ext.length = extWords h) :
    frame (h :: (ext ++ rest)) = some (h, ext, rest) := by
  simp [frame, ← hl]

/-- `frame` takes one header word and the words it announces, and loses none. -/
theorem frame_some {ws ext rest : List Word} {h : Word} (hf : frame ws = some (h, ext, rest)) :
    ws = h :: (ext ++ rest) ∧ ext.length = extWords h := by
  cases ws with
  | nil => cases hf
  | cons w ws =>
    simp only [frame] at hf
    split at hf
    · cases hf
      exact ⟨by simp, by simpa using ‹_›⟩
    · cases hf

/-! ### The code operand of ENC.LOAD -/

theorem codeExt_length (code : Bits) : (codeExt code).length = (code.length + 31) / 32 := by simp [codeExt]

/-- The extension words carry the code and zeros. -/
theorem codeBit_codeExt (code : Bits) (i : Nat) (hi : i < 32 * ((code.length + 31) / 32)) :
    codeBit (codeExt code) i = code.getD i false := by
  unfold codeBit codeExt
  rw [List.getD_eq_getElem?_getD (l := List.map _ _), List.getElem?_map, List.getElem?_range (by omega)]
  simp only [Option.map_some, Option.getD_some]
  rw [wordOfBits_getLsbD _ (by simp) _ (by omega)]
  rw [List.getD_eq_getElem?_getD (l := List.map _ _), List.getElem?_map, List.getElem?_range (by omega)]
  simp only [Option.map_some, Option.getD_some]
  congr 1
  omega

/-! ### Decoding -/

/-- Decoding once the row is known. -/
theorem decode_of_row {h : Word} {ext : List Word} {r : OpRow} (hl : ext.length = extWords h)
    (hs : selectRow h = some r) : decode h ext = decodeRow r.op h ext := by
  simp [decode, hl, hs]

/-! ### Masks as fields -/

/-- A mask that covers exactly two fields selects on those two fields. -/
theorem mask_iff_fields (h m p : Word) (s₁ w₁ s₂ w₂ : Nat)
    (hm : ∀ i, i < 32 → m.getLsbD i = (decide (s₁ ≤ i ∧ i < s₁ + w₁) || decide (s₂ ≤ i ∧ i < s₂ + w₂)))
    (hp : ∀ i, i < 32 → m.getLsbD i = false → p.getLsbD i = false) (hb₁ : s₁ + w₁ ≤ 32) (hb₂ : s₂ + w₂ ≤ 32) :
    h &&& m = p ↔ h.extractLsb' s₁ w₁ = p.extractLsb' s₁ w₁ ∧ h.extractLsb' s₂ w₂ = p.extractLsb' s₂ w₂ := by
  constructor
  · rintro rfl
    constructor <;> apply BitVec.eq_of_getLsbD_eq <;> intro j hj <;>
      simp only [BitVec.getLsbD_extractLsb', hj, decide_true, Bool.true_and, BitVec.getLsbD_and]
    · rw [hm _ (by omega)]; simp [hj]
    · rw [hm _ (by omega)]; simp [hj]
  · rintro ⟨h1, h2⟩
    apply BitVec.eq_of_getLsbD_eq
    intro i hi
    rw [BitVec.getLsbD_and]
    by_cases c1 : s₁ ≤ i ∧ i < s₁ + w₁
    · have := congrArg (fun b => b.getLsbD (i - s₁)) h1
      simp only [BitVec.getLsbD_extractLsb'] at this
      have e : s₁ + (i - s₁) = i := by omega
      have l : i - s₁ < w₁ := by omega
      simp only [e, l, decide_true, Bool.true_and] at this
      rw [this, hm i hi]; simp [c1]
    · by_cases c2 : s₂ ≤ i ∧ i < s₂ + w₂
      · have := congrArg (fun b => b.getLsbD (i - s₂)) h2
        simp only [BitVec.getLsbD_extractLsb'] at this
        have e : s₂ + (i - s₂) = i := by omega
        have l : i - s₂ < w₂ := by omega
        simp only [e, l, decide_true, Bool.true_and] at this
        rw [this, hm i hi]; simp [c2]
      · have hf : m.getLsbD i = false := by rw [hm i hi]; simp [c1, c2]
        rw [hf, hp i hi hf, Bool.and_false]

/-! The rows of R82, each as the fields R77 gives its format. -/

theorem selects_encReset (h : Word) :
    h &&& 0xFFFFFFFF#32 = 0x00000000#32 ↔ opField h = 0x0#4 ∧ h.extractLsb' 0 28 = 0#28 :=
  mask_iff_fields h _ _ 28 4 0 28 (by decide) (by decide) (by decide) (by decide)

theorem selects_encStart (h : Word) :
    h &&& 0xFFFFFFFF#32 = 0x20000000#32 ↔ opField h = 0x2#4 ∧ h.extractLsb' 0 28 = 0#28 :=
  mask_iff_fields h _ _ 28 4 0 28 (by decide) (by decide) (by decide) (by decide)

theorem selects_encFinish (h : Word) :
    h &&& 0xFFFFFFFF#32 = 0x40000000#32 ↔ opField h = 0x4#4 ∧ h.extractLsb' 0 28 = 0#28 :=
  mask_iff_fields h _ _ 28 4 0 28 (by decide) (by decide) (by decide) (by decide)

theorem selects_decReset (h : Word) :
    h &&& 0xFFFFFFFF#32 = 0x80000000#32 ↔ opField h = 0x8#4 ∧ h.extractLsb' 0 28 = 0#28 :=
  mask_iff_fields h _ _ 28 4 0 28 (by decide) (by decide) (by decide) (by decide)

theorem selects_decStart (h : Word) :
    h &&& 0xFFFFFFFF#32 = 0xA0000000#32 ↔ opField h = 0xA#4 ∧ h.extractLsb' 0 28 = 0#28 :=
  mask_iff_fields h _ _ 28 4 0 28 (by decide) (by decide) (by decide) (by decide)

theorem selects_decFinish (h : Word) :
    h &&& 0xFFFFFFFF#32 = 0xC0000000#32 ↔ opField h = 0xC#4 ∧ h.extractLsb' 0 28 = 0#28 :=
  mask_iff_fields h _ _ 28 4 0 28 (by decide) (by decide) (by decide) (by decide)

theorem selects_encPut (h : Word) :
    h &&& 0xFFFFFF00#32 = 0x30000000#32 ↔ opField h = 0x3#4 ∧ h.extractLsb' 8 20 = 0#20 :=
  mask_iff_fields h _ _ 28 4 8 20 (by decide) (by decide) (by decide) (by decide)

theorem selects_decPut (h : Word) :
    h &&& 0xFFFFFF00#32 = 0xB0000000#32 ↔ opField h = 0xB#4 ∧ h.extractLsb' 8 20 = 0#20 :=
  mask_iff_fields h _ _ 28 4 8 20 (by decide) (by decide) (by decide) (by decide)

theorem selects_encRd (h : Word) :
    h &&& 0xFFFFFFF0#32 = 0x50000000#32 ↔ opField h = 0x5#4 ∧ h.extractLsb' 4 24 = 0#24 :=
  mask_iff_fields h _ _ 28 4 4 24 (by decide) (by decide) (by decide) (by decide)

theorem selects_decRd (h : Word) :
    h &&& 0xFFFFFFF0#32 = 0xD0000000#32 ↔ opField h = 0xD#4 ∧ h.extractLsb' 4 24 = 0#24 :=
  mask_iff_fields h _ _ 28 4 4 24 (by decide) (by decide) (by decide) (by decide)

theorem selects_decWr (h : Word) :
    h &&& 0xFFFFFFF0#32 = 0xE0000000#32 ↔ opField h = 0xE#4 ∧ h.extractLsb' 4 24 = 0#24 :=
  mask_iff_fields h _ _ 28 4 4 24 (by decide) (by decide) (by decide) (by decide)

theorem selects_encLoad (h : Word) :
    h &&& 0xF0000FFF#32 = 0x10000000#32 ↔ opField h = 0x1#4 ∧ h.extractLsb' 0 12 = 0#12 :=
  mask_iff_fields h _ _ 28 4 0 12 (by decide) (by decide) (by decide) (by decide)

theorem selects_decLeaf (h : Word) :
    h &&& 0xF007FF00#32 = 0x90040000#32 ↔ opField h = 0x9#4 ∧ h.extractLsb' 8 11 = 1024#11 :=
  mask_iff_fields h _ _ 28 4 8 11 (by decide) (by decide) (by decide) (by decide)

theorem selects_decInode (h : Word) :
    h &&& 0xF0040000#32 = 0x90000000#32 ↔ opField h = 0x9#4 ∧ h.extractLsb' 18 1 = 0#1 :=
  mask_iff_fields h _ _ 28 4 18 1 (by decide) (by decide) (by decide) (by decide)

end Sys2Proof
end

