-- ==== Sys2Proof/Laws/State.lean ====
section
/-!
SUPPORT. The fields of a state after each named update: one lemma per field and update, so that no later proof unfolds
a record update.
-/

namespace Sys2Proof.Machine

@[simp] theorem takeFault_enc_field_enc (c : BitVec 4) (s : State) : (takeFault .enc c s).enc = { s.enc with eSt := .err, eErr := c } := rfl
@[simp] theorem takeFault_enc_field_dec (c : BitVec 4) (s : State) : (takeFault .enc c s).dec = s.dec := rfl
@[simp] theorem takeFault_enc_field_cmd (c : BitVec 4) (s : State) : (takeFault .enc c s).cmd = s.cmd := rfl
@[simp] theorem takeFault_enc_field_encOut (c : BitVec 4) (s : State) : (takeFault .enc c s).encOut = s.encOut := rfl
@[simp] theorem takeFault_enc_field_decOut (c : BitVec 4) (s : State) : (takeFault .enc c s).decOut = s.decOut := rfl
@[simp] theorem takeFault_enc_field_rsp (c : BitVec 4) (s : State) : (takeFault .enc c s).rsp = s.rsp := rfl

@[simp] theorem takeFault_dec_field_enc (c : BitVec 4) (s : State) : (takeFault .dec c s).enc = s.enc := rfl
@[simp] theorem takeFault_dec_field_dec (c : BitVec 4) (s : State) : (takeFault .dec c s).dec = { s.dec with dSt := .err, dErr := c } := rfl
@[simp] theorem takeFault_dec_field_cmd (c : BitVec 4) (s : State) : (takeFault .dec c s).cmd = s.cmd := rfl
@[simp] theorem takeFault_dec_field_encOut (c : BitVec 4) (s : State) : (takeFault .dec c s).encOut = s.encOut := rfl
@[simp] theorem takeFault_dec_field_decOut (c : BitVec 4) (s : State) : (takeFault .dec c s).decOut = s.decOut := rfl
@[simp] theorem takeFault_dec_field_rsp (c : BitVec 4) (s : State) : (takeFault .dec c s).rsp = s.rsp := rfl

@[simp] theorem resetUnit_enc_field_enc (s : State) : (resetUnit .enc s).enc = EncState.reset := rfl
@[simp] theorem resetUnit_enc_field_dec (s : State) : (resetUnit .enc s).dec = s.dec := rfl
@[simp] theorem resetUnit_enc_field_cmd (s : State) : (resetUnit .enc s).cmd = s.cmd := rfl
@[simp] theorem resetUnit_enc_field_encOut (s : State) : (resetUnit .enc s).encOut = s.encOut := rfl
@[simp] theorem resetUnit_enc_field_decOut (s : State) : (resetUnit .enc s).decOut = s.decOut := rfl
@[simp] theorem resetUnit_enc_field_rsp (s : State) : (resetUnit .enc s).rsp = s.rsp := rfl

@[simp] theorem resetUnit_dec_field_enc (s : State) : (resetUnit .dec s).enc = s.enc := rfl
@[simp] theorem resetUnit_dec_field_dec (s : State) : (resetUnit .dec s).dec = DecState.reset := rfl
@[simp] theorem resetUnit_dec_field_cmd (s : State) : (resetUnit .dec s).cmd = s.cmd := rfl
@[simp] theorem resetUnit_dec_field_encOut (s : State) : (resetUnit .dec s).encOut = s.encOut := rfl
@[simp] theorem resetUnit_dec_field_decOut (s : State) : (resetUnit .dec s).decOut = s.decOut := rfl
@[simp] theorem resetUnit_dec_field_rsp (s : State) : (resetUnit .dec s).rsp = s.rsp := rfl

@[simp] theorem emitEnc_field_enc (bs : List Byte) (s : State) : (emitEnc bs s).enc = s.enc := rfl
@[simp] theorem emitEnc_field_dec (bs : List Byte) (s : State) : (emitEnc bs s).dec = s.dec := rfl
@[simp] theorem emitEnc_field_cmd (bs : List Byte) (s : State) : (emitEnc bs s).cmd = s.cmd := rfl
@[simp] theorem emitEnc_field_encOut (bs : List Byte) (s : State) : (emitEnc bs s).encOut = s.encOut ++ bs := rfl
@[simp] theorem emitEnc_field_decOut (bs : List Byte) (s : State) : (emitEnc bs s).decOut = s.decOut := rfl
@[simp] theorem emitEnc_field_rsp (bs : List Byte) (s : State) : (emitEnc bs s).rsp = s.rsp := rfl

@[simp] theorem emitDec_field_enc (bs : List Byte) (s : State) : (emitDec bs s).enc = s.enc := rfl
@[simp] theorem emitDec_field_dec (bs : List Byte) (s : State) : (emitDec bs s).dec = s.dec := rfl
@[simp] theorem emitDec_field_cmd (bs : List Byte) (s : State) : (emitDec bs s).cmd = s.cmd := rfl
@[simp] theorem emitDec_field_encOut (bs : List Byte) (s : State) : (emitDec bs s).encOut = s.encOut := rfl
@[simp] theorem emitDec_field_decOut (bs : List Byte) (s : State) : (emitDec bs s).decOut = s.decOut ++ bs := rfl
@[simp] theorem emitDec_field_rsp (bs : List Byte) (s : State) : (emitDec bs s).rsp = s.rsp := rfl

@[simp] theorem respond_field_enc (v : Word) (s : State) : (respond v s).enc = s.enc := rfl
@[simp] theorem respond_field_dec (v : Word) (s : State) : (respond v s).dec = s.dec := rfl
@[simp] theorem respond_field_cmd (v : Word) (s : State) : (respond v s).cmd = s.cmd := rfl
@[simp] theorem respond_field_encOut (v : Word) (s : State) : (respond v s).encOut = s.encOut := rfl
@[simp] theorem respond_field_decOut (v : Word) (s : State) : (respond v s).decOut = s.decOut := rfl
@[simp] theorem respond_field_rsp (v : Word) (s : State) : (respond v s).rsp = s.rsp ++ [v] := rfl

@[simp] theorem withFetchWord_field_enc (s : State) (nbits w : Nat) : (State.withFetchWord s nbits w).enc = s.enc := rfl
@[simp] theorem withFetchWord_field_dec (s : State) (nbits w : Nat) : (State.withFetchWord s nbits w).dec = s.dec := rfl
@[simp] theorem withFetchWord_field_cmd (s : State) (nbits w : Nat) : (State.withFetchWord s nbits w).cmd = tableWords nbits w ++ s.cmd := rfl
@[simp] theorem withFetchWord_field_encOut (s : State) (nbits w : Nat) : (State.withFetchWord s nbits w).encOut = s.encOut := rfl
@[simp] theorem withFetchWord_field_decOut (s : State) (nbits w : Nat) : (State.withFetchWord s nbits w).decOut = s.decOut := rfl
@[simp] theorem withFetchWord_field_rsp (s : State) (nbits w : Nat) : (State.withFetchWord s nbits w).rsp = s.rsp := rfl

@[simp] theorem runState_enc (s : State) : runState .enc s = s.enc.eSt := rfl
@[simp] theorem runState_dec (s : State) : runState .dec s = s.dec.dSt := rfl

end Sys2Proof.Machine
end

