-- ==== Sys2Proof/Laws/Table.lean ====
section
/-!
SUPPORT. The laws of the table memories: read after write, and the canonical form, which every operation keeps and
which makes equal contents equal lists.
-/

namespace Sys2Proof.Machine

variable {α : Type}

@[simp] theorem Table.read_nil (k : Nat) : Table.read ([] : Table α) k = none := rfl

theorem Table.read_write_same (t : Table α) (k : Nat) (v : α) : (t.write k v).read k = some v := by
  induction t with
  | nil => simp [Table.write, Table.read]
  | cons p rest ih =>
    obtain ⟨a, w⟩ := p
    simp only [Table.write]
    split
    · simp [Table.read]
    · split
      · simp [Table.read]
      · rename_i h
        simp [Table.read, Ne.symm h, ih]

theorem Table.read_write_other (t : Table α) {k j : Nat} (v : α) (h : j ≠ k) : (t.write k v).read j = t.read j := by
  induction t with
  | nil => simp [Table.write, Table.read, h.symm]
  | cons p rest ih =>
    obtain ⟨a, w⟩ := p
    simp only [Table.write]
    split
    · simp [Table.read, h.symm]
    · split
      · rename_i hk
        subst hk
        simp [Table.read, h.symm]
      · simp only [Table.read, ih]

/-- What one read sees of one write. -/
theorem Table.read_write (t : Table α) (k j : Nat) (v : α) :
    (t.write k v).read j = if j = k then some v else t.read j := by
  split
  · rename_i h; subst h; exact t.read_write_same _ v
  · rename_i h; exact t.read_write_other v h

theorem Table.mem_write {t : Table α} {k : Nat} {v : α} {p : Nat × α} (h : p ∈ t.write k v) :
    p = (k, v) ∨ p ∈ t := by
  induction t with
  | nil => simpa [Table.write] using h
  | cons q rest ih =>
    obtain ⟨a, w⟩ := q
    simp only [Table.write] at h
    split at h
    · simpa using h
    · split at h
      · simp only [List.mem_cons] at h ⊢; tauto
      · simp only [List.mem_cons] at h ⊢
        rcases h with h | h
        · tauto
        · rcases ih h with h | h <;> tauto

/-- Writing an entry keeps the canonical form. -/
theorem Table.wf_write {size : Nat} {t : Table α} (h : t.wf size) {k : Nat} (hk : k < size) (v : α) :
    (t.write k v).wf size := by
  constructor
  · obtain ⟨h, -⟩ := h
    induction t with
    | nil => simp [Table.write]
    | cons q rest ih =>
      obtain ⟨a, w⟩ := q
      simp only [List.map_cons, List.pairwise_cons] at h
      simp only [Table.write]
      split
      · rename_i hka
        simp only [List.map_cons, List.pairwise_cons, List.mem_cons]
        refine ⟨?_, h⟩
        rintro b (rfl | hb)
        · exact hka
        · exact lt_trans hka (h.1 b hb)
      · split
        · rename_i hka; subst hka
          simpa using h
        · rename_i h1 h2
          simp only [List.map_cons, List.pairwise_cons]
          refine ⟨?_, ih h.2⟩
          intro b hb
          obtain ⟨p, hp, rfl⟩ := List.mem_map.1 hb
          rcases Table.mem_write hp with rfl | hp
          · simp only; omega
          · exact h.1 _ (List.mem_map_of_mem hp)
  · intro b hb
    obtain ⟨p, hp, rfl⟩ := List.mem_map.1 hb
    rcases Table.mem_write hp with rfl | hp
    · exact hk
    · exact h.2 _ (List.mem_map_of_mem hp)

@[simp] theorem Table.wf_nil (size : Nat) : Table.wf size ([] : Table α) := by simp [Table.wf]

theorem Table.mem_of_read {t : Table α} {k : Nat} {v : α} (h : t.read k = some v) : (k, v) ∈ t := by
  induction t with
  | nil => simp at h
  | cons q rest ih =>
    obtain ⟨a, w⟩ := q
    simp only [Table.read] at h
    split at h
    · rename_i ha; subst ha; cases h; simp
    · exact List.mem_cons_of_mem _ (ih h)

theorem Table.read_eq_none_of_lt {t : Table α} {k : Nat} (h : ∀ b ∈ t.map Prod.fst, k < b) : t.read k = none := by
  cases hr : t.read k with
  | none => rfl
  | some v =>
    have := h k (List.mem_map_of_mem (Table.mem_of_read hr))
    omega

/-- Canonical tables with equal contents are equal: the form is one form. -/
theorem Table.ext_of_read {t u : Table α} (ht : (t.map Prod.fst).Pairwise (· < ·))
    (hu : (u.map Prod.fst).Pairwise (· < ·)) (h : ∀ k, t.read k = u.read k) : t = u := by
  induction t generalizing u with
  | nil =>
    cases u with
    | nil => rfl
    | cons q u => have := h q.1; simp [Table.read] at this
  | cons p t ih =>
    obtain ⟨a, v⟩ := p
    cases u with
    | nil => have := h a; simp [Table.read] at this
    | cons q u =>
      obtain ⟨b, w⟩ := q
      simp only [List.map_cons, List.pairwise_cons] at ht hu
      have hab : a = b := by
        by_contra hne
        rcases Nat.lt_or_gt_of_ne hne with hlt | hlt
        · have h1 := h a
          have : Table.read ((b, w) :: u) a = none :=
            Table.read_eq_none_of_lt (by
              intro c hc
              simp only [List.map_cons, List.mem_cons] at hc
              rcases hc with rfl | hc
              · exact hlt
              · exact lt_trans hlt (hu.1 c hc))
          rw [this] at h1
          simp [Table.read] at h1
        · have h1 := h b
          have : Table.read ((a, v) :: t) b = none :=
            Table.read_eq_none_of_lt (by
              intro c hc
              simp only [List.map_cons, List.mem_cons] at hc
              rcases hc with rfl | hc
              · exact hlt
              · exact lt_trans hlt (ht.1 c hc))
          rw [this] at h1
          simp [Table.read] at h1
      subst hab
      have hvw : v = w := by have := h a; simpa [Table.read] using this
      subst hvw
      congr 1
      refine ih ht.2 hu.2 fun k => ?_
      by_cases hk : a = k
      · subst hk
        rw [Table.read_eq_none_of_lt ht.1, Table.read_eq_none_of_lt hu.1]
      · have := h k
        simpa [Table.read, hk] using this

/-- `CT[s]` after a write of `CT[s']`. -/
theorem EncState.code_write (e : EncState) (s s' : Byte) (c : Bits) :
    ({ e with ct := e.ct.write s'.toNat c } : EncState).code s = if s = s' then some c else e.code s := by
  simp only [EncState.code, Table.read_write, BitVec.toNat_inj]

/-- `TREE[h]` after a write of `TREE[h']`. -/
theorem DecState.node_write (d : DecState) (h h' : Handle) (n : Node) :
    ({ d with tree := d.tree.write h'.toNat n } : DecState).node h = if h = h' then some n else d.node h := by
  simp only [DecState.node, Table.read_write, BitVec.toNat_inj]

/-- Both table memories are canonical after reset. -/
theorem reset_tables_wf :
    EncState.reset.ct.wf Config.nSym ∧ DecState.reset.tree.wf Config.nNodes := by
  constructor <;> exact Table.wf_nil _

end Sys2Proof.Machine
end

