-- ==== Sys2Proof/Laws/Ops.lean ====
section
/-!
SUPPORT. What each shared operation can do, said once: the gate of a command, the packer, the walk step.
-/

namespace Sys2Proof.Machine

/-! ### The gate -/

/-- Everything an ENC command can do: it is ignored, or faults, or has its own effect. -/
theorem encCommand_cases {s t : State} {body : Except EncCause (EncState × List Byte)}
    (h : encCommand s body = .next t) :
    (s.enc.eSt = .err ∧ t = s) ∨
    (s.enc.eSt ≠ .err ∧ ∃ c, body = .error c ∧ t = takeFault .enc c.code s) ∨
    (s.enc.eSt ≠ .err ∧ ∃ e bs, body = .ok (e, bs) ∧ t = emitEnc bs { s with enc := e }) := by
  unfold encCommand at h
  split at h
  · rename_i he
    cases h
    exact .inl ⟨he, rfl⟩
  · rename_i he
    split at h
    · cases h
      exact .inr (.inl ⟨he, _, rfl, rfl⟩)
    · cases h
      exact .inr (.inr ⟨he, _, _, rfl, rfl⟩)

/-- Everything a DEC command can do. -/
theorem decCommand_cases {s t : State} {body : Except DecCause (DecState × List Byte)}
    (h : decCommand s body = .next t) :
    (s.dec.dSt = .err ∧ t = s) ∨
    (s.dec.dSt ≠ .err ∧ ∃ c, body = .error c ∧ t = takeFault .dec c.code s) ∨
    (s.dec.dSt ≠ .err ∧ ∃ d bs, body = .ok (d, bs) ∧ t = emitDec bs { s with dec := d }) := by
  unfold decCommand at h
  split at h
  · rename_i he
    cases h
    exact .inl ⟨he, rfl⟩
  · rename_i he
    split at h
    · cases h
      exact .inr (.inl ⟨he, _, rfl, rfl⟩)
    · cases h
      exact .inr (.inr ⟨he, _, _, rfl, rfl⟩)

/-- The gate in `ERR`. -/
theorem encCommand_err {s : State} (h : s.enc.eSt = .err) (body) : encCommand s body = .next s := by
  simp [encCommand, h]

theorem decCommand_err {s : State} (h : s.dec.dSt = .err) (body) : decCommand s body = .next s := by
  simp [decCommand, h]

/-- The gate outside `ERR`, for a body that faults. -/
theorem encCommand_error {s : State} (h : s.enc.eSt ≠ .err) (c : EncCause) :
    encCommand s (.error c) = .next (takeFault .enc c.code s) := by
  simp [encCommand, h]

theorem decCommand_error {s : State} (h : s.dec.dSt ≠ .err) (c : DecCause) :
    decCommand s (.error c) = .next (takeFault .dec c.code s) := by
  simp [decCommand, h]

/-- The gate outside `ERR`, for a body with an effect. -/
theorem encCommand_ok {s : State} (h : s.enc.eSt ≠ .err) (e : EncState) (bs : List Byte) :
    encCommand s (.ok (e, bs)) = .next { s with enc := e, encOut := s.encOut ++ bs } := by
  simp [encCommand, h, emitEnc]

theorem decCommand_ok {s : State} (h : s.dec.dSt ≠ .err) (d : DecState) (bs : List Byte) :
    decCommand s (.ok (d, bs)) = .next { s with dec := d, decOut := s.decOut ++ bs } := by
  simp [decCommand, h, emitDec]

/-- The gate always answers a next state. -/
theorem encCommand_total (s : State) (body) : ∃ t, encCommand s body = .next t := by
  unfold encCommand; split
  · exact ⟨_, rfl⟩
  · split <;> exact ⟨_, rfl⟩

theorem decCommand_total (s : State) (body) : ∃ t, decCommand s body = .next t := by
  unfold decCommand; split
  · exact ⟨_, rfl⟩
  · split <;> exact ⟨_, rfl⟩

/-! ### Bodies: what each changes when it succeeds -/

theorem loadBody_ok {sym : Byte} {code : Bits} {e e' : EncState} {bs : List Byte}
    (h : loadBody sym code e = .ok (e', bs)) :
    e.eSt = .cfg ∧ 1 ≤ code.length ∧ e' = { e with ct := e.ct.write sym.toNat code } ∧ bs = [] := by
  unfold loadBody at h
  split at h
  · cases h
  · split at h
    · cases h
    · cases h
      exact ⟨by simp_all, by omega, rfl, rfl⟩

theorem encStartBody_ok {e e' : EncState} {bs : List Byte} (h : encStartBody e = .ok (e', bs)) :
    e.eSt = .cfg ∧ e' = { e with eSt := .run } ∧ bs = [] := by
  unfold encStartBody at h
  split at h
  · cases h
  · cases h
    exact ⟨by simp_all, rfl, rfl⟩

theorem encPutBody_ok {sym : Byte} {e e' : EncState} {bs : List Byte} (h : encPutBody sym e = .ok (e', bs)) :
    ∃ code, e.eSt = .run ∧ e.code sym = some code ∧ e.eOrig.toNat ≠ Config.countMax ∧
      e.ePayload.toNat + (e.eNacc.toNat + code.length) / 8 ≤ Config.countMax ∧
      e' = { e with eAcc := (Packer.pushAll ⟨e.eAcc, e.eNacc, []⟩ code).acc,
                    eNacc := (Packer.pushAll ⟨e.eAcc, e.eNacc, []⟩ code).n,
                    ePayload := e.ePayload + BitVec.ofNat 32 ((e.eNacc.toNat + code.length) / 8),
                    eOrig := e.eOrig + 1#32 } ∧
      bs = (Packer.pushAll ⟨e.eAcc, e.eNacc, []⟩ code).out := by
  unfold encPutBody at h
  split at h
  · cases h
  · split at h
    · cases h
    · rename_i code hc
      split at h
      · cases h
      · simp only at h
        split at h
        · cases h
        · cases h
          exact ⟨code, by simp_all, hc, ‹_›, by omega, rfl, rfl⟩

theorem encFinishBody_ok {e e' : EncState} {bs : List Byte} (h : encFinishBody e = .ok (e', bs)) :
    e.eSt = .run ∧
    ((e.eNacc.toNat = 0 ∧ e' = { e with ePad := 0#3, eSt := .done } ∧ bs = []) ∨
     (e.eNacc.toNat ≠ 0 ∧ e.ePayload.toNat ≠ Config.countMax ∧
       e' = { e with ePad := BitVec.ofNat 3 (8 - e.eNacc.toNat), ePayload := e.ePayload + 1#32, eAcc := 0x00#8,
                     eNacc := 0#3, eSt := .done } ∧ bs = [e.eAcc])) := by
  unfold encFinishBody at h
  split at h
  · cases h
  · split at h
    · cases h
      exact ⟨by simp_all, .inl ⟨‹_›, rfl, rfl⟩⟩
    · split at h
      · cases h
      · cases h
        exact ⟨by simp_all, .inr ⟨‹_›, ‹_›, rfl, rfl⟩⟩

theorem nodeBody_ok {idx : Handle} {n : Node} {d d' : DecState} {bs : List Byte}
    (h : nodeBody idx n d = .ok (d', bs)) :
    d.dSt = .cfg ∧ d' = { d with tree := d.tree.write idx.toNat n } ∧ bs = [] := by
  unfold nodeBody at h
  split at h
  · cases h
  · cases h
    exact ⟨by simp_all, rfl, rfl⟩

theorem decStartBody_ok {d d' : DecState} {bs : List Byte} (h : decStartBody d = .ok (d', bs)) :
    d.dSt = .cfg ∧ d.dPad.toNat ≤ Config.padMax ∧ ¬ (d.dPayload.toNat = 0 ∧ d.dPad.toNat ≠ 0) ∧
      d' = { d with dCur := d.dRoot, dDesc := false, dSt := .run } ∧ bs = [] := by
  unfold decStartBody at h
  split at h
  · cases h
  · split at h
    · cases h
    · split at h
      · cases h
      · cases h
        exact ⟨by simp_all, by omega, ‹_›, rfl, rfl⟩

theorem decPutBody_ok {byte : Byte} {d d' : DecState} {bs : List Byte} (h : decPutBody byte d = .ok (d', bs)) :
    d.dSt = .run ∧ d.dBytes ≠ d.dPayload ∧ ∃ w, decWalk ((bits8 byte).take (liveBits d)) d = .ok (w, bs) ∧
      d' = { w with dBytes := w.dBytes + 1#32 } := by
  unfold decPutBody at h
  split at h
  · cases h
  · split at h
    · cases h
    · split at h
      · cases h
      · cases h
        exact ⟨by simp_all, ‹_›, _, ‹_›, rfl⟩

theorem decFinishBody_ok {d d' : DecState} {bs : List Byte} (h : decFinishBody d = .ok (d', bs)) :
    d.dSt = .run ∧ d.dBytes = d.dPayload ∧ d.dDesc = false ∧ d.dOut = d.dOrig ∧
      d' = { d with dSt := .done } ∧ bs = [] := by
  unfold decFinishBody at h
  split at h
  · cases h
  · split at h
    · cases h
    · split at h
      · cases h
      · split at h
        · cases h
        · cases h
          refine ⟨by simp_all, by simp_all, by simp_all, by simp_all, rfl, rfl⟩

theorem decWriteReg_some {reg : RegNum} {value : Word} {d d' : DecState} (h : decWriteReg reg value d = some d') :
    (reg.toNat = 1 ∧ d' = { d with dOrig := value }) ∨ (reg.toNat = 2 ∧ d' = { d with dPayload := value }) ∨
    (reg.toNat = 3 ∧ d' = { d with dPad := value }) ∨
    (reg.toNat = 4 ∧ value.toNat ≤ 511 ∧ d' = { d with dRoot := value.extractLsb' 0 9 }) := by
  unfold decWriteReg at h
  split at h
  · cases h; exact .inl ⟨‹_›, rfl⟩
  · cases h; exact .inr (.inl ⟨‹_›, rfl⟩)
  · cases h; exact .inr (.inr (.inl ⟨‹_›, rfl⟩))
  · split at h
    · cases h; exact .inr (.inr (.inr ⟨‹_›, ‹_›, rfl⟩))
    · cases h
  · cases h

theorem decWrBody_ok {reg : RegNum} {value : Word} {d d' : DecState} {bs : List Byte}
    (h : decWrBody reg value d = .ok (d', bs)) :
    d.dSt = .cfg ∧ decWriteReg reg value d = some d' ∧ bs = [] := by
  unfold decWrBody at h
  split at h
  · cases h
  · split at h
    · cases h
    · cases h
      exact ⟨by simp_all, ‹_›, rfl⟩

/-- A register exists exactly below number 4 in ENC, below 8 in DEC. -/
theorem encReadReg_isSome (reg : RegNum) (e : EncState) : (encReadReg reg e).isSome = decide (reg.toNat ≤ 3) := by
  unfold encReadReg
  split <;> simp_all
  have := reg.isLt
  omega

theorem decReadReg_isSome (reg : RegNum) (d : DecState) : (decReadReg reg d).isSome = decide (reg.toNat ≤ 7) := by
  unfold decReadReg
  split <;> simp_all
  have := reg.isLt
  omega

/-! ### The walk step -/

/-- What one walk step changes: the position, `D_OUT` by the symbols emitted, and nothing else. -/
theorem decBit_ok {x : Bool} {d d' : DecState} {bs : List Byte} (h : decBit x d = .ok (d', bs)) :
    (∃ sym, d.node d.dCur = some (.leaf sym) ∧ x = false ∧ d.dOut ≠ d.dOrig ∧
      d' = { d with dOut := d.dOut + 1#32 } ∧ bs = [sym]) ∨
    (∃ l r sym, d.node d.dCur = some (.inode l r) ∧ d.node (if x then r else l) = some (.leaf sym) ∧
      d.dOut ≠ d.dOrig ∧ d' = { d with dOut := d.dOut + 1#32, dCur := d.dRoot, dDesc := false } ∧ bs = [sym]) ∨
    (∃ l r l' r', d.node d.dCur = some (.inode l r) ∧ d.node (if x then r else l) = some (.inode l' r') ∧
      d' = { d with dCur := if x then r else l, dDesc := true } ∧ bs = []) := by
  unfold decBit decEmit at h
  split at h
  · cases h
  · rename_i sym hn
    split at h
    · cases h
    · split at h
      · cases h
      · cases h
        exact .inl ⟨sym, hn, by simp_all, ‹_›, rfl, rfl⟩
  · rename_i l r hn
    simp only at h
    split at h
    · cases h
    · rename_i sym hc
      by_cases ho : d.dOut = d.dOrig
      · simp [ho] at h
      · simp only [ho, if_false] at h
        cases h
        exact .inr (.inl ⟨l, r, sym, hn, hc, ho, rfl, rfl⟩)
    · rename_i l' r' hc
      cases h
      exact .inr (.inr ⟨l, r, l', r', hn, hc, rfl, rfl⟩)

/-- What a walk over several bits leaves alone. -/
theorem decWalk_ok {bits : Bits} {d d' : DecState} {bs : List Byte} (h : decWalk bits d = .ok (d', bs)) :
    d' = { d with dCur := d'.dCur, dDesc := d'.dDesc, dOut := d.dOut + BitVec.ofNat 32 bs.length } ∧
      bs.length ≤ bits.length := by
  induction bits generalizing d d' bs with
  | nil => cases h; simp
  | cons x xs ih =>
    simp only [decWalk] at h
    split at h
    · cases h
    · rename_i d1 b1 h1
      split at h
      · cases h
      · rename_i d2 b2 h2
        cases h
        obtain ⟨e2, l2⟩ := ih h2
        rcases decBit_ok h1 with ⟨s, -, -, -, rfl, rfl⟩ | ⟨_, _, s, -, -, -, rfl, rfl⟩ | ⟨_, _, _, _, -, -, rfl, rfl⟩ <;>
        · constructor
          · rw [e2]
            simp [BitVec.ofNat_add, add_comm, add_left_comm]
          · simp; omega

end Sys2Proof.Machine
end

