-- ==== Sys2Proof/Laws/Exec.lean ====
section
/-!
SUPPORT. What a command can do to the whole state, said once for `exec`, and when it answers a next state.
-/

namespace Sys2Proof.Machine

/-- Everything an ENC command can make of a state. -/
inductive EncEffect (s : State) : State → Prop
  /-- Ignored in `ERR` (R206). -/
  | ignored (h : s.enc.eSt = .err) : EncEffect s s
  /-- A fault (R204). -/
  | fault (c : EncCause) (h : s.enc.eSt ≠ .err) : EncEffect s (takeFault .enc c.code s)
  /-- Its own effect: a new unit state and the bytes emitted. -/
  | own (e : EncState) (bs : List Byte) (h : s.enc.eSt ≠ .err) : EncEffect s (emitEnc bs { s with enc := e })
  /-- `ENC.RESET` (R120). -/
  | reset : EncEffect s (resetUnit .enc s)
  /-- `ENC.RD` (R126). -/
  | read (v : Word) : EncEffect s (respond v s)

/-- Everything a DEC command can make of a state. -/
inductive DecEffect (s : State) : State → Prop
  /-- Ignored in `ERR` (R206). -/
  | ignored (h : s.dec.dSt = .err) : DecEffect s s
  /-- A fault (R204). -/
  | fault (c : DecCause) (h : s.dec.dSt ≠ .err) : DecEffect s (takeFault .dec c.code s)
  /-- Its own effect: a new unit state and the symbols emitted. -/
  | own (d : DecState) (bs : List Byte) (h : s.dec.dSt ≠ .err) : DecEffect s (emitDec bs { s with dec := d })
  /-- `DEC.RESET` (R140). -/
  | reset : DecEffect s (resetUnit .dec s)
  /-- `DEC.RD` (R149). -/
  | read (v : Word) : DecEffect s (respond v s)

theorem encCommand_effect {s t : State} {body : Except EncCause (EncState × List Byte)}
    (h : encCommand s body = .next t) : EncEffect s t := by
  rcases encCommand_cases h with ⟨he, rfl⟩ | ⟨he, c, -, rfl⟩ | ⟨he, e, bs, -, rfl⟩
  · exact .ignored he
  · exact .fault c he
  · exact .own e bs he

theorem decCommand_effect {s t : State} {body : Except DecCause (DecState × List Byte)}
    (h : decCommand s body = .next t) : DecEffect s t := by
  rcases decCommand_cases h with ⟨he, rfl⟩ | ⟨he, c, -, rfl⟩ | ⟨he, d, bs, -, rfl⟩
  · exact .ignored he
  · exact .fault c he
  · exact .own d bs he

/-- An illegal command is one of the two. -/
theorem execIllegal_effect {u : HbcUnit} {s t : State} (h : execIllegal u s = .next t) :
    (u = .enc ∧ EncEffect s t) ∨ (u = .dec ∧ DecEffect s t) := by
  cases u
  · exact .inl ⟨rfl, encCommand_effect (body := .error .illegal) h⟩
  · exact .inr ⟨rfl, decCommand_effect (body := .error .illegal) h⟩

theorem execIllegal_total (u : HbcUnit) (s : State) : ∃ t, execIllegal u s = .next t := by
  cases u
  · exact encCommand_total s (.error .illegal)
  · exact decCommand_total s (.error .illegal)

/-- Every command that answers a next state has one of these effects, by the unit it names. -/
theorem exec_effect {i : Instr} {s t : State} (h : exec i s = .next t) :
    (i.unit = .enc ∧ EncEffect s t) ∨ (i.unit = .dec ∧ DecEffect s t) := by
  cases i with
  | encReset => cases h; exact .inl ⟨rfl, .reset⟩
  | encLoad sym code =>
    simp only [exec, execEncLoad] at h
    split at h
    · cases h
    · exact .inl ⟨rfl, encCommand_effect h⟩
  | encStart => exact .inl ⟨rfl, encCommand_effect h⟩
  | encPut sym => exact .inl ⟨rfl, encCommand_effect h⟩
  | encFinish => exact .inl ⟨rfl, encCommand_effect h⟩
  | encRd reg =>
    simp only [exec, execEncRd] at h
    split at h
    · cases h; exact .inl ⟨rfl, .read _⟩
    · exact .inl ⟨rfl, encCommand_effect (body := .error .illegal) h⟩
  | decReset => cases h; exact .inr ⟨rfl, .reset⟩
  | decLeaf idx sym => exact .inr ⟨rfl, decCommand_effect h⟩
  | decInode idx l r => exact .inr ⟨rfl, decCommand_effect h⟩
  | decStart => exact .inr ⟨rfl, decCommand_effect h⟩
  | decPut byte => exact .inr ⟨rfl, decCommand_effect h⟩
  | decFinish => exact .inr ⟨rfl, decCommand_effect h⟩
  | decRd reg =>
    simp only [exec, execDecRd] at h
    split at h
    · cases h; exact .inr ⟨rfl, .read _⟩
    · exact .inr ⟨rfl, decCommand_effect (body := .error .illegal) h⟩
  | decWr reg value => exact .inr ⟨rfl, decCommand_effect h⟩

/-- A well-formed command always answers a next state. -/
theorem exec_total (i : Instr) (s : State) (hw : i.wf = true) : ∃ t, exec i s = .next t := by
  cases i with
  | encReset => exact ⟨_, rfl⟩
  | encLoad sym code =>
    simp only [exec, execEncLoad]
    rw [if_neg (by simpa [Instr.wf] using hw)]
    exact encCommand_total _ _
  | encStart => exact encCommand_total _ _
  | encPut sym => exact encCommand_total _ _
  | encFinish => exact encCommand_total _ _
  | encRd reg =>
    simp only [exec, execEncRd]
    split
    · exact ⟨_, rfl⟩
    · exact execIllegal_total _ _
  | decReset => exact ⟨_, rfl⟩
  | decLeaf idx sym => exact decCommand_total _ _
  | decInode idx l r => exact decCommand_total _ _
  | decStart => exact decCommand_total _ _
  | decPut byte => exact decCommand_total _ _
  | decFinish => exact decCommand_total _ _
  | decRd reg =>
    simp only [exec, execDecRd]
    split
    · exact ⟨_, rfl⟩
    · exact execIllegal_total _ _
  | decWr reg value => exact decCommand_total _ _

end Sys2Proof.Machine
end

