-- ==== Sys2Proof/Laws/Commands.lean ====
section
/-!
SUPPORT. The form of every command in one lemma: a reset, a legal read, or the gate of its unit around the body of the
command. With it, what the bodies of a unit have in common.
-/

namespace Sys2Proof.Machine

/-- The body an ENC command puts behind the gate; the illegal command for every other. -/
def encBody : Instr → EncState → Except EncCause (EncState × List Byte)
  | .encLoad sym code, e => loadBody sym code e
  | .encStart, e => encStartBody e
  | .encPut s, e => encPutBody s e
  | .encFinish, e => encFinishBody e
  | _, _ => .error .illegal

/-- The body a DEC command puts behind the gate; the illegal command for every other. -/
def decBody : Instr → DecState → Except DecCause (DecState × List Byte)
  | .decLeaf i s, d => nodeBody i (.leaf s) d
  | .decInode i l r, d => nodeBody i (.inode l r) d
  | .decStart, d => decStartBody d
  | .decPut s, d => decPutBody s d
  | .decFinish, d => decFinishBody d
  | .decWr r v, d => decWrBody r v d
  | _, _ => .error .illegal

/-- `isReset`, decided. -/
def isResetB : Instr → Bool
  | .encReset => true
  | .decReset => true
  | _ => false

theorem isResetB_iff (i : Instr) : isResetB i = true ↔ isReset i := by cases i <;> simp [isResetB, isReset]

/-- Everything `exec` can do: reset, legal read, or the gate around the body. The second half of each case says that
the command does the same in every state with the same unit state. -/
theorem exec_shape {i : Instr} {s t : State} (h : exec i s = .next t) :
    (i = .encReset ∧ t = resetUnit .enc s) ∨ (i = .decReset ∧ t = resetUnit .dec s) ∨
    (isLegalRead i = true ∧ isResetB i = false ∧ ∃ v, t = respond v s ∧
      ((i.unit = .enc ∧ ∀ s', s'.enc = s.enc → exec i s' = .next (respond v s')) ∨
       (i.unit = .dec ∧ ∀ s', s'.dec = s.dec → exec i s' = .next (respond v s')))) ∨
    (isLegalRead i = false ∧ isResetB i = false ∧ i.unit = .enc ∧ encCommand s (encBody i s.enc) = .next t ∧
      ∀ s', s'.enc = s.enc → exec i s' = encCommand s' (encBody i s.enc)) ∨
    (isLegalRead i = false ∧ isResetB i = false ∧ i.unit = .dec ∧ decCommand s (decBody i s.dec) = .next t ∧
      ∀ s', s'.dec = s.dec → exec i s' = decCommand s' (decBody i s.dec)) := by
  cases i with
  | encReset => cases h; exact .inl ⟨rfl, rfl⟩
  | decReset => cases h; exact .inr (.inl ⟨rfl, rfl⟩)
  | encLoad sym code =>
    simp only [exec, execEncLoad] at h
    split at h
    · cases h
    · rename_i hl
      refine .inr (.inr (.inr (.inl ⟨rfl, rfl, rfl, h, fun s' e => ?_⟩)))
      simp only [exec, execEncLoad, hl, if_false, e]; rfl
  | encStart => exact .inr (.inr (.inr (.inl ⟨rfl, rfl, rfl, h, fun s' e => by simp only [exec, execEncStart, e]; rfl⟩)))
  | encPut sym => exact .inr (.inr (.inr (.inl ⟨rfl, rfl, rfl, h, fun s' e => by simp only [exec, execEncPut, e]; rfl⟩)))
  | encFinish => exact .inr (.inr (.inr (.inl ⟨rfl, rfl, rfl, h, fun s' e => by simp only [exec, execEncFinish, e]; rfl⟩)))
  | encRd reg =>
    have hs := encReadReg_isSome reg s.enc
    simp only [exec, execEncRd] at h
    split at h
    · rename_i v hv; cases h
      rw [hv] at hs
      exact .inr (.inr (.inl ⟨hs.symm, rfl, v, rfl, .inl ⟨rfl, fun s' e => by simp [exec, execEncRd, e, hv]⟩⟩))
    · rename_i hv; rw [hv] at hs
      exact .inr (.inr (.inr (.inl ⟨hs.symm, rfl, rfl, h, fun s' e => by simp only [exec, execEncRd, e, hv]; rfl⟩)))
  | decLeaf a b => exact .inr (.inr (.inr (.inr ⟨rfl, rfl, rfl, h, fun s' e => by simp only [exec, execDecLeaf, e]; rfl⟩)))
  | decInode a b c => exact .inr (.inr (.inr (.inr ⟨rfl, rfl, rfl, h, fun s' e => by simp only [exec, execDecInode, e]; rfl⟩)))
  | decStart => exact .inr (.inr (.inr (.inr ⟨rfl, rfl, rfl, h, fun s' e => by simp only [exec, execDecStart, e]; rfl⟩)))
  | decPut b => exact .inr (.inr (.inr (.inr ⟨rfl, rfl, rfl, h, fun s' e => by simp only [exec, execDecPut, e]; rfl⟩)))
  | decFinish => exact .inr (.inr (.inr (.inr ⟨rfl, rfl, rfl, h, fun s' e => by simp only [exec, execDecFinish, e]; rfl⟩)))
  | decWr a b => exact .inr (.inr (.inr (.inr ⟨rfl, rfl, rfl, h, fun s' e => by simp only [exec, execDecWr, e]; rfl⟩)))
  | decRd reg =>
    have hs := decReadReg_isSome reg s.dec
    simp only [exec, execDecRd] at h
    split at h
    · rename_i v hv; cases h
      rw [hv] at hs
      exact .inr (.inr (.inl ⟨hs.symm, rfl, v, rfl, .inr ⟨rfl, fun s' e => by simp [exec, execDecRd, e, hv]⟩⟩))
    · rename_i hv; rw [hv] at hs
      exact .inr (.inr (.inr (.inr ⟨hs.symm, rfl, rfl, h, fun s' e => by simp only [exec, execDecRd, e, hv]; rfl⟩)))

/-- What an ENC body that succeeds says of the run state, the cause and the code table. -/
theorem encBody_st {i : Instr} {e e' : EncState} {bs : List Byte} (h : encBody i e = .ok (e', bs)) :
    acceptedIn i e.eSt = true ∧ e'.eErr = e.eErr ∧ (∀ reg, i ≠ .encRd reg) ∧
    (e'.eSt = (match i with | .encStart => .run | .encFinish => .done | _ => e.eSt)) ∧
    ((∀ s c, i ≠ .encLoad s c) → e'.ct = e.ct) := by
  cases i <;> simp only [encBody, reduceCtorEq] at h
  · obtain ⟨a, -, rfl, -⟩ := loadBody_ok h; simp [acceptedIn, a]
  · obtain ⟨a, rfl, -⟩ := encStartBody_ok h; simp [acceptedIn, a]
  · obtain ⟨c, a, -, -, -, rfl, -⟩ := encPutBody_ok h; simp [acceptedIn, a]
  · obtain ⟨a, ⟨-, rfl, -⟩ | ⟨-, -, rfl, -⟩⟩ := encFinishBody_ok h <;> simp [acceptedIn, a]

/-- What a walk leaves alone, field by field. -/
theorem decWalk_frame {b : Bits} {d d' : DecState} {bs : List Byte} (h : decWalk b d = .ok (d', bs)) :
    d'.dSt = d.dSt ∧ d'.dErr = d.dErr ∧ d'.tree = d.tree ∧ d'.dRoot = d.dRoot ∧ d'.dOrig = d.dOrig ∧
      d'.dPayload = d.dPayload ∧ d'.dPad = d.dPad ∧ d'.dBytes = d.dBytes := by
  have := (decWalk_ok h).1
  have a1 := congrArg DecState.dSt this
  have a2 := congrArg DecState.dErr this
  have a3 := congrArg DecState.tree this
  have a4 := congrArg DecState.dRoot this
  have a5 := congrArg DecState.dOrig this
  have a6 := congrArg DecState.dPayload this
  have a7 := congrArg DecState.dPad this
  have a8 := congrArg DecState.dBytes this
  exact ⟨a1, a2, a3, a4, a5, a6, a7, a8⟩

/-- What a DEC body that succeeds says of the run state, the cause, the tree and the configuration registers. -/
theorem decBody_st {i : Instr} {d d' : DecState} {bs : List Byte} (h : decBody i d = .ok (d', bs)) :
    acceptedIn i d.dSt = true ∧ d'.dErr = d.dErr ∧ (∀ reg, i ≠ .decRd reg) ∧
    (d'.dSt = (match i with | .decStart => .run | .decFinish => .done | _ => d.dSt)) ∧
    (((∀ h b, i ≠ .decLeaf h b) ∧ (∀ h l r, i ≠ .decInode h l r) ∧ ∀ r v, i ≠ .decWr r v) →
      d'.tree = d.tree ∧ d'.dRoot = d.dRoot ∧ d'.dOrig = d.dOrig ∧ d'.dPayload = d.dPayload ∧ d'.dPad = d.dPad) := by
  cases i with
  | encReset => exact nomatch h
  | encLoad => exact nomatch h
  | encStart => exact nomatch h
  | encPut => exact nomatch h
  | encFinish => exact nomatch h
  | encRd => exact nomatch h
  | decReset => exact nomatch h
  | decLeaf => obtain ⟨a, rfl, -⟩ := nodeBody_ok h; simp [acceptedIn, a]
  | decInode => obtain ⟨a, rfl, -⟩ := nodeBody_ok h; simp [acceptedIn, a]
  | decStart => obtain ⟨a, -, -, rfl, -⟩ := decStartBody_ok h; simp [acceptedIn, a]
  | decPut =>
    obtain ⟨a, -, w, hw, rfl⟩ := decPutBody_ok h
    have := decWalk_frame hw; simp [acceptedIn, a, this]
  | decFinish => obtain ⟨a, -, -, -, rfl, -⟩ := decFinishBody_ok h; simp [acceptedIn, a]
  | decRd => exact nomatch h
  | decWr =>
    obtain ⟨a, hw, -⟩ := decWrBody_ok h
    rcases decWriteReg_some hw with ⟨-, rfl⟩ | ⟨-, rfl⟩ | ⟨-, rfl⟩ | ⟨-, -, rfl⟩ <;> simp [acceptedIn, a]

theorem encCommand_cmd (s : State) (c : List Word) (body) : encCommand { s with cmd := c } body =
    match encCommand s body with | .next t => .next { t with cmd := c } | o => o := by
  unfold encCommand; split
  · rfl
  · split <;> rfl

theorem decCommand_cmd (s : State) (c : List Word) (body) : decCommand { s with cmd := c } body =
    match decCommand s body with | .next t => .next { t with cmd := c } | o => o := by
  unfold decCommand; split
  · rfl
  · split <;> rfl

/-- The words waiting in `CMD` play no part in what a command does. -/
theorem exec_cmd (i : Instr) (s : State) (c : List Word) : exec i { s with cmd := c } =
    match exec i s with | .next t => .next { t with cmd := c } | o => o := by
  cases i with
  | encReset => rfl
  | encLoad sym code => simp only [exec, execEncLoad]; split; rfl; exact encCommand_cmd _ _ _
  | encStart => exact encCommand_cmd _ _ _
  | encPut sym => exact encCommand_cmd _ _ _
  | encFinish => exact encCommand_cmd _ _ _
  | encRd reg => simp only [exec, execEncRd]; split; rfl; exact encCommand_cmd _ _ (.error .illegal)
  | decReset => rfl
  | decLeaf idx sym => exact decCommand_cmd _ _ _
  | decInode idx l r => exact decCommand_cmd _ _ _
  | decStart => exact decCommand_cmd _ _ _
  | decPut byte => exact decCommand_cmd _ _ _
  | decFinish => exact decCommand_cmd _ _ _
  | decRd reg => simp only [exec, execDecRd]; split; rfl; exact decCommand_cmd _ _ (.error .illegal)
  | decWr reg v => exact decCommand_cmd _ _ _

end Sys2Proof.Machine
end

