-- ==== Sys2Proof/Laws/Walk.lean ====
section
/-!
SUPPORT. The walk on the registers against the reference functions of R106 and R107, its count, and runs of commands.
-/

namespace Sys2Proof.Machine

/-- One walk step moves `D_OUT` by the symbols it emits and keeps it below the limit. -/
theorem decBit_le {x : Bool} {d d' : DecState} {bs : List Byte} (hle : d.dOut.toNat ≤ d.dOrig.toNat)
    (h : decBit x d = .ok (d', bs)) :
    d'.dOut.toNat = d.dOut.toNat + bs.length ∧ d'.dOut.toNat ≤ d'.dOrig.toNat ∧ d'.dOrig = d.dOrig := by
  have := d.dOrig.isLt
  have key : d.dOut ≠ d.dOrig → (d.dOut + 1#32).toNat = d.dOut.toNat + 1 ∧ d.dOut.toNat + 1 ≤ d.dOrig.toNat := by
    intro hn
    have : d.dOut.toNat ≠ d.dOrig.toNat := fun h => hn (BitVec.eq_of_toNat_eq h)
    rw [BitVec.toNat_add]; simp; omega
  rcases decBit_ok h with ⟨s, -, -, a, rfl, rfl⟩ | ⟨_, _, s, -, -, a, rfl, rfl⟩ | ⟨_, _, _, _, -, -, rfl, rfl⟩
  · obtain ⟨k1, k2⟩ := key a; simp only [List.length_singleton]; exact ⟨k1, by omega, trivial⟩
  · obtain ⟨k1, k2⟩ := key a; simp only [List.length_singleton]; exact ⟨k1, by omega, trivial⟩
  · exact ⟨rfl, hle, rfl⟩

/-- So does a walk. -/
theorem decWalk_le {b : Bits} {d d' : DecState} {bs : List Byte} (hle : d.dOut.toNat ≤ d.dOrig.toNat)
    (h : decWalk b d = .ok (d', bs)) :
    d'.dOut.toNat = d.dOut.toNat + bs.length ∧ d'.dOut.toNat ≤ d'.dOrig.toNat ∧ d'.dOrig = d.dOrig := by
  induction b generalizing d d' bs with
  | nil => cases h; simp [hle]
  | cons x xs ih =>
    simp only [decWalk] at h
    split at h
    · cases h
    · rename_i d1 b1 h1
      split at h
      · cases h
      · rename_i d2 b2 h2
        cases h
        obtain ⟨x1, x2, x3⟩ := decBit_le hle h1
        obtain ⟨y1, y2, y3⟩ := ih x2 h2
        refine ⟨by rw [y1, x1]; simp; omega, y2, by rw [y3, x3]⟩

/-- The loop of `decode` over two bit-strings, one after the other. -/
theorem decodeLoop_append (Tr : TreeMap) (r : Handle) (N : Nat) (a b : Bits) (pos : WalkPos) (out : List Byte) :
    decodeLoop Tr r N (a ++ b) pos out =
      match decodeLoop Tr r N a pos out with | .error c => .error c | .ok (p, o) => decodeLoop Tr r N b p o := by
  induction a generalizing pos out with
  | nil => simp [decodeLoop]
  | cons x a ih =>
    simp only [List.cons_append, decodeLoop]
    split
    · rfl
    · exact ih _ _
    · split
      · rfl
      · exact ih _ _

/-- A walk that stands on a leaf stands at the root: what holds of every position in `RUN` (R43 (d)). -/
def DecState.leafAtRoot (d : DecState) : Prop :=
  ∀ sym, d.node d.dCur = some (.leaf sym) → d.dCur = d.dRoot ∧ d.dDesc = false

/-- The walk on the registers is the loop of R107, from the registers' position, with `D_OUT` symbols already out. -/
theorem decWalk_decodeLoop (bits : Bits) : ∀ (d : DecState) (before : List Byte), before.length = d.dOut.toNat →
    d.dOut.toNat ≤ d.dOrig.toNat → d.leafAtRoot →
    (∀ c, decodeLoop d.node d.dRoot d.dOrig.toNat bits ⟨d.dCur, d.dDesc⟩ before = .error c →
      decWalk bits d = .error c) ∧
    (∀ pos out, decodeLoop d.node d.dRoot d.dOrig.toNat bits ⟨d.dCur, d.dDesc⟩ before = .ok (pos, out) →
      ∃ d' bs, decWalk bits d = .ok (d', bs) ∧ out = before ++ bs ∧ d'.dCur = pos.cur ∧ d'.dDesc = pos.desc ∧
        d'.leafAtRoot) := by
  induction bits with
  | nil =>
    intro d before hb hle hlp
    refine ⟨fun c h => by simp [decodeLoop] at h, fun pos out h => ?_⟩
    simp only [decodeLoop, Except.ok.injEq, Prod.mk.injEq] at h
    obtain ⟨rfl, rfl⟩ := h
    exact ⟨d, [], rfl, by simp, rfl, rfl, hlp⟩
  | cons x xs ih =>
    intro d before hb hle hlp
    have key : d.dOut.toNat ≠ d.dOrig.toNat → (d.dOut + 1#32).toNat = d.dOut.toNat + 1 ∧ d.dOut.toNat + 1 ≤ d.dOrig.toNat := by
      intro hn
      have := d.dOrig.isLt
      rw [BitVec.toNat_add]; simp; omega
    have hO : d.dOut = d.dOrig ↔ before.length = d.dOrig.toNat := by
      rw [hb]; exact ⟨fun h => by rw [h], BitVec.eq_of_toNat_eq⟩
    cases hn : d.node d.dCur with
    | none =>
      simp only [decodeLoop, walk, hn, decWalk, decBit]
      exact ⟨fun c h => by cases h; rfl, fun p o h => by cases h⟩
    | some n =>
      cases n with
      | leaf sym =>
        obtain ⟨p1, p2⟩ := hlp sym hn
        cases x with
        | true =>
          simp only [decodeLoop, walk, hn, decWalk, decBit, if_true]
          exact ⟨fun c h => by cases h; rfl, fun p o h => by cases h⟩
        | false =>
          by_cases ho : d.dOut = d.dOrig
          · simp only [decodeLoop, walk, hn, decWalk, decBit, decEmit, if_pos (hO.1 ho), if_pos ho]
            exact ⟨fun c h => by cases h; rfl, fun p o h => by cases h⟩
          · have hno : before.length ≠ d.dOrig.toNat := fun h => ho (hO.2 h)
            obtain ⟨k1, k2⟩ := key (by rw [← hb]; exact hno)
            have hd := ih { d with dOut := d.dOut + 1#32 } (before ++ [sym])
              (by show _ = (d.dOut + 1#32).toNat; rw [k1]; simp [hb]) (by show (d.dOut + 1#32).toNat ≤ _; rw [k1]; exact k2) hlp
            have e0 : (⟨({ d with dOut := d.dOut + 1#32 } : DecState).dCur, ({ d with dOut := d.dOut + 1#32 } : DecState).dDesc⟩ :
                WalkPos) = ⟨d.dRoot, false⟩ := by show (⟨d.dCur, d.dDesc⟩ : WalkPos) = _; rw [p1, p2]
            simp only [decodeLoop, walk, hn, decWalk, decBit, decEmit, if_neg hno, if_neg ho]
            simp only [Bool.false_eq_true, if_false]
            refine ⟨fun c h => ?_, fun p o h => ?_⟩
            · have := hd.1 c (by rw [e0]; exact h)
              rw [this]
            · obtain ⟨d', bs, h1, h2, h3, h4, h5⟩ := hd.2 p o (by rw [e0]; exact h)
              rw [h1]
              exact ⟨d', sym :: bs, rfl, by simp [h2], h3, h4, h5⟩
      | inode l rt =>
        cases hc : d.node (if x then rt else l) with
        | none =>
          simp only [decodeLoop, walk, hn, decWalk, decBit, hc]
          exact ⟨fun c h => by cases h; rfl, fun p o h => by cases h⟩
        | some m =>
          cases m with
          | leaf sym =>
            by_cases ho : d.dOut = d.dOrig
            · simp only [decodeLoop, walk, hn, hc, decWalk, decBit, decEmit, if_pos (hO.1 ho), if_pos ho]
              exact ⟨fun c h => by cases h; rfl, fun p o h => by cases h⟩
            · have hno : before.length ≠ d.dOrig.toNat := fun h => ho (hO.2 h)
              obtain ⟨k1, k2⟩ := key (by rw [← hb]; exact hno)
              have hd := ih { d with dOut := d.dOut + 1#32, dCur := d.dRoot, dDesc := false } (before ++ [sym])
                (by show _ = (d.dOut + 1#32).toNat; rw [k1]; simp [hb]) (by show (d.dOut + 1#32).toNat ≤ _; rw [k1]; exact k2) (fun _ _ => ⟨rfl, rfl⟩)
              simp only [decodeLoop, walk, hn, hc, decWalk, decBit, decEmit, if_neg hno, if_neg ho]
              refine ⟨fun c h => ?_, fun p o h => ?_⟩
              · have := hd.1 c h
                rw [this]
              · obtain ⟨d', bs, h1, h2, h3, h4, h5⟩ := hd.2 p o h
                rw [h1]
                exact ⟨d', sym :: bs, rfl, by simp [h2], h3, h4, h5⟩
          | inode a b =>
            have hd := ih { d with dCur := if x then rt else l, dDesc := true } before hb hle (fun sym h => by
              have h : d.node (if x then rt else l) = some (.leaf sym) := h
              rw [hc] at h; cases h)
            simp only [decodeLoop, walk, hn, hc, decWalk, decBit]
            refine ⟨fun c h => ?_, fun p o h => ?_⟩
            · have := hd.1 c h
              rw [this]
            · obtain ⟨d', bs, h1, h2, h3, h4, h5⟩ := hd.2 p o h
              rw [h1]
              exact ⟨d', bs, rfl, by simp [h2], h3, h4, h5⟩

/-- A run of commands, one part after the other. -/
theorem runCommands_append (a b : List Instr) (s t : State) (h : runCommands a s = .next t) :
    runCommands (a ++ b) s = runCommands b t := by
  induction a generalizing s with
  | nil => cases h; rfl
  | cons i a ih =>
    simp only [List.cons_append, runCommands] at h ⊢
    split at h
    · exact ih _ h
    · cases h
    · cases h

theorem runCommands_cons {i : Instr} {is : List Instr} {s t : State} (h : exec i s = .next t) :
    runCommands (i :: is) s = runCommands is t := by
  simp [runCommands, h]

end Sys2Proof.Machine
end

