-- ==== Sys2Proof/Laws/Builder.lean ====
section
/-!
SUPPORT. The reference builder and the code generator against trees as a type of their own: what the loop keeps, the
tree a built arena holds, the codes as its paths.
-/

namespace Sys2Proof.Machine

/-- A binary tree with symbols at its leaves: what a part of the arena stands for. -/
inductive HuffTree where
  | leaf (sym : Byte)
  | node (left right : HuffTree)

/-- The symbols of the leaves, left to right. -/
def HuffTree.leaves : HuffTree → List Byte
  | .leaf s => [s]
  | .node a b => a.leaves ++ b.leaves

/-- The symbol and the path of each leaf, left to right. -/
def HuffTree.paths : HuffTree → List (Byte × Bits)
  | .leaf s => [(s, [])]
  | .node a b =>
    (a.paths.map fun p => (p.1, false :: p.2)) ++ (b.paths.map fun p => (p.1, true :: p.2))

/-- The length of the longest path. -/
def HuffTree.depth : HuffTree → Nat
  | .leaf _ => 0
  | .node a b => max a.depth b.depth + 1

theorem HuffTree.paths_keys (t : HuffTree) : t.paths.map Prod.fst = t.leaves := by
  induction t with
  | leaf s => rfl
  | node a b iha ihb => simp [paths, leaves, ← iha, ← ihb, Function.comp_def]

theorem HuffTree.depth_lt (t : HuffTree) : t.depth < t.leaves.length := by
  induction t with
  | leaf s => simp [depth, leaves]
  | node a b iha ihb => simp only [depth, leaves, List.length_append]; omega

theorem HuffTree.path_le_depth (t : HuffTree) : ∀ p ∈ t.paths, p.2.length ≤ t.depth := by
  induction t with
  | leaf s => simp [paths, depth]
  | node a b iha ihb =>
    intro p hp
    simp only [paths, List.mem_append, List.mem_map] at hp
    rcases hp with ⟨q, hq, rfl⟩ | ⟨q, hq, rfl⟩
    · have := iha q hq; simp only [depth, List.length_cons]; omega
    · have := ihb q hq; simp only [depth, List.length_cons]; omega

/-- The arena holds the tree at the handle. -/
inductive Holds (N : List Node) : Nat → HuffTree → Prop
  | leaf {h : Nat} {s : Byte} (e : N[h]? = some (.leaf s)) : Holds N h (.leaf s)
  | node {h : Nat} {l r : Handle} {a b : HuffTree} (e : N[h]? = some (.inode l r)) (ha : Holds N l.toNat a)
      (hb : Holds N r.toNat b) : Holds N h (.node a b)

theorem Holds.append {N : List Node} {h : Nat} {t : HuffTree} (H : Holds N h t) (M : List Node) :
    Holds (N ++ M) h t := by
  induction H with
  | leaf e => exact .leaf (by rw [List.getElem?_append_left (List.getElem?_eq_some_iff.1 e).1]; exact e)
  | node e _ _ iha ihb =>
    exact .node (by rw [List.getElem?_append_left (List.getElem?_eq_some_iff.1 e).1]; exact e) iha ihb

theorem Holds.lt {N : List Node} {h : Nat} {t : HuffTree} (H : Holds N h t) : h < N.length := by
  cases H with
  | leaf e => exact (List.getElem?_eq_some_iff.1 e).1
  | node e _ _ => exact (List.getElem?_eq_some_iff.1 e).1

/-- The priority structure with the tree each of its handles stands for. -/
theorem queueInsert_trees (p : Nat × Nat) (t : HuffTree) (l : List ((Nat × Nat) × HuffTree)) :
    ∃ l' : List ((Nat × Nat) × HuffTree), l'.map Prod.fst = queueInsert p (l.map Prod.fst) ∧ l'.Perm ((p, t) :: l) := by
  induction l with
  | nil => exact ⟨[(p, t)], rfl, .refl _⟩
  | cons x l ih =>
    simp only [List.map_cons, queueInsert]
    split
    · exact ⟨(p, t) :: x :: l, rfl, .refl _⟩
    · obtain ⟨l', h1, h2⟩ := ih
      exact ⟨x :: l', by simp [h1], (h2.cons x).trans (.swap _ _ _)⟩

theorem foldr_queueInsert_trees (l : List ((Nat × Nat) × HuffTree)) :
    ∃ l' : List ((Nat × Nat) × HuffTree), l'.map Prod.fst = (l.map Prod.fst).foldr queueInsert [] ∧ l'.Perm l := by
  induction l with
  | nil => exact ⟨[], rfl, .refl _⟩
  | cons x l ih =>
    obtain ⟨l', h1, h2⟩ := ih
    obtain ⟨l'', h3, h4⟩ := queueInsert_trees x.1 x.2 l'
    exact ⟨l'', by simp [h3, h1], h4.trans (h2.cons x)⟩

/-- What the loop of the builder keeps: every handle in the priority structure stands for a tree of the arena, and the
trees have the symbols of the frequency table at their leaves. -/
theorem mergeLoop_trees (syms : List Byte) (fuel : Nat) :
    ∀ (nodes : List Node) (l : List ((Nat × Nat) × HuffTree)), l ≠ [] → l.length ≤ fuel →
      nodes.length + l.length ≤ 512 → (∀ x ∈ l, Holds nodes x.1.2 x.2) →
      (l.flatMap fun x => x.2.leaves).Perm syms →
      ∃ nodes' root t, mergeLoop fuel nodes (l.map Prod.fst) = (nodes', [root]) ∧ Holds nodes' root.2 t ∧
        t.leaves.Perm syms ∧ nodes'.length + 1 = nodes.length + l.length := by
  induction fuel with
  | zero => intro nodes l h1 h2; exact absurd (List.length_eq_zero_iff.1 (by omega)) h1
  | succ fuel ih =>
    intro nodes l h1 h2 h3 h4 h5
    match l with
    | [] => exact absurd rfl h1
    | [x] =>
      refine ⟨nodes, x.1, x.2, by simp [mergeLoop], h4 x (by simp), by simpa using h5, by simp⟩
    | x :: y :: l =>
      simp only [List.length_cons] at h2 h3
      have hx := h4 x (by simp)
      have hy := h4 y (by simp)
      have lx := hx.lt
      have ly := hy.lt
      obtain ⟨l', e1, e2⟩ := queueInsert_trees (x.1.1 + y.1.1, nodes.length) (.node x.2 y.2) l
      have hlen : l'.length = l.length + 1 := by rw [e2.length_eq]; simp
      obtain ⟨nodes', root, t, f1, f2, f3, f4⟩ := ih (nodes ++ [.inode (BitVec.ofNat 9 x.1.2) (BitVec.ofNat 9 y.1.2)]) l'
        (by intro h; rw [h] at hlen; simp at hlen) (by omega) (by simp; omega)
        (by
          intro z hz
          rcases List.mem_cons.1 (e2.subset hz) with rfl | hz
          · refine .node (l := BitVec.ofNat 9 x.1.2) (r := BitVec.ofNat 9 y.1.2) (by simp) ?_ ?_
            · have : (BitVec.ofNat 9 x.1.2).toNat = x.1.2 := by simp; omega
              rw [this]; exact hx.append _
            · have : (BitVec.ofNat 9 y.1.2).toNat = y.1.2 := by simp; omega
              rw [this]; exact hy.append _
          · exact (h4 z (by simp [hz])).append _)
        (by
          refine (e2.flatMap_right _).trans ?_
          simpa [HuffTree.leaves] using h5)
      refine ⟨nodes', root, t, ?_, f2, f3, by simp at f4 ⊢; omega⟩
      simp only [List.map_cons, mergeLoop]
      rw [← e1]
      exact f1

theorem queueInsert_perm (p : Nat × Nat) (q : List (Nat × Nat)) : (queueInsert p q).Perm (p :: q) := by
  induction q with
  | nil => exact .refl _
  | cons x q ih =>
    simp only [queueInsert]
    split
    · exact .refl _
    · exact (ih.cons x).trans (.swap _ _ _)

theorem foldr_queueInsert_perm (l : List (Nat × Nat)) : (l.foldr queueInsert []).Perm l := by
  induction l with
  | nil => exact .refl _
  | cons x l ih => exact (queueInsert_perm x _).trans (ih.cons x)

/-- What the loop of the builder does to the arena: it adds internal nodes at the end, and the children of each are nodes
of the arena. -/
theorem mergeLoop_arena (fuel : Nat) : ∀ (nodes : List Node) (q : List (Nat × Nat)),
    nodes.length + q.length ≤ 512 → (∀ p ∈ q, p.2 < nodes.length) →
    ∃ inner, (mergeLoop fuel nodes q).1 = nodes ++ inner ∧ ∀ n ∈ inner, ∃ l r : Handle,
      n = .inode l r ∧ l.toNat < (nodes ++ inner).length ∧ r.toNat < (nodes ++ inner).length := by
  induction fuel with
  | zero => intro nodes q _ _; exact ⟨[], by simp [mergeLoop], by simp⟩
  | succ fuel ih =>
    intro nodes q hlen hq
    match q with
    | [] => exact ⟨[], by simp [mergeLoop], by simp⟩
    | [x] => exact ⟨[], by simp [mergeLoop], by simp⟩
    | x :: y :: q =>
      have hx := hq x (by simp)
      have hy := hq y (by simp)
      have hp := queueInsert_perm (x.1 + y.1, nodes.length) q
      simp only [List.length_cons] at hlen
      obtain ⟨inner, h1, h2⟩ := ih (nodes ++ [.inode (BitVec.ofNat 9 x.2) (BitVec.ofNat 9 y.2)])
        (queueInsert (x.1 + y.1, nodes.length) q) (by rw [hp.length_eq]; simp; omega)
        (by
          intro p hpq
          rcases List.mem_cons.1 (hp.subset hpq) with rfl | hpq
          · simp
          · have := hq p (by simp [hpq]); simp; omega)
      refine ⟨.inode (BitVec.ofNat 9 x.2) (BitVec.ofNat 9 y.2) :: inner, by simp [mergeLoop, h1], ?_⟩
      intro n hn
      rcases List.mem_cons.1 hn with rfl | hn
      · exact ⟨_, _, rfl, by simp; omega, by simp; omega⟩
      · simpa using h2 n hn

/-- R105, R173, R175: the arena of the reference builder is the leaves of the table and then internal nodes whose children
are nodes of the arena. -/
theorem build_arena (F : FreqTable) (hn : F.length ≤ 256) (T : BuiltTree) (hb : build F = some T) :
    ∃ inner, T.nodes = (F.map fun p => .leaf p.1) ++ inner ∧ ∀ n ∈ inner, ∃ l r : Handle,
      n = .inode l r ∧ l.toNat < T.nodes.length ∧ r.toNat < T.nodes.length := by
  have hq := foldr_queueInsert_perm (F.mapIdx fun i p => (p.2.toNat, i))
  obtain ⟨inner, h1, h2⟩ := mergeLoop_arena F.length (F.map fun p => .leaf p.1)
    ((F.mapIdx fun i p => (p.2.toNat, i)).foldr queueInsert []) (by rw [hq.length_eq]; simp; omega)
    (by
      intro p hp
      obtain ⟨i, hi, rfl⟩ := List.mem_mapIdx.1 (hq.subset hp)
      simpa using hi)
  unfold build at hb
  split at hb
  · rename_i nodes root rest hm
    cases hb
    rw [hm] at h1
    exact ⟨inner, h1, by rw [show nodes = _ from h1]; exact h2⟩
  · cases hb

/-- R173, R175: the reference builder gives a tree whose leaves carry the symbols of the table. -/
theorem build_holds (F : FreqTable) (hF : F ≠ []) (hn : F.length ≤ 256) :
    ∃ T t, build F = some T ∧ Holds T.nodes T.root.toNat t ∧ t.leaves.Perm (F.map Prod.fst) ∧
      T.nodes.length + 1 = 2 * F.length := by
  have hm : (F.mapIdx fun i p => (((p.2.toNat, i), HuffTree.leaf p.1) : (Nat × Nat) × HuffTree)).map Prod.fst =
      F.mapIdx fun i p => (p.2.toNat, i) := by
    apply List.ext_getElem <;> simp
  obtain ⟨l, e1, e2⟩ := foldr_queueInsert_trees (F.mapIdx fun i p => ((p.2.toNat, i), .leaf p.1))
  rw [hm] at e1
  have hlen : l.length = F.length := by rw [e2.length_eq]; simp
  obtain ⟨nodes', root, t, f1, f2, f3, f4⟩ := mergeLoop_trees (F.map Prod.fst) F.length (F.map fun p => .leaf p.1) l
    (by intro h; rw [h] at hlen; exact hF (List.length_eq_zero_iff.1 hlen.symm)) (by omega) (by simp; omega)
    (by
      intro x hx
      obtain ⟨i, hi, rfl⟩ := List.mem_mapIdx.1 (e2.subset hx)
      exact .leaf (by simp [hi]))
    (by
      refine (e2.flatMap_right _).trans (List.Perm.of_eq ?_)
      have h1 : (F.mapIdx fun i p => (((p.2.toNat, i), HuffTree.leaf p.1) : (Nat × Nat) × HuffTree)).map
          (fun x => x.2.leaves) = F.map fun p => [p.1] := by
        apply List.ext_getElem <;> simp [HuffTree.leaves]
      rw [List.flatMap_def, h1, ← List.flatMap_def]
      exact List.flatMap_pure_eq_map Prod.fst F)
  have hr := f2.lt
  refine ⟨⟨nodes', BitVec.ofNat 9 root.2⟩, t, ?_, ?_, f3, ?_⟩
  · unfold build; rw [← e1, f1]
  · have : (BitVec.ofNat 9 root.2 : Handle).toNat = root.2 := by simp at f4 ⊢; omega
    show Holds nodes' (BitVec.ofNat 9 root.2 : Handle).toNat t
    rw [this]; exact f2
  · simp at f4 ⊢; omega

/-- R177: the descent records the paths. -/
theorem codesFrom_eq (T : BuiltTree) (fuel : Nat) : ∀ (h : Handle) (t : HuffTree) (path : Bits),
    Holds T.nodes h.toNat t → t.depth < fuel →
    codesFrom T.map fuel h path = t.paths.map fun p => (p.1, path ++ p.2) := by
  induction fuel with
  | zero => intro h t path _ hd; omega
  | succ fuel ih =>
    intro h t path H hd
    cases H with
    | leaf e =>
      have e' : T.map h = _ := e
      simp [codesFrom, e', HuffTree.paths]
    | node e ha hb =>
      have e' : T.map h = _ := e
      simp only [HuffTree.depth] at hd
      simp only [codesFrom, e']
      rw [ih _ _ _ ha (by omega), ih _ _ _ hb (by omega)]
      simp [HuffTree.paths, Function.comp_def]

/-- Following a path to a leaf finds exactly the paths of the tree. -/
theorem follow_iff (T : BuiltTree) (s : Byte) (c : Bits) : ∀ (h : Handle) (t : HuffTree), Holds T.nodes h.toNat t →
    ((∃ k, follow T.map h c = some k ∧ T.map k = some (.leaf s)) ↔ (s, c) ∈ t.paths) := by
  induction c with
  | nil =>
    intro h t H
    cases H with
    | leaf e =>
      have e' : T.map h = _ := e
      simp [follow, e', HuffTree.paths, eq_comm]
    | node e ha hb =>
      have e' : T.map h = _ := e
      simp [follow, e', HuffTree.paths]
  | cons x c ih =>
    intro h t H
    cases H with
    | leaf e =>
      have e' : T.map h = _ := e
      simp [follow, e', HuffTree.paths]
    | node e ha hb =>
      have e' : T.map h = _ := e
      cases x
      · simp [follow, e', HuffTree.paths, ih _ _ ha]
      · simp [follow, e', HuffTree.paths, ih _ _ hb]

/-- With distinct symbols the map of a list of codes is the list. -/
theorem codeMapOf_eq_some {cs : List (Byte × Bits)} (hn : (cs.map Prod.fst).Nodup) (s : Byte) (c : Bits) :
    codeMapOf cs s = some c ↔ (s, c) ∈ cs := by
  unfold codeMapOf
  constructor
  · intro h
    obtain ⟨p, hp, rfl⟩ := Option.map_eq_some_iff.1 h
    have h1 := List.find?_some hp
    have h2 := List.mem_of_find?_eq_some hp
    simp only [beq_iff_eq] at h1
    subst h1
    exact List.mem_reverse.1 h2
  · intro h
    cases hf : cs.reverse.find? fun p => p.1 == s with
    | none =>
      have := List.find?_eq_none.1 hf (s, c) (List.mem_reverse.2 h)
      simp at this
    | some p =>
      have h1 := List.find?_some hf
      have h2 := List.mem_reverse.1 (List.mem_of_find?_eq_some hf)
      simp only [beq_iff_eq] at h1
      have : p = (s, c) := by
        have := List.inj_on_of_nodup_map hn h2 h h1
        exact this
      simp [this]

end Sys2Proof.Machine
end

