-- ==== Sys2Proof/Laws/PerInstr.lean ====
section
/-!
SUPPORT. One law about every command as syntax: how many words encode it (R74, the column "extension words" of R82) and
which unit its header word names (R73).
-/

namespace Sys2Proof.Laws.EncodeShape

/-- R82: the number of words of a command. -/
def wordCount : Instr → Nat
  | .encReset => 1
  | .encLoad _ code => 1 + (code.length + 31) / 32
  | .encStart => 1
  | .encPut _ => 1
  | .encFinish => 1
  | .encRd _ => 1
  | .decReset => 1
  | .decLeaf _ _ => 1
  | .decInode _ _ _ => 1
  | .decStart => 1
  | .decPut _ => 1
  | .decFinish => 1
  | .decRd _ => 1
  | .decWr _ _ => 2

/-- The encoding has that many words, and its header word names the unit. -/
def Statement (i : Instr) : Prop :=
  (encode i).length = wordCount i ∧ (encode i).head?.map unitOf = some i.unit

theorem encReset : Statement .encReset := ⟨rfl, rfl⟩

theorem encLoad (sym : Byte) (code : Bits) : Statement (.encLoad sym code) := by
  refine ⟨by simp [encode, wordCount, codeExt_length, Nat.add_comm], ?_⟩
  show some (unitOf (headerL sym _)) = some .enc
  rw [unitOf_eq, opField_headerL]; rfl

theorem encStart : Statement .encStart := ⟨rfl, rfl⟩

theorem encPut (sym : Byte) : Statement (.encPut sym) := by
  refine ⟨rfl, ?_⟩
  show some (unitOf (headerS _ sym)) = some .enc
  rw [unitOf_eq, opField_headerS]; rfl

theorem encFinish : Statement .encFinish := ⟨rfl, rfl⟩

theorem encRd (reg : RegNum) : Statement (.encRd reg) := by
  refine ⟨rfl, ?_⟩
  show some (unitOf (headerR _ reg)) = some .enc
  rw [unitOf_eq, opField_headerR]; rfl

theorem decReset : Statement .decReset := ⟨rfl, rfl⟩

theorem decLeaf (idx : Handle) (sym : Byte) : Statement (.decLeaf idx sym) := by
  refine ⟨rfl, ?_⟩
  show some (unitOf (headerLeaf idx sym)) = some .dec
  rw [unitOf_eq, opField_headerLeaf]; rfl

theorem decInode (idx left right : Handle) : Statement (.decInode idx left right) := by
  refine ⟨rfl, ?_⟩
  show some (unitOf (headerInode idx left right)) = some .dec
  rw [unitOf_eq, opField_headerInode]; rfl

theorem decStart : Statement .decStart := ⟨rfl, rfl⟩

theorem decPut (byte : Byte) : Statement (.decPut byte) := by
  refine ⟨rfl, ?_⟩
  show some (unitOf (headerS _ byte)) = some .dec
  rw [unitOf_eq, opField_headerS]; rfl

theorem decFinish : Statement .decFinish := ⟨rfl, rfl⟩

theorem decRd (reg : RegNum) : Statement (.decRd reg) := by
  refine ⟨rfl, ?_⟩
  show some (unitOf (headerR _ reg)) = some .dec
  rw [unitOf_eq, opField_headerR]; rfl

theorem decWr (reg : RegNum) (value : Word) : Statement (.decWr reg value) := by
  refine ⟨rfl, ?_⟩
  show some (unitOf (headerR _ reg)) = some .dec
  rw [unitOf_eq, opField_headerR]; rfl

end Sys2Proof.Laws.EncodeShape
end

