-- ==== Sys2Proof/Tests/Slice0.lean ====
section
/-!
SUPPORT. Tests. The expected results are those 95_test_vectors.md prints (its vector names stand in the comments) or
were worked by hand from the rule named; none was taken from the model. The last part has, for every statement with
hypotheses, a theorem that shows values meeting them, at the ends of their ranges.
-/

namespace Sys2Proof.Tests

open Sys2Proof Sys2Proof.Machine

/-- The next state of an outcome. -/
def nextOf : Result → Option State
  | .next s => some s
  | .fault _ => none
  | .refused _ => none

/-! ### WellFormed: each check with a term it refuses -/

theorem test_wf_refuses_code_of_256_bits : (Instr.encLoad 0x41#8 (List.replicate 256 true)).wf = false := by
  decide +kernel
theorem test_wf_accepts_code_of_255_bits : (Instr.encLoad 0x41#8 (List.replicate 255 true)).wf = true := by
  decide +kernel

/-! ### Decoding: words of 30_encoding.md, bit by bit -/

-- W1, W11, W14: format Z, the opcode in bits 31 to 28 and zeros below.
theorem test_decode_format_z :
    decode 0b00000000000000000000000000000000#32 [] = .ok .encReset ∧
    decode 0b00100000000000000000000000000000#32 [] = .ok .encStart ∧
    decode 0b01000000000000000000000000000000#32 [] = .ok .encFinish ∧
    decode 0b10000000000000000000000000000000#32 [] = .ok .decReset ∧
    decode 0b10100000000000000000000000000000#32 [] = .ok .decStart ∧
    decode 0b11000000000000000000000000000000#32 [] = .ok .decFinish := by
  refine ⟨?_, ?_, ?_, ?_, ?_, ?_⟩ <;> rfl
-- W12, W19: format S, opcode 3 or B, twenty zeros, the byte.
theorem test_decode_format_s :
    decode 0b00110000000000000000000001000001#32 [] = .ok (.encPut 0x41#8) ∧
    decode 0b10110000000000000000000001011111#32 [] = .ok (.decPut 0x5F#8) := by
  refine ⟨?_, ?_⟩ <;> rfl
-- W13, W20: format R, opcode 5 or D, twenty-four zeros, the register.
theorem test_decode_format_r :
    decode 0b01010000000000000000000000000011#32 [] = .ok (.encRd 3#4) ∧
    decode 0b11010000000000000000000000000111#32 [] = .ok (.decRd 7#4) := by
  refine ⟨?_, ?_⟩ <;> rfl
-- W21: format W, opcode E, the register, and the value as extension word.
theorem test_decode_format_w : decode 0b11100000000000000000000000000001#32 [0x0000000B#32] = .ok (.decWr 1#4 11#32) := rfl
-- W5: format L, opcode 1, sym 44, len 03, twelve zeros; code 110 in the top bits of the extension word.
theorem test_decode_load :
    decode 0b00010100010000000011000000000000#32 [0b11000000000000000000000000000000#32] =
      .ok (.encLoad 0x44#8 [true, true, false]) := rfl
-- W6: a code of 20 bits.
theorem test_decode_load_20 :
    decode 0x10014000#32 [0xB38F0000#32] =
      .ok (.encLoad 0x00#8 [true, false, true, true, false, false, true, true, true, false, false, false, true, true,
        true, true, false, false, false, false]) := by decide
-- W10: 33 bits, the last in bit 31 of the second extension word.
theorem test_decode_load_33 :
    decode 0x10021000#32 [0xFFFFFFFF#32, 0x80000000#32] = .ok (.encLoad 0x00#8 (List.replicate 33 true)) := by decide
-- W16 and W18: format N, opcode 9, idx in bits 27 to 19, bit 18, then sym, or left and right.
theorem test_decode_leaf : decode 0b10010000000111000000000001000100#32 [] = .ok (.decLeaf 3#9 0x44#8) := rfl
theorem test_decode_inode :
    decode 0b10011111111110111111110111111101#32 [] = .ok (.decInode 511#9 510#9 509#9) := rfl
-- W17: left and right are not swapped.
theorem test_decode_inode_sides : decode 0x90200602#32 [] = .ok (.decInode 4#9 3#9 2#9) := rfl

-- X1 to X5, X10, X11, X15: header words that select no row.
theorem test_illegal_headers :
    selectRow 0x60000000#32 = none ∧ selectRow 0x70000000#32 = none ∧ selectRow 0xF0000000#32 = none ∧
    selectRow 0x00000001#32 = none ∧ selectRow 0x30000141#32 = none ∧ selectRow 0x10000001#32 = none ∧
    selectRow 0x90040141#32 = none ∧ selectRow 0xE0000011#32 = none ∧ selectRow 0xA0000001#32 = none := by decide
-- X7, X8: a 1 beyond the code.
theorem test_illegal_stray_bits :
    decode 0x14101000#32 [0x00000001#32] = .error .strayCodeBits ∧
    decode 0x14101000#32 [0x40000000#32] = .error .strayCodeBits := by
  refine ⟨?_, ?_⟩ <;> rfl
-- R74: ceil(len / 32) extension words, whether the word is legal (W7, W9, W10) or not (X5, X6, X11).
theorem test_ext_words :
    extWords 0x17FFF000#32 = 8 ∧ extWords 0x10020000#32 = 1 ∧ extWords 0x10021000#32 = 2 ∧
    extWords 0x10000001#32 = 0 ∧ extWords 0x14101800#32 = 1 ∧ extWords 0xE0000011#32 = 1 ∧
    extWords 0x90FFFFFF#32 = 0 := by decide

-- W3, W9, W10, W17, W22: words the encoder gives.
theorem test_encode_words :
    encode (.encLoad 0x42#8 [true, false]) = [0x14202000#32, 0x80000000#32] ∧
    encode (.encLoad 0x00#8 (List.replicate 32 true)) = [0x10020000#32, 0xFFFFFFFF#32] ∧
    encode (.encLoad 0x00#8 (List.replicate 33 true)) = [0x10021000#32, 0xFFFFFFFF#32, 0x80000000#32] ∧
    encode (.decInode 4#9 3#9 2#9) = [0x90200602#32] ∧ encode (.decLeaf 3#9 0x44#8) = [0x901C0044#32] := by decide
theorem test_encode_decCfg :
    encodeAll (decCfg 11#32 3#32 4#32 6#32) =
      [0xE0000001#32, 0x0000000B#32, 0xE0000002#32, 0x00000003#32, 0xE0000003#32, 0x00000004#32, 0xE0000004#32,
       0x00000006#32] := by decide

/-! ### Reference functions: F1 to F11, S4 -/

/-- The bit-string of F5. -/
def scenarioBits : Bits :=
  [false, false, false, false, false, true, false, true, false, true, false, true, true, true, true, true, true, true,
   true, false]

theorem test_pack_scenario : pack (scenarioBits ++ zeros 4) = [0x05#8, 0x5F#8, 0xE0#8] := by decide
theorem test_trim_unpack_scenario : trim (unpack [0x05#8, 0x5F#8, 0xE0#8]) 4 = scenarioBits := by decide
theorem test_padding_values :
    padding 0 = 0 ∧ padding 8 = 0 ∧ padding 1 = 7 ∧ padding 20 = 4 ∧ padding 7 = 1 ∧ padding 9 = 7 := by decide

/-! ### ENC: small states -/

/-- The code table of V1. -/
def ctV1 : Table Bits :=
  [(0x41, [false]), (0x42, [true, false]), (0x43, [true, true, true]), (0x44, [true, true, false])]

/-- ENC with the table of V1, in a run state, with an accumulator and counts. -/
def encAt (st : RunState) (acc : BitVec 8) (n : BitVec 3) (orig payload : Word) : EncState :=
  { EncState.reset with eSt := st, ct := ctV1, eAcc := acc, eNacc := n, eOrig := orig, ePayload := payload }

/-- The machine with ENC in some state and DEC after reset. -/
def withEnc (e : EncState) : State := { State.reset with enc := e }

/-- ENC as EF1 leaves it: a fault with cause 2. -/
def encErr : State := withEnc { encAt .err 0x80#8 1#3 9#32 2#32 with eErr := 2#4 }

/-- ENC in `RUN` with only the code of `'A'`, as EF7 to EF11 start. -/
def encOnly (code : Bits) (n : BitVec 3) (orig payload : Word) : State :=
  withEnc { EncState.reset with eSt := .run, ct := [(0x41, code)], eNacc := n, eOrig := orig, ePayload := payload }

-- EF15.
theorem test_encReset_from_err : nextOf (exec .encReset encErr) = some State.reset := by decide
-- EV5: the last load of a symbol wins.
theorem test_encLoad_overwrites :
    nextOf (exec (.encLoad 0x41#8 [true, true]) (withEnc { EncState.reset with ct := [(0x41, [false])] })) =
      some (withEnc { EncState.reset with ct := [(0x41, [true, true])] }) := by decide
-- EF5: the header word 14100000 is legal, and faults 3.
theorem test_encLoad_of_no_bits :
    nextOf (step { State.reset with cmd := [0x14100000#32] }) =
      some (withEnc { EncState.reset with eSt := .err, eErr := 3#4 }) := by decide
-- EF3.
theorem test_encStart_in_run :
    nextOf (exec .encStart (withEnc (encAt .run 0#8 0#3 0#32 0#32))) =
      some (withEnc { encAt .run 0#8 0#3 0#32 0#32 with eSt := .err, eErr := 2#4 }) := by decide
theorem test_encStart_in_cfg :
    nextOf (exec .encStart (withEnc (encAt .cfg 0#8 0#3 0#32 0#32))) =
      some (withEnc (encAt .run 0#8 0#3 0#32 0#32)) := by decide
-- EV1, the second PUT 'B': emits 05 and holds one zero.
theorem test_encPut_fills_byte :
    nextOf (exec (.encPut 0x42#8) (withEnc (encAt .run 0x04#8 7#3 6#32 0#32))) =
      some { withEnc (encAt .run 0x00#8 1#3 7#32 1#32) with encOut := [0x05#8] } := by decide
-- EV3: a code of 255 ones after one zero emits 7F and thirty-one FF.
theorem test_encPut_longest_code :
    (nextOf (exec (.encPut 0x41#8) (encOnly (List.replicate 255 true) 1#3 1#32 0#32))).map
        (fun s => (s.encOut, s.enc.eNacc, s.enc.ePayload, s.enc.eOrig)) =
      some (0x7F#8 :: List.replicate 31 0xFF#8, 0#3, 32#32, 2#32) := by decide +kernel
-- EV1, ENC.FINISH.
theorem test_encFinish_flushes :
    nextOf (exec .encFinish (withEnc (encAt .run 0xE0#8 4#3 11#32 2#32))) =
      some { withEnc { encAt .done 0x00#8 0#3 11#32 3#32 with ePad := 4#3 } with encOut := [0xE0#8] } := by decide
-- EF10: the held bit is not flushed.
theorem test_encFinish_count_full :
    nextOf (exec .encFinish (encOnly [false] 1#3 8#32 0xFFFFFFFF#32)) =
      some (withEnc { (encOnly [false] 1#3 8#32 0xFFFFFFFF#32).enc with eSt := .err, eErr := 5#4 }) := by decide
-- EF14: a read in ERR.
theorem test_encRd_status_in_err :
    nextOf (exec (.encRd 0#4) encErr) = some { encErr with rsp := [0x00000023#32] } := by decide
-- X9.
theorem test_encRd_of_no_register :
    nextOf (step { State.reset with cmd := [0x50000004#32] }) =
      some (withEnc { EncState.reset with eSt := .err, eErr := 1#4 }) := by decide

/-! ### DEC: small states -/

/-- The tree of V1. -/
def treeT1 : Table Node :=
  [(0, .leaf 0x41#8), (1, .leaf 0x42#8), (2, .leaf 0x43#8), (3, .leaf 0x44#8), (4, .inode 3#9 2#9),
   (5, .inode 1#9 4#9), (6, .inode 0#9 5#9)]

/-- DEC with the tree of V1 and `DEC.CFG 11, 3, 4, 6`, in a run state and at a position. -/
def decAt (st : RunState) (cur : Handle) (desc : Bool) (bytes out : Word) : DecState :=
  { DecState.reset with dSt := st, tree := treeT1, dRoot := 6#9, dOrig := 11#32, dPayload := 3#32, dPad := 4#32,
                        dCur := cur, dDesc := desc, dBytes := bytes, dOut := out }

/-- The machine with DEC in some state and ENC after reset. -/
def withDec (d : DecState) : State := { State.reset with dec := d }

/-- DEC as DF3 leaves it: a fault with cause 7. -/
def decErr : State := withDec { decAt .err 4#9 true 2#32 9#32 with dErr := 7#4 }

/-- DEC in `CFG` with some configuration registers. -/
def decConfigured (payload pad : Word) : State :=
  withDec { DecState.reset with dPayload := payload, dPad := pad, dRoot := 6#9 }

-- DF17.
theorem test_decReset_from_err : nextOf (exec .decReset decErr) = some State.reset := by decide
-- R141: a second write to the same index replaces the entry, a leaf by an internal node.
theorem test_decInode_replaces_leaf :
    nextOf (exec (.decInode 4#9 3#9 2#9) (withDec { DecState.reset with tree := [(4, .leaf 0x44#8)] })) =
      some (withDec { DecState.reset with tree := [(4, .inode 3#9 2#9)] }) := by decide
theorem test_decLeaf_writes_last_entry :
    nextOf (exec (.decLeaf 511#9 0x44#8) (withDec { DecState.reset with tree := [(4, .leaf 0x41#8)] })) =
      some (withDec { DecState.reset with tree := [(4, .leaf 0x41#8), (511, .leaf 0x44#8)] }) := by decide
-- DF12.
theorem test_decLeaf_in_run :
    nextOf (exec (.decLeaf 8#9 0x01#8) (withDec (decAt .run 6#9 false 0#32 0#32))) =
      some (withDec { decAt .run 6#9 false 0#32 0#32 with dSt := .err, dErr := 2#4 }) := by decide
-- DF1 and DF2: a padding of 8, and a padding without a payload.
theorem test_decStart_bad_header :
    nextOf (exec .decStart (decConfigured 3#32 8#32)) =
      some (withDec { (decConfigured 3#32 8#32).dec with dSt := .err, dErr := 3#4 }) ∧
    nextOf (exec .decStart (decConfigured 0#32 1#32)) =
      some (withDec { (decConfigured 0#32 1#32).dec with dSt := .err, dErr := 3#4 }) := by decide
theorem test_decStart_stands_on_root :
    nextOf (exec .decStart (decConfigured 3#32 7#32)) =
      some (withDec { (decConfigured 3#32 7#32).dec with dSt := .run, dCur := 6#9 }) := by decide
-- DV1: the eight bits of 05.
theorem test_decPut_first_byte :
    nextOf (exec (.decPut 0x05#8) (withDec (decAt .run 6#9 false 0#32 0#32))) =
      some { withDec (decAt .run 5#9 true 1#32 6#32) with
        decOut := [0x41#8, 0x41#8, 0x41#8, 0x41#8, 0x41#8, 0x42#8] } := by decide
-- DV3, DV4: of the last byte four bits are walked, whatever the padding bits are.
theorem test_decPut_last_byte :
    nextOf (exec (.decPut 0xEF#8) (withDec (decAt .run 4#9 true 2#32 9#32))) =
      some { withDec (decAt .run 6#9 false 3#32 11#32) with decOut := [0x43#8, 0x44#8] } := by decide
-- DF3, DF5: the byte count is checked before the position.
theorem test_decFinish_truncated :
    nextOf (exec .decFinish (withDec (decAt .run 4#9 true 2#32 9#32))) = some decErr := by decide
theorem test_decFinish_done :
    nextOf (exec .decFinish (withDec (decAt .run 6#9 false 3#32 11#32))) =
      some (withDec (decAt .done 6#9 false 3#32 11#32)) := by decide
-- DF16: D_POS and the status word in ERR.
theorem test_decRd_in_err :
    nextOf (exec (.decRd 7#4) decErr) = some { decErr with rsp := [0x00010004#32] } ∧
    nextOf (exec (.decRd 0#4) decErr) = some { decErr with rsp := [0x00000073#32] } := by decide
-- X14.
theorem test_decRd_of_no_register :
    nextOf (step { State.reset with cmd := [0xD0000008#32] }) =
      some (withDec { DecState.reset with dSt := .err, dErr := 1#4 }) := by decide
-- X13, and the largest root that is written.
theorem test_decWr_root_out_of_range :
    nextOf (step { State.reset with cmd := [0xE0000004#32, 0x00000200#32] }) =
      some (withDec { DecState.reset with dSt := .err, dErr := 1#4 }) := by decide
theorem test_decWr_root_511 :
    nextOf (step { State.reset with cmd := [0xE0000004#32, 0x000001FF#32] }) =
      some (withDec { DecState.reset with dRoot := 511#9 }) := by decide

/-- DEC in `RUN` on a one-leaf tree, `DEC.CFG 3, 1, 5, 0` (DV5). -/
def decOneLeaf : State :=
  withDec { DecState.reset with dSt := .run, tree := [(0, .leaf 0x41#8)], dOrig := 3#32, dPayload := 1#32,
                                dPad := 5#32 }

-- DV5 and DF11: three bits of the byte are walked; a 1 at a leaf root faults, and nothing is emitted.
theorem test_walk_one_leaf :
    (nextOf (exec (.decPut 0x07#8) decOneLeaf)).map (fun s => (s.decOut, s.dec.dOut)) =
      some ([0x41#8, 0x41#8, 0x41#8], 3#32) ∧
    nextOf (exec (.decPut 0x20#8) decOneLeaf) =
      some { decOneLeaf with dec := { decOneLeaf.dec with dSt := .err, dErr := 5#4 } } := by decide
-- DF6: D_ORIG is 10; the tenth symbol of the faulting byte is not emitted either.
theorem test_walk_length_fault_is_atomic :
    let d := { decAt .run 4#9 true 2#32 9#32 with dOrig := 10#32 }
    nextOf (exec (.decPut 0xE0#8) (withDec d)) = some (withDec { d with dSt := .err, dErr := 9#4 }) := by decide
-- DF9: the root is an invalid entry.
theorem test_walk_invalid_root :
    let d := { decAt .run 7#9 false 0#32 0#32 with dRoot := 7#9 }
    nextOf (exec (.decPut 0x05#8) (withDec d)) = some (withDec { d with dSt := .err, dErr := 4#4 }) := by decide
-- DV7 (a): a cycle is walked, eight moves a byte.
theorem test_walk_cycle :
    let d := { DecState.reset with dSt := .run, tree := [(0, .inode 0#9 0#9)], dPayload := 1#32 }
    nextOf (exec (.decPut 0xFF#8) (withDec d)) =
      some (withDec { d with dDesc := true, dBytes := 1#32 }) := by decide

/-! ### Stream and step -/

-- Framing after an illegal word (X6): the word 20000000 is consumed with it and not run as ENC.START.
theorem test_framing_after_illegal_word :
    nextOf (step { State.reset with cmd := [0x14101800#32, 0x20000000#32, 0x50000000#32] }) =
      some { withEnc { EncState.reset with eSt := .err, eErr := 1#4 } with cmd := [0x50000000#32] } := by decide
-- X2: a reserved DEC opcode faults DEC.
theorem test_reserved_opcode_faults_dec :
    nextOf (step { State.reset with cmd := [0xF0000000#32] }) =
      some (withDec { DecState.reset with dSt := .err, dErr := 1#4 }) := by decide
-- X4: illegal is found before the state check.
theorem test_illegal_before_protocol :
    nextOf (step { State.reset with cmd := [0x30000141#32] }) =
      some (withEnc { EncState.reset with eSt := .err, eErr := 1#4 }) := by decide
-- U23: a command not sent whole yet.
theorem test_step_waits_for_extension :
    nextOf (step { State.reset with cmd := [0x14101000#32] }) = some { State.reset with cmd := [0x14101000#32] } := by
  decide
-- W2 in the numbering of the opcode table, and run as the first command after reset.
theorem test_table_word : decodeTableWord 64 0x8000000014202000 = some (.encLoad 0x42#8 [true, false]) := by decide
theorem test_table_word_runs_first :
    nextOf (step (State.reset.withFetchWord 64 0x8000000014202000)) =
      some (withEnc { EncState.reset with ct := [(0x42, [true, false])] }) := by decide

/-! ### Host software -/

/-- The frequency table of V1. -/
def freqV1 : FreqTable := [(0x41#8, 5), (0x42#8, 3), (0x43#8, 2), (0x44#8, 1)]

-- V1: nodes 4, 5 and 6, and the codes.
theorem test_build_V1 :
    build freqV1 = some ⟨[.leaf 0x41#8, .leaf 0x42#8, .leaf 0x43#8, .leaf 0x44#8, .inode 3#9 2#9, .inode 1#9 4#9,
      .inode 0#9 5#9], 6#9⟩ := by decide
theorem test_codes_V1 :
    codesOfFreqs freqV1 = [(0x41#8, [false]), (0x42#8, [true, false]), (0x44#8, [true, true, false]),
      (0x43#8, [true, true, true])] := by decide
-- V7: eight symbols, the merges in order.
theorem test_build_V7 :
    (build [(0x20#8, 1), (0x64#8, 1), (0x65#8, 1), (0x68#8, 1), (0x6C#8, 3), (0x6F#8, 2), (0x72#8, 1),
      (0x77#8, 1)]).map (fun t => (t.nodes.drop 8, t.root)) =
      some ([.inode 0#9 1#9, .inode 2#9 3#9, .inode 6#9 7#9, .inode 5#9 8#9, .inode 9#9 10#9, .inode 4#9 11#9,
        .inode 12#9 13#9], 14#9) := by decide
-- V2: the container of "AAA".
theorem test_container_V2 :
    (Container.mk 3#32 1#32 5#32 [(0x41#8, 3#32)] [0x00#8]).write =
      some [0x03#8, 0x00#8, 0x00#8, 0x00#8, 0x01#8, 0x00#8, 0x00#8, 0x00#8, 0x05#8, 0x00#8, 0x00#8, 0x00#8, 0x01#8, 0x00#8,
       0x00#8, 0x00#8, 0x41#8, 0x03#8, 0x00#8, 0x00#8, 0x00#8, 0x00#8] := by decide
-- V12: the empty input.
theorem test_compress_empty : (compress []).map Prod.fst = some (List.replicate 16 0x00#8) := by decide

/-! ### Witnesses: what meets the hypotheses of each statement -/

/-- ENC and DEC both in a run: ENC before the second `PUT 'B'` of EV1, DEC after DV1. -/
def busy : State := { State.reset with enc := encAt .run 0x04#8 7#3 6#32 0#32, dec := decAt .run 5#9 true 1#32 6#32 }

/-- Both units in `ERR`. -/
def bothErr : State := { State.reset with enc := encErr.enc, dec := decErr.dec }

/-- Both units in `DONE`. -/
def bothDone : State :=
  { State.reset with enc := { encAt .done 0x00#8 0#3 11#32 3#32 with ePad := 4#3 }, dec := decAt .done 6#9 false 3#32 11#32 }

theorem busy_accClean : busy.enc.accClean := by
  intro i h
  have hn : busy.enc.eNacc.toNat = 7 := by decide
  have : i = 0 := by omega
  subst this
  decide

/-- A state in which both units run meets the invariants (`StepKeepsInvariants`, `StreamsOnlyGrow`,
`CountsNeverWrap`). -/
theorem witness_Inv : busy.Inv where
  enc :=
    { accClean := busy_accClean
      errIff := by decide
      errLe := by decide
      ctWf := by decide
      codeLen := by decide
      cfgZero := by decide
      padZero := by decide
      doneFlushed := by decide }
  dec :=
    { errIff := by decide
      errLe := by decide
      treeWf := by decide
      bytesLe := by decide
      outLe := by decide
      cfgZero := by decide
      padLe := by decide
      padPayload := by decide
      atRoot := by decide
      descending := fun _ _ => ⟨1#9, 4#9, by decide⟩
      doneComplete := by decide }

theorem witness_StepKeepsInvariants :
    ∃ s t : State, s.Inv ∧ step s = .next t ∧ t ≠ s :=
  ⟨{ busy with cmd := [0x30000042#32] }, _, ⟨witness_Inv.enc, witness_Inv.dec⟩, rfl, by decide⟩

theorem witness_StreamsOnlyGrow :
    ∃ s t : State, s.Inv ∧ step s = .next t ∧ t.decOut ≠ s.decOut :=
  ⟨{ busy with cmd := [0xB000005F#32] }, _, ⟨witness_Inv.enc, witness_Inv.dec⟩, rfl, by decide⟩

/-- In each unit a `PUT` that is accepted, a `PUT` that faults and a `PUT` ignored in `ERR`. -/
theorem witness_CountsNeverWrap :
    (∃ t, busy.Inv ∧ exec (.encPut 0x42#8) busy = .next t ∧ busy.enc.eSt = .run ∧ t.enc.eSt ≠ .err) ∧
    (∃ t, exec (.encPut 0x45#8) busy = .next t ∧ t.enc.eSt = .err) ∧
    (∃ t, exec (.encPut 0x41#8) bothErr = .next t ∧ t.enc = bothErr.enc) ∧
    (∃ t, exec (.decPut 0x5F#8) busy = .next t ∧ busy.dec.dSt = .run ∧ t.dec.dSt ≠ .err) ∧
    (∃ t, exec (.decPut 0x00#8) (withDec (decAt .run 6#9 false 3#32 11#32)) = .next t ∧ t.dec.dSt = .err) ∧
    (∃ t, exec (.decPut 0x00#8) bothErr = .next t ∧ t.dec = bothErr.dec) :=
  ⟨⟨_, witness_Inv, rfl, rfl, by decide⟩, ⟨_, rfl, rfl⟩, ⟨_, rfl, rfl⟩, ⟨_, rfl, rfl, by decide⟩, ⟨_, rfl, rfl⟩,
    ⟨_, rfl, rfl⟩⟩

theorem witness_DecodeOfEncode :
    (Instr.encLoad 0x41#8 []).wf = true ∧ (Instr.encLoad 0x41#8 (List.replicate 255 true)).wf = true ∧
    (Instr.decWr 15#4 0xFFFFFFFF#32).wf = true := by decide +kernel

theorem witness_EncodeOfDecode :
    decode 0x10021000#32 [0xFFFFFFFF#32, 0x80000000#32] = .ok (.encLoad 0x00#8 (List.replicate 33 true)) ∧
    decode 0xE000000F#32 [0xFFFFFFFF#32] = .ok (.decWr 15#4 0xFFFFFFFF#32) := by decide

theorem witness_OpcodeRowsExclusive :
    (⟨.encLoad, 0x10000000#32, 0xF0000FFF#32⟩ : OpRow) ∈ opcodeRows ∧
    0x17FFF000#32 &&& 0xF0000FFF#32 = 0x10000000#32 := by decide

theorem witness_LoadCodeAssembly :
    (0x14101000#32 &&& 0xF0000FFF#32 = 0x10000000#32 ∧ [0x00000001#32].length = ((0x14101000#32).extractLsb' 12 8).toNat ∧
      ([0x00000001#32].getD (31 / 32) 0#32).getLsbD (31 - 31 % 32) = true) ∧
    (0x10020000#32 &&& 0xF0000FFF#32 = 0x10000000#32 ∧ ((0x10020000#32).extractLsb' 12 8).toNat = 32) ∧
    (0x14100000#32 &&& 0xF0000FFF#32 = 0x10000000#32 ∧ ((0x14100000#32).extractLsb' 12 8).toNat = 0) := by decide

theorem witness_StepConsumesAnnouncedWords :
    extWords 0x10021000#32 = 2 ∧ 2 ≤ [0xFFFFFFFF#32, 0x80000000#32].length ∧ [0xFFFFFFFF#32].length < 2 := by decide

theorem witness_StepRunsDecodedCommand :
    [0x80000000#32].length = extWords 0x14202000#32 ∧
    decode 0x14202000#32 [0x80000000#32] = .ok (.encLoad 0x42#8 [true, false]) := by decide

theorem witness_StreamRunsCommandsInOrder :
    ∀ i ∈ [Instr.encReset, .encLoad 0x41#8 [false], .decWr 4#4 511#32, .encStart], i.wf = true := by decide

theorem witness_IllegalWordFaultsItsUnit :
    ([0x20000000#32].length = extWords 0x14101800#32 ∧ decode 0x14101800#32 [0x20000000#32] = .error .illegalHeader ∧
      (0x14101800#32).getLsbD 31 = false ∧ busy.enc.eSt ≠ .err ∧ bothErr.enc.eSt = .err) ∧
    (([] : List Word).length = extWords 0xF0000000#32 ∧ decode 0xF0000000#32 [] = .error .illegalHeader ∧
      (0xF0000000#32).getLsbD 31 = true ∧ busy.dec.dSt ≠ .err ∧ bothErr.dec.dSt = .err) := by decide

theorem witness_EncLoadWritesOneEntry :
    ((0x10000001#32).extractLsb' 28 4 = 0x1#4 ∧ (0x10000001#32).extractLsb' 0 12 ≠ 0#12 ∧
      ([] : List Word).length = (((0x10000001#32).extractLsb' 12 8).toNat + 31) / 32) ∧
    ((List.replicate 255 true).length ≤ 255 ∧ busy.enc.eSt ≠ .err ∧ busy.enc.eSt ≠ .cfg) ∧
    (State.reset.enc.eSt ≠ .err ∧ State.reset.enc.eSt = .cfg) := by decide +kernel

theorem witness_OverlongCodeStopsByName :
    255 < (List.replicate 256 true).length ∧
    decode 0x10020000#32 [0xFFFFFFFF#32] = .ok (.encLoad 0x00#8 (List.replicate 32 true)) := by decide +kernel

theorem witness_EncStartBeginsRun :
    (bothDone.enc.eSt ≠ .err ∧ bothDone.enc.eSt ≠ .cfg) ∧ State.reset.enc.eSt = .cfg := by decide

/-- The four outcomes of `ENC.PUT`: protocol, no code, either count at its end (EF7, EF8), and the packing at the
largest payload count it still may reach (EF9). -/
theorem witness_EncPutPacksCode :
    (bothDone.enc.eSt ≠ .err ∧ bothDone.enc.eSt ≠ .run) ∧
    (busy.enc.eSt = .run ∧ busy.enc.code 0x45#8 = none) ∧
    (let s := encOnly [false] 0#3 0xFFFFFFFF#32 0#32;
      s.enc.eSt = .run ∧ s.enc.code 0x41#8 = some [false] ∧ s.enc.eOrig.toNat = 4294967295) ∧
    (let s := encOnly (List.replicate 9 false) 0#3 0x08000000#32 0xFFFFFFFF#32;
      s.enc.code 0x41#8 = some (List.replicate 9 false) ∧ s.enc.ePayload.toNat + (s.enc.eNacc.toNat + 9) / 8 > 4294967295) ∧
    (let s := encOnly (List.replicate 8 false) 0#3 0xFFFFFFFE#32 0xFFFFFFFE#32;
      s.enc.code 0x41#8 = some (List.replicate 8 false) ∧ s.enc.eOrig.toNat ≠ 4294967295 ∧
        s.enc.ePayload.toNat + (s.enc.eNacc.toNat + 8) / 8 ≤ 4294967295 ∧ s.enc.eAcc = 0x00#8) ∧
    (busy.enc.code 0x42#8 = some [true, false] ∧ busy.enc.eOrig.toNat ≠ 4294967295 ∧
      busy.enc.ePayload.toNat + (busy.enc.eNacc.toNat + 2) / 8 ≤ 4294967295 ∧ busy.enc.accClean) :=
  ⟨by decide, by decide, by decide, by decide, by decide, by decide, by decide, by decide, busy_accClean⟩

theorem witness_EncFinishPadsAndFlushes :
    bothDone.enc.eSt ≠ .err ∧ bothDone.enc.eSt ≠ .run ∧
    (let s := encOnly [false] 0#3 8#32 0xFFFFFFFF#32; s.enc.eSt = .run ∧ s.enc.eNacc = 0#3) ∧
    (let s := encOnly [false] 1#3 8#32 0xFFFFFFFF#32;
      s.enc.eSt = .run ∧ s.enc.eNacc ≠ 0#3 ∧ s.enc.ePayload.toNat = 4294967295) ∧
    (let s := encOnly [false] 7#3 8#32 0xFFFFFFFE#32;
      s.enc.eSt = .run ∧ s.enc.eNacc ≠ 0#3 ∧ s.enc.ePayload.toNat ≠ 4294967295) := by decide

theorem witness_EncReadAnswersRegister :
    (4 ≤ (4#4 : RegNum).toNat ∧ 4 ≤ (15#4 : RegNum).toNat) ∧ busy.enc.eSt ≠ .err ∧ bothErr.enc.eSt = .err := by decide

theorem witness_DecNodeWritesOneEntry :
    ((0x90040141#32).extractLsb' 28 4 = 0x9#4 ∧ (0x90040141#32).getLsbD 18 = true ∧
      (0x90040141#32).extractLsb' 8 10 ≠ 0#10 ∧ State.reset.dec.dSt ≠ .err) ∧
    (busy.dec.dSt ≠ .err ∧ busy.dec.dSt ≠ .cfg) ∧ (State.reset.dec.dSt ≠ .err ∧ State.reset.dec.dSt = .cfg) := by decide

theorem witness_DecWriteSetsRegister :
    ((0xE0000011#32).extractLsb' 28 4 = 0xE#4 ∧ (0xE0000011#32).extractLsb' 4 24 ≠ 0#24) ∧
    (busy.dec.dSt ≠ .err ∧ busy.dec.dSt ≠ .cfg) ∧ (State.reset.dec.dSt = .cfg ∧ State.reset.dec.dSt ≠ .err) ∧
    (511#32 : Word).toNat ≤ 511 ∧ 511 < (512#32 : Word).toNat ∧ (0#4 : RegNum).toNat = 0 ∧ 5 ≤ (5#4 : RegNum).toNat ∧
    5 ≤ (15#4 : RegNum).toNat := by decide

/-- `DEC.START` with a padding of 8, of 1 without a payload, of 7, and of 0 without a payload. -/
theorem witness_DecStartChecksHeader :
    (busy.dec.dSt ≠ .err ∧ busy.dec.dSt ≠ .cfg) ∧
    (let d := (decConfigured 3#32 8#32).dec; d.dSt = .cfg ∧ 7 < d.dPad.toNat) ∧
    (let d := (decConfigured 0#32 1#32).dec; d.dSt = .cfg ∧ d.dPayload = 0#32 ∧ d.dPad ≠ 0#32) ∧
    (let d := (decConfigured 1#32 7#32).dec; d.dSt = .cfg ∧ d.dPad.toNat ≤ 7 ∧ ¬ (d.dPayload = 0#32 ∧ d.dPad ≠ 0#32)) ∧
    (let d := (decConfigured 0#32 0#32).dec;
      d.dSt = .cfg ∧ d.dPad.toNat ≤ 7 ∧ ¬ (d.dPayload = 0#32 ∧ d.dPad ≠ 0#32)) := by decide

/-- A leaf root; an internal node with a leaf child, an internal child and an absent child; an absent root; and `D_OUT`
at its limit and below. -/
theorem witness_DecBitWalksTree :
    decOneLeaf.dec.node decOneLeaf.dec.dCur = some (.leaf 0x41#8) ∧ decOneLeaf.dec.dOut ≠ decOneLeaf.dec.dOrig ∧
    (decAt .run 6#9 false 0#32 11#32).dOut = (decAt .run 6#9 false 0#32 11#32).dOrig ∧
    (decAt .run 6#9 false 0#32 0#32).node 6#9 = some (.inode 0#9 5#9) ∧
    (decAt .run 6#9 false 0#32 0#32).node 0#9 = some (.leaf 0x41#8) ∧
    (decAt .run 6#9 false 0#32 0#32).node 5#9 = some (.inode 1#9 4#9) ∧
    (decAt .run 6#9 false 0#32 0#32).node 7#9 = none ∧
    (let d := { DecState.reset with tree := [(0, .inode 1#9 511#9)] };
      d.node d.dCur = some (.inode 1#9 511#9) ∧ d.node 511#9 = none) := by decide

/-- `DEC.PUT`: protocol, past the last byte, a byte before the last (DV2) and the last byte (DV3, with four bits
walked), a fault (DF9), and a leaf as current node. -/
theorem witness_DecPutWalksByte :
    (bothDone.dec.dSt ≠ .err ∧ bothDone.dec.dSt ≠ .run) ∧
    (let d := decAt .run 6#9 false 3#32 11#32; d.dSt = .run ∧ d.dBytes = d.dPayload) ∧
    (let d := busy.dec;
      d.dSt = .run ∧ d.dBytes.toNat < d.dPayload.toNat ∧ d.dPad.toNat ≤ 7 ∧ d.dOut.toNat ≤ d.dOrig.toNat ∧
        d.node d.dCur = some (.inode 1#9 4#9) ∧ d.dBytes.toNat + 1 ≠ d.dPayload.toNat) ∧
    (let d := decAt .run 4#9 true 2#32 9#32;
      d.dSt = .run ∧ d.dBytes.toNat < d.dPayload.toNat ∧ d.dBytes.toNat + 1 = d.dPayload.toNat ∧
        (List.replicate 9 0x41#8).length = d.dOut.toNat ∧
        decodeLoop d.node d.dRoot d.dOrig.toNat [true, true, true, false] ⟨d.dCur, d.dDesc⟩ (List.replicate 9 0x41#8) =
          .ok (⟨6#9, false⟩, List.replicate 9 0x41#8 ++ [0x43#8, 0x44#8])) ∧
    (let d := { decAt .run 7#9 false 0#32 0#32 with dRoot := 7#9 };
      d.dSt = .run ∧ d.node d.dCur = none ∧
        decodeLoop d.node d.dRoot d.dOrig.toNat (bits8 0x05#8) ⟨d.dCur, d.dDesc⟩ [] = .error .badTree) ∧
    (let d := decOneLeaf.dec;
      d.node d.dCur = some (.leaf 0x41#8) ∧ d.dCur = d.dRoot ∧ d.dDesc = false ∧ d.dSt = .run ∧ d.dPad.toNat ≤ 7) ∧
    (let d := { decOneLeaf.dec with dPad := 7#32 };
      d.dSt = .run ∧ d.dBytes.toNat < d.dPayload.toNat ∧ d.dPad.toNat ≤ 7 ∧ d.dOut.toNat ≤ d.dOrig.toNat ∧
        8 - d.dPad.toNat = 1) := by
  refine ⟨by decide, by decide, by decide, ⟨by decide, by decide, by decide, by decide, rfl⟩,
    ⟨by decide, by decide, rfl⟩, by decide, by decide⟩

theorem witness_DecFinishChecksEnd :
    (bothDone.dec.dSt ≠ .err ∧ bothDone.dec.dSt ≠ .run) ∧
    (let d := decAt .run 4#9 true 2#32 9#32; d.dSt = .run ∧ d.dBytes ≠ d.dPayload) ∧
    (let d := decAt .run 4#9 true 3#32 10#32; d.dBytes = d.dPayload ∧ d.dDesc = true) ∧
    (let d := decAt .run 6#9 false 3#32 10#32; d.dBytes = d.dPayload ∧ d.dDesc = false ∧ d.dOut ≠ d.dOrig) ∧
    (let d := decAt .run 6#9 false 3#32 11#32; d.dBytes = d.dPayload ∧ d.dDesc = false ∧ d.dOut = d.dOrig) := by decide

theorem witness_DecReadAnswersRegister :
    (8 ≤ (8#4 : RegNum).toNat ∧ 8 ≤ (15#4 : RegNum).toNat) ∧ busy.dec.dSt ≠ .err ∧ bothErr.dec.dSt = .err := by decide

theorem witness_FaultWritesOnlyStateAndCause :
    (busy.enc.eSt ≠ .err ∧ (nextOf (exec (.encPut 0x45#8) busy)).map (fun t => t.enc.eSt) = some .err) ∧
    (busy.dec.dSt ≠ .err ∧ (nextOf (exec .decFinish busy)).map (fun t => t.dec.dSt) = some .err) ∧
    (nextOf (step { busy with cmd := [0x60000000#32] })).map (fun t => t.enc.eSt) = some .err ∧
    (nextOf (step { busy with cmd := [0xC0000000#32] })).map (fun t => t.dec.dSt) = some .err := by decide

theorem witness_ErrStateIgnoresCommands :
    (bothErr.enc.eSt = .err ∧ bothErr.dec.dSt = .err) ∧
    (decode 0x14101000#32 [0x00000001#32] = .error .strayCodeBits ∧ (0x14101000#32).getLsbD 31 = false) ∧
    (decode 0xE0000001#32 [11#32] = .ok (.decWr 1#4 11#32) ∧ isLegalRead (.decWr 1#4 11#32) = false ∧
      (0xE0000001#32).getLsbD 31 = true) ∧
    decode 0x00000000#32 [] = .ok .encReset ∧ decode 0x80000000#32 [] = .ok .decReset ∧
    (decode 0x50000003#32 [] = .ok (.encRd 3#4) ∧ isLegalRead (.encRd 3#4) = true) ∧
    (decode 0xD0000008#32 [] = .ok (.decRd 8#4) ∧ isLegalRead (.decRd 8#4) = false) := by decide

theorem witness_OnlyResetLeavesErr :
    (bothErr.enc.eSt = .err ∧ (nextOf (exec .encReset bothErr)).map (fun t => t.enc.eSt) = some .cfg) ∧
    (bothErr.dec.dSt = .err ∧ (nextOf (exec .decReset bothErr)).map (fun t => t.dec.dSt) = some .cfg) ∧
    (nextOf (step { bothErr with cmd := [0x00000000#32] })).map (fun t => t.enc.eSt) = some .cfg ∧
    (nextOf (step { bothErr with cmd := [0x80000000#32] })).map (fun t => t.dec.dSt) = some .cfg := by decide

theorem witness_RunStateTransitions :
    (nextOf (exec .encStart State.reset)).map (runState .enc) = some .run ∧
    (nextOf (exec .encStart busy)).map (runState .enc) = some .err ∧
    (nextOf (exec .decFinish (withDec (decAt .run 6#9 false 3#32 11#32)))).map (runState .dec) = some .done ∧
    (nextOf (exec (.decRd 7#4) busy)).map (runState .dec) = some .run ∧
    (nextOf (exec (.decRd 8#4) busy)).map (runState .dec) = some .err ∧
    (nextOf (exec .encReset bothErr)).map (runState .enc) = some .cfg ∧
    (nextOf (exec .encFinish bothErr)).map (runState .enc) = some .err ∧
    acceptedIn .encStart .cfg = true ∧ acceptedIn .encStart .run = false := by decide

theorem witness_CommandLeavesOtherUnit :
    (∃ t, exec (.encPut 0x42#8) busy = .next t ∧ (Instr.encPut 0x42#8).unit = .enc ∧ t.enc ≠ busy.enc) ∧
    (∃ t, exec (.decPut 0x5F#8) busy = .next t ∧ (Instr.decPut 0x5F#8).unit = .dec ∧ t.dec ≠ busy.dec) :=
  ⟨⟨_, rfl, rfl, by decide⟩, ⟨_, rfl, rfl, by decide⟩⟩

theorem witness_CommandReadsOwnUnitOnly :
    (∃ t, exec (.encPut 0x42#8) busy = .next t ∧ (withEnc busy.enc).enc = busy.enc ∧ withEnc busy.enc ≠ busy) ∧
    (∃ t, exec (.decPut 0x5F#8) busy = .next t ∧ (withDec busy.dec).dec = busy.dec ∧ withDec busy.dec ≠ busy) :=
  ⟨⟨_, rfl, rfl, by decide⟩, ⟨_, rfl, rfl, by decide⟩⟩

theorem witness_InterleavingGivesOwnSubsequence :
    ∀ i ∈ [Instr.encReset, .decReset, .encLoad 0x41#8 [false], .decLeaf 0#9 0x41#8, .encStart, .decStart], i.wf = true := by
  decide

theorem witness_ReadsHaveNoSideEffect :
    isLegalRead (.encRd 3#4) = true ∧ isLegalRead (.encRd 4#4) = false ∧ isLegalRead (.decRd 7#4) = true ∧
    isLegalRead (.decRd 8#4) = false ∧ (∃ t, exec (.decPut 0x5F#8) busy = .next t) :=
  ⟨rfl, rfl, rfl, rfl, _, rfl⟩

theorem witness_TablesFrozenOutsideCfg :
    (∃ t, exec (.encLoad 0x45#8 [true]) busy = .next t ∧ busy.enc.eSt ≠ .cfg) ∧
    (∃ t, exec (.decWr 4#4 511#32) busy = .next t ∧ busy.dec.dSt ≠ .cfg) ∧
    (∃ t, exec .decStart (decConfigured 1#32 7#32) = .next t ∧ (decConfigured 1#32 7#32).dec.dSt = .cfg) ∧
    (∃ t, exec .encStart State.reset = .next t ∧ State.reset.enc.eSt = .cfg) :=
  ⟨⟨_, rfl, by decide⟩, ⟨_, rfl, by decide⟩, ⟨_, rfl, rfl⟩, ⟨_, rfl, rfl⟩⟩

theorem witness_PackUnpackInverse : scenarioBits.length = 20 ∧ (scenarioBits ++ zeros 4).length % 8 = 0 ∧ 1 < 3 ∧ 7 ≤ 7 := by
  decide

/-! #### A table and a tree that agree -/

/-- Codes of two symbols, `'A'` 0 and `'B'` 1 (V4). -/
def loadsAB : List (Byte × Bits) := [(0x41#8, [false]), (0x42#8, [true])]

/-- The nodes of V4. -/
def nodesAB : List (Handle × Node) := [(0#9, .leaf 0x41#8), (1#9, .leaf 0x42#8), (2#9, .inode 0#9 1#9)]

/-- The tree of V4. -/
def treeAB : TreeMap := treeLeft (nodesAB.map fun p => decNode p.1 p.2)

theorem treeAB_nodes :
    treeAB 0#9 = some (.leaf 0x41#8) ∧ treeAB 1#9 = some (.leaf 0x42#8) ∧ treeAB 2#9 = some (.inode 0#9 1#9) := by decide

theorem treeAB_agrees : Agree (codeMapOf loadsAB) treeAB 2#9 := by
  obtain ⟨h0, h1, h2⟩ := treeAB_nodes
  intro s c
  have hT : codeMapOf loadsAB s = if s = 0x42#8 then some [true] else if s = 0x41#8 then some [false] else none := by
    by_cases hb : s = 0x42#8
    · subst hb; decide
    · by_cases ha : s = 0x41#8
      · subst ha; decide
      · have ea : (0x41#8 == s) = false := by simpa using Ne.symm ha
        have eb : (0x42#8 == s) = false := by simpa using Ne.symm hb
        simp [codeMapOf, loadsAB, List.find?, ea, eb, ha, hb]
  rw [hT]
  clear hT
  simp only [IsCode, h2]
  rcases c with _ | ⟨x, _ | ⟨y, c⟩⟩
  · simp only [follow, Option.some.injEq, exists_eq_left', h2]
    split <;> [skip; split] <;> simp
  · cases x <;> simp only [follow, h2, Option.some.injEq, exists_eq_left', h0, h1, Bool.false_eq_true, if_false, if_true] <;>
      by_cases hb : s = 0x42#8 <;> by_cases ha : s = 0x41#8 <;> simp_all [eq_comm]
  · cases x <;> simp only [follow, h2, h0, h1, Bool.false_eq_true, if_false, if_true] <;>
      (split <;> [skip; split] <;> simp)

theorem witness_DatapathRoundTrip :
    Agree (codeMapOf loadsAB) treeAB 2#9 ∧ ∀ d ∈ [0x41#8, 0x42#8, 0x42#8], (codeMapOf loadsAB d).isSome :=
  ⟨treeAB_agrees, by decide⟩

theorem witness_TreeCodesArePrefixFree : ∃ T Tr r, Agree T Tr r ∧ T 0x41#8 ≠ none ∧ T 0x42#8 ≠ none :=
  ⟨_, _, _, treeAB_agrees, by decide, by decide⟩

theorem witness_EncodeThenDecodeReturnsInput :
    (∀ p ∈ loadsAB, 1 ≤ p.2.length ∧ p.2.length ≤ 255) ∧
    Agree (codeMapOf loadsAB) (treeLeft (nodesAB.map fun p => decNode p.1 p.2)) 2#9 ∧
    (∀ d ∈ [0x41#8, 0x42#8], (codeMapOf loadsAB d).isSome) ∧ [0x41#8, 0x42#8].length ≤ 4294967295 ∧
    (payload (codeMapOf loadsAB) [0x41#8, 0x42#8]).length ≤ 4294967295 :=
  ⟨by decide, treeAB_agrees, by decide, by decide, by decide⟩

theorem witness_BitCountIsSumOfCodeLengths :
    ∃ t u, busy.enc.Inv ∧ busy.enc.eSt = .run ∧ runCommands (encPuts [0x42#8, 0x43#8]) busy = .next t ∧
      t.enc.eSt = .run ∧ exec .encFinish t = .next u ∧ u.enc.eSt = .done :=
  ⟨_, _, witness_Inv.enc, rfl, rfl, by decide, rfl, by decide⟩

/-- ENC's commands with a read and commands of DEC among them. -/
theorem witness_EncoderWholeRun :
    let is : List Instr := [.encReset, .decReset, .encLoad 0x41#8 [false], .encRd 0#4, .encLoad 0x42#8 [true], .encStart,
      .encPut 0x41#8, .decStart, .encPut 0x42#8, .encFinish]
    (∀ i ∈ is, i.wf = true) ∧ ownWork .enc is = encRun loadsAB [0x41#8, 0x42#8] ∧
    (∀ p ∈ loadsAB, 1 ≤ p.2.length) ∧ (∀ d ∈ [0x41#8, 0x42#8], (codeMapOf loadsAB d).isSome) ∧
    (payload (codeMapOf loadsAB) [0x41#8, 0x42#8]).length ≤ 4294967295 := by decide

/-- A configuration with the registers written out of order, and one of them twice. -/
def cfgAB : List Instr :=
  [.decWr 4#4 2#32, .decLeaf 0#9 0x41#8, .decWr 3#4 8#32, .decLeaf 1#9 0x42#8, .decInode 2#9 0#9 1#9, .decWr 3#4 6#32,
   .decWr 1#4 2#32, .decWr 2#4 1#32]

/-- The hypotheses of `DecoderWholeRun`, then a payload that decodes, one of the right length that does not, one too
short, a padding count above 7, and one too long. -/
theorem witness_DecoderWholeRun :
    (let is : List Instr := [.decReset, .encReset] ++ cfgAB ++ [.decRd 7#4, .decStart, .decPut 0x80#8, .encStart, .decFinish];
      (∀ i ∈ is, i.wf = true) ∧ ownWork .dec is = [.decReset] ++ cfgAB ++ [.decStart] ++ decPuts [0x80#8] ++ [.decFinish]) ∧
    (∀ i ∈ cfgAB, isDecConfig i = true) ∧
    ((regLeft cfgAB 1).toNat = 2 ∧ (regLeft cfgAB 2).toNat = 1 ∧ (regLeft cfgAB 3).toNat = 6 ∧
      (regLeft cfgAB 4).toNat = 2) ∧
    decompressPayload (treeLeft cfgAB) 2#9 2 1 6 [0x80#8] = .ok [0x42#8, 0x41#8] ∧
    decompressPayload (treeLeft cfgAB) 2#9 2 1 5 [0x80#8] = .error .length ∧
    decompressPayload (treeLeft cfgAB) 2#9 2 1 6 [] = .error .trunc ∧
    decompressPayload (treeLeft cfgAB) 2#9 2 1 8 [0x80#8] = .error .badHdr ∧
    decompressPayload (treeLeft cfgAB) 2#9 2 1 6 [0x80#8, 0x80#8] = .error .extra := by
  refine ⟨by decide, by decide, by decide, rfl, rfl, rfl, rfl, rfl⟩

theorem witness_FreqTableCountsOccurrences :
    freqTable [0x42#8, 0x41#8, 0x42#8] = some [(0x41#8, 1#32), (0x42#8, 2#32)] ∧ freqTable [] = some [] ∧
    2 ^ 32 ≤ (List.replicate (2 ^ 32) 0x41#8).count 0x41#8 :=
  ⟨by decide +kernel, by decide +kernel, Nat.le_of_eq List.count_replicate_self.symm⟩

/-- A container whose counts are at their ends and whose table R171 excludes, and one with too many entries to write. -/
theorem witness_ContainerRoundTrip :
    (Container.mk 4294967295#32 1#32 7#32 [(0x41#8, 4294967295#32), (0x41#8, 0#32)] []).freqs.length < 2 ^ 32 ∧
    2 ^ 32 ≤ (Container.mk 0#32 0#32 0#32 (List.replicate (2 ^ 32) (0x41#8, 1#32)) []).freqs.length :=
  ⟨by decide, Nat.le_of_eq List.length_replicate.symm⟩

theorem witness_BuilderNodeCount : freqV1 ≠ [] ∧ [(0x41#8, 3)] ≠ ([] : FreqTable) := by decide

/-- R105: an undefined child of an internal node makes a tree improper, though no path from the root reaches it. -/
theorem test_proper_asks_every_internal_node :
    ¬ ProperTree (treeLeft [.decLeaf 0#9 0x41#8, .decInode 5#9 6#9 7#9]) 0#9 := by
  intro h
  exact absurd (h.2.1 5#9 6#9 7#9 (by decide)).1 (by decide)

theorem witness_BuiltTreeIsProper : [(0x41#8, 3)] ≠ ([] : FreqTable) ∧ ([(0x41#8, 3)].map Prod.fst).Nodup := by decide

theorem witness_BuilderCodesAgreeWithTree : freqV1 ≠ [] ∧ (freqV1.map Prod.fst).Nodup := by decide

theorem witness_CompressDecompressRoundTrip :
    [0x41#8, 0x41#8, 0x42#8].length < 2 ^ 32 ∧
    (payload (codeMapOf (codesOfFreqs [(0x41#8, 2), (0x42#8, 1)])) [0x41#8, 0x41#8, 0x42#8]).length < 2 ^ 32 ∧
    freqTable [0x41#8, 0x41#8, 0x42#8] = some [(0x41#8, 2), (0x42#8, 1)] := by decide +kernel

end Sys2Proof.Tests
end

section
/-!
PROOFS for 00_scope.md: the bound R8 `MAXLEN` puts on a code, on the execution side and on the decoder's side.
-/

namespace Sys2Proof

@[simp] theorem codeBits_length (len : Nat) (ext : List Word) : (codeBits len ext).length = len := by simp [codeBits]

/-- What a legal word sequence says: the header announces its extension words and the row it selects gives the command. -/
theorem decode_ok {h : Word} {ext : List Word} {i : Instr} (hd : decode h ext = .ok i) :
    ext.length = extWords h ∧ ∃ r, selectRow h = some r ∧ decodeRow r.op h ext = .ok i := by
  unfold decode at hd
  split at hd
  · cases hd
  · next hlen =>
    split at hd
    · cases hd
    · next r hr => exact ⟨not_not.mp hlen, r, hr, hd⟩

/-- R78: only the row of `ENC.LOAD` gives an `ENC.LOAD`, and its operands are the fields of the header and the code
the field `len` cuts from the extension words. -/
theorem decodeRow_eq_encLoad {op : Op} {h : Word} {ext : List Word} {sym : Byte} {code : Bits}
    (hd : decodeRow op h ext = .ok (.encLoad sym code)) :
    op = .encLoad ∧ strayBits (lenField h).toNat ext = false ∧ sym = loadSymField h ∧
      code = codeBits (lenField h).toNat ext := by
  cases op
  case encLoad =>
    simp only [decodeRow] at hd
    split at hd
    · cases hd
    · next hstray =>
      cases hd
      exact ⟨rfl, Bool.eq_false_of_not_eq_true hstray, rfl, rfl⟩
  all_goals cases hd

/-- R78: the field `len` has 8 bits, so no words decode to a code longer than `MAXLEN`. -/
theorem length_le_maxLen_of_decode {h : Word} {ext : List Word} {sym : Byte} {code : Bits}
    (hd : decode h ext = .ok (.encLoad sym code)) : code.length ≤ Config.maxLen := by
  obtain ⟨-, r, -, hrow⟩ := decode_ok hd
  obtain ⟨-, -, -, rfl⟩ := decodeRow_eq_encLoad hrow
  calc (codeBits (lenField h).toNat ext).length
      = (lenField h).toNat := codeBits_length _ _
    _ ≤ Config.maxLen := Nat.le_of_lt_succ (lenField h).isLt

namespace Machine

/-- Log entry 7: the check on the length comes first, whatever state ENC is in. -/
theorem execEncLoad_of_overlong {code : Bits} (hlen : Config.maxLen < code.length) (sym : Byte) (s : State) :
    execEncLoad sym code s = .fault .overlongCode := if_pos hlen

end Machine

end Sys2Proof

namespace Sys2Proof.Proofs

open Sys2Proof Sys2Proof.Machine

/-- Settles O14: `ENC.LOAD` checks the length before all else, and the 8-bit field `len` bounds a decoded code. -/
theorem overlongCodeStopsByName : Obligations.OverlongCodeStopsByName :=
  ⟨fun s sym _ hlen => execEncLoad_of_overlong hlen sym s, fun _ _ _ _ hd => length_le_maxLen_of_decode hd⟩

end Sys2Proof.Proofs
end

section
/-!
PROOFS for 10_state.md, the laws they share: what one step can do, and what a command does to its own unit and to the
other (R20).
-/

namespace Sys2Proof.Machine

/-- Everything a step can do: it waits, or it takes the words of one command from `CMD` and executes the command, or
faults for the illegal one. -/
theorem step_cases {s t : State} (h : step s = .next t) :
    t = s ∨ ∃ hd ext rest, s.cmd = hd :: (ext ++ rest) ∧ ext.length = extWords hd ∧
      ((∃ i, exec i { s with cmd := rest } = .next t) ∨ execIllegal (unitOf hd) { s with cmd := rest } = .next t) := by
  unfold step at h
  split at h
  · cases h
    exact .inl rfl
  · next hd ext rest hf =>
    obtain ⟨hcmd, hlen⟩ := frame_some hf
    refine .inr ⟨hd, ext, rest, hcmd, hlen, ?_⟩
    split at h
    · exact .inl ⟨_, h⟩
    · exact .inr h

/-- A command that answers a next state is one that words encode: `exec` stops by name on every other. -/
theorem wf_of_exec {i : Instr} {s t : State} (h : exec i s = .next t) : i.wf = true := by
  cases i with
  | encLoad sym code =>
    refine decide_eq_true (Nat.not_lt.mp fun hlong => ?_)
    rw [exec, execEncLoad_of_overlong hlong] at h
    cases h
  | _ => rfl

/-- What an effect of ENC leaves: everything of DEC, and `CMD`. -/
theorem EncEffect.frame {s t : State} (h : EncEffect s t) : t.cmd = s.cmd ∧ t.dec = s.dec ∧ t.decOut = s.decOut := by
  cases h <;> exact ⟨rfl, rfl, rfl⟩

/-- What an effect of DEC leaves: everything of ENC, and `CMD`. -/
theorem DecEffect.frame {s t : State} (h : DecEffect s t) : t.cmd = s.cmd ∧ t.enc = s.enc ∧ t.encOut = s.encOut := by
  cases h <;> exact ⟨rfl, rfl, rfl⟩

theorem exec_frame_enc {i : Instr} {s t : State} (hu : i.unit = .enc) (h : exec i s = .next t) :
    t.cmd = s.cmd ∧ t.dec = s.dec ∧ t.decOut = s.decOut := by
  rcases exec_effect h with ⟨-, he⟩ | ⟨hd, -⟩
  · exact he.frame
  · rw [hu] at hd; cases hd

theorem exec_frame_dec {i : Instr} {s t : State} (hu : i.unit = .dec) (h : exec i s = .next t) :
    t.cmd = s.cmd ∧ t.enc = s.enc ∧ t.encOut = s.encOut := by
  rcases exec_effect h with ⟨he, -⟩ | ⟨-, hd⟩
  · rw [hu] at he; cases he
  · exact hd.frame

theorem exec_cmd_eq {i : Instr} {s t : State} (h : exec i s = .next t) : t.cmd = s.cmd := by
  cases hu : i.unit
  · exact (exec_frame_enc hu h).1
  · exact (exec_frame_dec hu h).1

theorem execIllegal_cmd_eq {u : HbcUnit} {s t : State} (h : execIllegal u s = .next t) : t.cmd = s.cmd := by
  rcases execIllegal_effect h with ⟨-, he⟩ | ⟨-, hd⟩
  · exact he.frame.1
  · exact hd.frame.1

/-- The gate of ENC does to another state with the same ENC what it does to this one. -/
theorem encCommand_reads_own {s s' t : State} {body : Except EncCause (EncState × List Byte)}
    (h : encCommand s body = .next t) (hs : s'.enc = s.enc) :
    ∃ bs, t.encOut = s.encOut ++ bs ∧ t.rsp = s.rsp ∧
      encCommand s' body = .next { s' with enc := t.enc, encOut := s'.encOut ++ bs } := by
  rcases encCommand_cases h with ⟨herr, rfl⟩ | ⟨hne, c, rfl, rfl⟩ | ⟨hne, e, bs, rfl, rfl⟩
  · exact ⟨[], by simp, rfl, by simp [encCommand_err (hs ▸ herr), ← hs]⟩
  · exact ⟨[], by simp, rfl, by simp [encCommand_error (hs ▸ hne), takeFault, hs]⟩
  · exact ⟨bs, rfl, rfl, encCommand_ok (hs ▸ hne) e bs⟩

/-- The gate of DEC does to another state with the same DEC what it does to this one. -/
theorem decCommand_reads_own {s s' t : State} {body : Except DecCause (DecState × List Byte)}
    (h : decCommand s body = .next t) (hs : s'.dec = s.dec) :
    ∃ bs, t.decOut = s.decOut ++ bs ∧ t.rsp = s.rsp ∧
      decCommand s' body = .next { s' with dec := t.dec, decOut := s'.decOut ++ bs } := by
  rcases decCommand_cases h with ⟨herr, rfl⟩ | ⟨hne, c, rfl, rfl⟩ | ⟨hne, d, bs, rfl, rfl⟩
  · exact ⟨[], by simp, rfl, by simp [decCommand_err (hs ▸ herr), ← hs]⟩
  · exact ⟨[], by simp, rfl, by simp [decCommand_error (hs ▸ hne), takeFault, hs]⟩
  · exact ⟨bs, rfl, rfl, decCommand_ok (hs ▸ hne) d bs⟩

/-- R63, for one command of ENC. -/
theorem exec_reads_enc {i : Instr} {s s' t : State} (hu : i.unit = .enc) (h : exec i s = .next t)
    (hs : s'.enc = s.enc) :
    ∃ (bs : List Byte) (ws : List Word), t.encOut = s.encOut ++ bs ∧ t.rsp = s.rsp ++ ws ∧
      exec i s' = .next { s' with enc := t.enc, encOut := s'.encOut ++ bs, rsp := s'.rsp ++ ws } := by
  rcases exec_shape h with ⟨rfl, rfl⟩ | ⟨rfl, -⟩ | ⟨-, -, v, rfl, ⟨-, hv⟩ | ⟨hd, -⟩⟩ | ⟨-, -, -, hc, hsame⟩ |
    ⟨-, -, hd, -⟩
  · exact ⟨[], [], by simp, by simp, by simp [exec, execEncReset, resetUnit]⟩
  · cases hu
  · exact ⟨[], [v], by simp, rfl, by simp [hv s' hs, respond, ← hs]⟩
  · rw [hu] at hd; cases hd
  · obtain ⟨bs, hout, hrsp, hrun⟩ := encCommand_reads_own hc hs
    exact ⟨bs, [], hout, by simp [hrsp], by simp [hsame s' hs, hrun]⟩
  · rw [hu] at hd; cases hd

/-- R63, for one command of DEC. -/
theorem exec_reads_dec {i : Instr} {s s' t : State} (hu : i.unit = .dec) (h : exec i s = .next t)
    (hs : s'.dec = s.dec) :
    ∃ (bs : List Byte) (ws : List Word), t.decOut = s.decOut ++ bs ∧ t.rsp = s.rsp ++ ws ∧
      exec i s' = .next { s' with dec := t.dec, decOut := s'.decOut ++ bs, rsp := s'.rsp ++ ws } := by
  rcases exec_shape h with ⟨rfl, -⟩ | ⟨rfl, rfl⟩ | ⟨-, -, v, rfl, ⟨he, -⟩ | ⟨-, hv⟩⟩ | ⟨-, -, he, -⟩ |
    ⟨-, -, -, hc, hsame⟩
  · cases hu
  · exact ⟨[], [], by simp, by simp, by simp [exec, execDecReset, resetUnit]⟩
  · rw [hu] at he; cases he
  · exact ⟨[], [v], by simp, rfl, by simp [hv s' hs, respond, ← hs]⟩
  · rw [hu] at he; cases he
  · obtain ⟨bs, hout, hrsp, hrun⟩ := decCommand_reads_own hc hs
    exact ⟨bs, [], hout, by simp [hrsp], by simp [hsame s' hs, hrun]⟩

end Sys2Proof.Machine
end

section
/-!
PROOFS for 10_state.md: the two units share nothing (R20), and R63 for whole sequences, by a simulation of the
interleaved run by the run of each unit's own commands.
-/

namespace Sys2Proof.Machine

/-- The relation between an interleaved run and the runs of the ENC commands and of the DEC commands alone, all three
started with the responses `r`: the units and their outputs agree, and the responses are as many. -/
structure SplitRun (r : List Word) (t te td : State) : Prop where
  enc : t.enc = te.enc
  encOut : t.encOut = te.encOut
  dec : t.dec = td.dec
  decOut : t.decOut = td.decOut
  rsp : ∃ ws we wd, t.rsp = r ++ ws ∧ te.rsp = r ++ we ∧ td.rsp = r ++ wd ∧ ws.length = we.length + wd.length

theorem SplitRun.start (s : State) : SplitRun s.rsp s s s :=
  ⟨rfl, rfl, rfl, rfl, [], [], [], by simp⟩

/-- A command of ENC is matched by the run of the ENC commands; the run of the DEC commands stays. -/
theorem SplitRun.step_enc {r : List Word} {t te td t' : State} {i : Instr} (hr : SplitRun r t te td)
    (hu : i.unit = .enc) (h : exec i t = .next t') : ∃ te', exec i te = .next te' ∧ SplitRun r t' te' td := by
  obtain ⟨bs, vs, hout, hrsp, hrun⟩ := exec_reads_enc hu h hr.enc.symm
  obtain ⟨-, hdec, hdecOut⟩ := exec_frame_enc hu h
  obtain ⟨ws, we, wd, hw, he, hd, hlen⟩ := hr.rsp
  refine ⟨_, hrun, rfl, by simp [hout, hr.encOut], hdec.trans hr.dec, hdecOut.trans hr.decOut,
    ws ++ vs, we ++ vs, wd, by simp [hrsp, hw], by simp [he], hd, ?_⟩
  simp only [List.length_append]; omega

/-- A command of DEC is matched by the run of the DEC commands; the run of the ENC commands stays. -/
theorem SplitRun.step_dec {r : List Word} {t te td t' : State} {i : Instr} (hr : SplitRun r t te td)
    (hu : i.unit = .dec) (h : exec i t = .next t') : ∃ td', exec i td = .next td' ∧ SplitRun r t' te td' := by
  obtain ⟨bs, vs, hout, hrsp, hrun⟩ := exec_reads_dec hu h hr.dec.symm
  obtain ⟨-, henc, hencOut⟩ := exec_frame_dec hu h
  obtain ⟨ws, we, wd, hw, he, hd, hlen⟩ := hr.rsp
  refine ⟨_, hrun, henc.trans hr.enc, hencOut.trans hr.encOut, rfl, by simp [hout, hr.decOut],
    ws ++ vs, we, wd ++ vs, by simp [hrsp, hw], he, by simp [hd], ?_⟩
  simp only [List.length_append]; omega

/-- The simulation over a whole sequence. -/
theorem SplitRun.run {r : List Word} {is : List Instr} (hwf : ∀ i ∈ is, i.wf = true) {s se sd : State}
    (hr : SplitRun r s se sd) :
    ∃ t te td, runCommands is s = .next t ∧
      runCommands (is.filter fun i => i.unit = .enc) se = .next te ∧
      runCommands (is.filter fun i => i.unit = .dec) sd = .next td ∧ SplitRun r t te td := by
  induction is generalizing s se sd with
  | nil => exact ⟨s, se, sd, rfl, rfl, rfl, hr⟩
  | cons i is ih =>
    obtain ⟨hi, his⟩ := List.forall_mem_cons.mp hwf
    obtain ⟨s', hs'⟩ := exec_total i s hi
    rw [runCommands_cons hs']
    cases hu : i.unit with
    | enc =>
      obtain ⟨se', hse', hr'⟩ := hr.step_enc hu hs'
      simpa [hu, runCommands_cons hse'] using ih his hr'
    | dec =>
      obtain ⟨sd', hsd', hr'⟩ := hr.step_dec hu hs'
      simpa [hu, runCommands_cons hsd'] using ih his hr'

end Sys2Proof.Machine

namespace Sys2Proof.Proofs

open Sys2Proof Sys2Proof.Machine

/-- Settles O31: from the effects a command of each unit can have. -/
theorem commandLeavesOtherUnit : Obligations.CommandLeavesOtherUnit := fun _ _ _ h =>
  ⟨exec_cmd_eq h, fun hu => (exec_frame_enc hu h).2, fun hu => (exec_frame_dec hu h).2⟩

/-- Settles O32: from the form of every command, a reset, a read, or the gate around a body over its own unit. -/
theorem commandReadsOwnUnitOnly : Obligations.CommandReadsOwnUnitOnly := fun _ _ _ _ h =>
  ⟨fun hu hs => exec_reads_enc hu h hs, fun hu hs => exec_reads_dec hu h hs⟩

/-- Settles O33: the relation `SplitRun` holds at the start and every command keeps it. -/
theorem interleavingGivesOwnSubsequence : Obligations.InterleavingGivesOwnSubsequence := by
  intro is s hwf
  obtain ⟨t, te, td, ht, hte, htd, hr⟩ := (SplitRun.start s).run hwf
  obtain ⟨ws, we, wd, hw, he, hd, hlen⟩ := hr.rsp
  refine ⟨t, te, td, ht, hte, htd, hr.enc, hr.encOut, hr.dec, hr.decOut, ws, hw, ?_⟩
  simpa [he, hd] using hlen

end Sys2Proof.Proofs
end

section
/-!
PROOFS for 10_state.md: the invariants of R43, one lemma per kind of register update of each unit, then the bodies of
the commands, the gate, and the step.
-/

namespace Sys2Proof.Machine

/-! ### ENC -/

theorem EncState.reset_inv : EncState.reset.Inv where
  accClean := fun _ _ => BitVec.getLsbD_zero
  errIff := by simp [EncState.reset]
  errLe := by simp [EncState.reset]
  ctWf := Table.wf_nil _
  codeLen := nofun
  cfgZero := fun _ => ⟨rfl, rfl, rfl⟩
  padZero := fun _ => rfl
  doneFlushed := nofun

/-- R201: no cause has code 0 or a code above 5. -/
theorem EncCause.code_range (c : EncCause) : c.code ≠ 0#4 ∧ c.code.toNat ≤ 5 := by
  cases c <;> decide

/-- R204: taking a fault keeps the invariants; those of the other run states no longer speak. -/
theorem EncState.Inv.fault {e : EncState} (hi : e.Inv) (c : EncCause) :
    ({ e with eSt := .err, eErr := c.code } : EncState).Inv :=
  { hi with
    errIff := by simp [c.code_range.1]
    errLe := c.code_range.2
    cfgZero := nofun
    padZero := by simp
    doneFlushed := nofun }

theorem EncState.Inv.load {e e' : EncState} {sym : Byte} {code : Bits} {bs : List Byte} (hi : e.Inv)
    (hlen : code.length ≤ Config.maxLen) (h : loadBody sym code e = .ok (e', bs)) : e'.Inv := by
  obtain ⟨-, hpos, rfl, -⟩ := loadBody_ok h
  refine { hi with ctWf := Table.wf_write hi.ctWf sym.isLt code, codeLen := fun p hp => ?_ }
  rcases Table.mem_write hp with rfl | hp
  · exact ⟨hpos, hlen⟩
  · exact hi.codeLen p hp

theorem EncState.Inv.start {e e' : EncState} {bs : List Byte} (hi : e.Inv) (h : encStartBody e = .ok (e', bs)) :
    e'.Inv := by
  obtain ⟨hcfg, rfl, -⟩ := encStartBody_ok h
  exact
    { hi with
      errIff := by simpa [hcfg] using hi.errIff
      cfgZero := nofun
      padZero := fun _ => hi.padZero (.inl hcfg)
      doneFlushed := nofun }

/-- R123: the packer keeps the accumulator clean (R43 (a)). -/
theorem EncState.Inv.put {e e' : EncState} {sym : Byte} {bs : List Byte} (hi : e.Inv)
    (h : encPutBody sym e = .ok (e', bs)) : e'.Inv := by
  obtain ⟨code, hrun, -, -, -, rfl, -⟩ := encPutBody_ok h
  obtain ⟨-, -, hclean⟩ := Packer.pushAll_spec ⟨e.eAcc, e.eNacc, []⟩ code
  exact
    { hi with
      accClean := (hclean hi.accClean).1
      cfgZero := fun hcfg => nomatch hrun.symm.trans hcfg
      doneFlushed := fun hdone => nomatch hrun.symm.trans hdone }

/-- R124: a flushed byte makes the payload non-empty, which has no wrap since a full `E_PAYLOAD` faults. -/
theorem EncState.Inv.finish {e e' : EncState} {bs : List Byte} (hi : e.Inv) (h : encFinishBody e = .ok (e', bs)) :
    e'.Inv := by
  obtain ⟨hrun, ⟨hn, rfl, -⟩ | ⟨-, hfull, rfl, -⟩⟩ := encFinishBody_ok h
  · exact
      { hi with
        errIff := by simpa [hrun] using hi.errIff
        cfgZero := nofun
        padZero := by simp
        doneFlushed := fun _ => ⟨BitVec.eq_of_toNat_eq hn, fun _ => rfl⟩ }
  · have hne : e.ePayload + 1#32 ≠ 0#32 := by
      simp only [Config.countMax] at hfull; bv_omega
    exact
      { hi with
        accClean := fun _ _ => BitVec.getLsbD_zero
        errIff := by simpa [hrun] using hi.errIff
        cfgZero := nofun
        padZero := by simp
        doneFlushed := fun _ => ⟨rfl, fun h => absurd h hne⟩ }

theorem EncState.Inv.encBody {i : Instr} {e e' : EncState} {bs : List Byte} (hi : e.Inv) (hw : i.wf = true)
    (h : Machine.encBody i e = .ok (e', bs)) : e'.Inv := by
  cases i with
  | encLoad sym code => exact hi.load (of_decide_eq_true hw) h
  | encStart => exact hi.start h
  | encPut sym => exact hi.put h
  | encFinish => exact hi.finish h
  | _ => exact nomatch h

/-! ### DEC -/

theorem DecState.reset_inv : DecState.reset.Inv where
  errIff := by simp [DecState.reset]
  errLe := by simp [DecState.reset]
  treeWf := Table.wf_nil _
  bytesLe := le_rfl
  outLe := le_rfl
  cfgZero := fun _ => ⟨rfl, rfl⟩
  padLe := by simp [DecState.reset]
  padPayload := by simp [DecState.reset]
  atRoot := nofun
  descending := nofun
  doneComplete := nofun

/-- R202: no cause has code 0 or a code above 9. -/
theorem DecCause.code_range (c : DecCause) : c.code ≠ 0#4 ∧ c.code.toNat ≤ 9 := by
  cases c <;> decide

/-- R204: taking a fault keeps the invariants; those of the other run states no longer speak. -/
theorem DecState.Inv.fault {d : DecState} (hi : d.Inv) (c : DecCause) :
    ({ d with dSt := .err, dErr := c.code } : DecState).Inv :=
  { hi with
    errIff := by simp [c.code_range.1]
    errLe := c.code_range.2
    cfgZero := nofun
    padLe := by simp
    padPayload := by simp
    atRoot := nofun
    descending := nofun
    doneComplete := nofun }

/-- R141, R142: in `CFG` the tree and the configuration registers may become anything: the counts are 0. -/
theorem DecState.Inv.configure {d : DecState} (hi : d.Inv) (hcfg : d.dSt = .cfg) {tree : Table Node}
    (htree : tree.wf Config.nNodes) (root : Handle) (orig payload pad : Word) :
    ({ d with tree := tree, dRoot := root, dOrig := orig, dPayload := payload, dPad := pad } : DecState).Inv := by
  obtain ⟨hbytes, hout⟩ := hi.cfgZero hcfg
  exact
    { hi with
      treeWf := htree
      bytesLe := by simp [hbytes]
      outLe := by simp [hout]
      padLe := by simp [hcfg]
      padPayload := by simp [hcfg]
      atRoot := by simp [hcfg]
      descending := by simp [hcfg]
      doneComplete := by simp [hcfg] }

theorem DecState.Inv.node {d d' : DecState} {idx : Handle} {n : Node} {bs : List Byte} (hi : d.Inv)
    (h : nodeBody idx n d = .ok (d', bs)) : d'.Inv := by
  obtain ⟨hcfg, rfl, -⟩ := nodeBody_ok h
  exact hi.configure hcfg (Table.wf_write hi.treeWf idx.isLt n) ..

theorem DecState.Inv.wr {d d' : DecState} {reg : RegNum} {value : Word} {bs : List Byte} (hi : d.Inv)
    (h : decWrBody reg value d = .ok (d', bs)) : d'.Inv := by
  obtain ⟨hcfg, hreg, -⟩ := decWrBody_ok h
  rcases decWriteReg_some hreg with ⟨-, rfl⟩ | ⟨-, rfl⟩ | ⟨-, rfl⟩ | ⟨-, -, rfl⟩ <;>
    exact hi.configure hcfg hi.treeWf ..

theorem DecState.Inv.start {d d' : DecState} {bs : List Byte} (hi : d.Inv) (h : decStartBody d = .ok (d', bs)) :
    d'.Inv := by
  obtain ⟨hcfg, hpad, hpayload, rfl, -⟩ := decStartBody_ok h
  exact
    { hi with
      errIff := by simpa [hcfg] using hi.errIff
      cfgZero := nofun
      padLe := fun _ => hpad
      padPayload := fun _ (h0 : d.dPayload = 0#32) => show d.dPad = 0#32 by bv_omega
      atRoot := fun _ _ => rfl
      descending := nofun
      doneComplete := nofun }

/-- R43 (d): in `RUN` a walk position is the root or an internal node the walk descends from. -/
theorem DecState.Inv.moveTo {d : DecState} (hi : d.Inv) (hrun : d.dSt = .run) {cur : Handle} {desc : Bool}
    {out : Word} (hout : out.toNat ≤ d.dOrig.toNat) (hroot : desc = false → cur = d.dRoot)
    (hnode : desc = true → ∃ l r, d.node cur = some (.inode l r)) :
    ({ d with dCur := cur, dDesc := desc, dOut := out } : DecState).Inv :=
  { hi with
    outLe := hout
    cfgZero := by simp [hrun]
    atRoot := fun _ => hroot
    descending := fun _ => hnode
    doneComplete := by simp [hrun] }

/-- R145: one walk step keeps the invariants. A walk that stands on a leaf is at the root, so it does not descend. -/
theorem DecState.Inv.decBit {x : Bool} {d d' : DecState} {bs : List Byte} (hi : d.Inv) (hrun : d.dSt = .run)
    (h : Machine.decBit x d = .ok (d', bs)) : d'.Inv := by
  obtain ⟨-, hout, horig⟩ := decBit_le hi.outLe h
  rcases decBit_ok h with ⟨sym, hleaf, -, -, rfl, -⟩ | ⟨l, r, sym, -, -, -, rfl, -⟩ | ⟨l, r, l', r', -, hc, rfl, -⟩
  · refine hi.moveTo hrun hout (hi.atRoot hrun) fun hdesc => ?_
    obtain ⟨l, r, hinode⟩ := hi.descending hrun hdesc
    exact nomatch hleaf.symm.trans hinode
  · exact hi.moveTo hrun hout (fun _ => rfl) nofun
  · exact hi.moveTo hrun hi.outLe nofun fun _ => ⟨l', r', hc⟩

/-- A walk over a first bit and the rest, taken apart. -/
theorem decWalk_cons_ok {x : Bool} {xs : Bits} {d d' : DecState} {bs : List Byte}
    (h : decWalk (x :: xs) d = .ok (d', bs)) :
    ∃ d₁ bs₁ bs₂, decBit x d = .ok (d₁, bs₁) ∧ decWalk xs d₁ = .ok (d', bs₂) ∧ bs = bs₁ ++ bs₂ := by
  simp only [decWalk] at h
  split at h
  · cases h
  · next d₁ bs₁ h₁ =>
    split at h
    · cases h
    · next d₂ bs₂ h₂ => cases h; exact ⟨d₁, bs₁, bs₂, h₁, h₂, rfl⟩

theorem decBit_dSt {x : Bool} {d d' : DecState} {bs : List Byte} (h : decBit x d = .ok (d', bs)) :
    d'.dSt = d.dSt := by
  rcases decBit_ok h with ⟨_, -, -, -, rfl, -⟩ | ⟨_, _, _, -, -, -, rfl, -⟩ | ⟨_, _, _, _, -, -, rfl, -⟩ <;> rfl

theorem DecState.Inv.decWalk {bits : Bits} {d d' : DecState} {bs : List Byte} (hi : d.Inv) (hrun : d.dSt = .run)
    (h : Machine.decWalk bits d = .ok (d', bs)) : d'.Inv := by
  induction bits generalizing d bs with
  | nil => cases h; exact hi
  | cons x xs ih =>
    obtain ⟨d₁, _, _, h₁, h₂, -⟩ := decWalk_cons_ok h
    exact ih (hi.decBit hrun h₁) ((decBit_dSt h₁).trans hrun) h₂

/-- R146: a byte is taken only while `D_BYTES` differs from `D_PAYLOAD`, so that it stays at most that. -/
theorem DecState.Inv.put {d d' : DecState} {byte : Byte} {bs : List Byte} (hi : d.Inv)
    (h : decPutBody byte d = .ok (d', bs)) : d'.Inv := by
  obtain ⟨hrun, hne, w, hwalk, rfl⟩ := decPutBody_ok h
  obtain ⟨hst, -, -, -, -, hpayload, -, hbytes⟩ := decWalk_frame hwalk
  have hw := hi.decWalk hrun hwalk
  have hwrun := hst.trans hrun
  have hle := hi.bytesLe
  exact
    { hw with
      bytesLe := show (w.dBytes + 1#32).toNat ≤ w.dPayload.toNat by rw [hbytes, hpayload]; bv_omega
      cfgZero := by simp [hwrun]
      doneComplete := by simp [hwrun] }

theorem DecState.Inv.finish {d d' : DecState} {bs : List Byte} (hi : d.Inv) (h : decFinishBody d = .ok (d', bs)) :
    d'.Inv := by
  obtain ⟨hrun, hbytes, hdesc, hout, rfl, -⟩ := decFinishBody_ok h
  exact
    { hi with
      errIff := by simpa [hrun] using hi.errIff
      cfgZero := nofun
      padLe := fun _ => hi.padLe (.inl hrun)
      padPayload := fun _ => hi.padPayload (.inl hrun)
      atRoot := nofun
      descending := nofun
      doneComplete := fun _ => ⟨hbytes, hdesc, hout⟩ }

theorem DecState.Inv.decBody {i : Instr} {d d' : DecState} {bs : List Byte} (hi : d.Inv)
    (h : Machine.decBody i d = .ok (d', bs)) : d'.Inv := by
  cases i with
  | decLeaf idx sym => exact hi.node h
  | decInode idx l r => exact hi.node h
  | decStart => exact hi.start h
  | decPut byte => exact hi.put h
  | decFinish => exact hi.finish h
  | decWr reg value => exact hi.wr h
  | _ => exact nomatch h

/-! ### The machine -/

theorem State.Inv.encCommand {s t : State} {body : Except EncCause (EncState × List Byte)} (hi : s.Inv)
    (hbody : ∀ e bs, body = .ok (e, bs) → e.Inv) (h : Machine.encCommand s body = .next t) : t.Inv := by
  rcases encCommand_cases h with ⟨-, rfl⟩ | ⟨-, c, -, rfl⟩ | ⟨-, e, bs, hok, rfl⟩
  · exact hi
  · exact ⟨hi.enc.fault c, hi.dec⟩
  · exact ⟨hbody e bs hok, hi.dec⟩

theorem State.Inv.decCommand {s t : State} {body : Except DecCause (DecState × List Byte)} (hi : s.Inv)
    (hbody : ∀ d bs, body = .ok (d, bs) → d.Inv) (h : Machine.decCommand s body = .next t) : t.Inv := by
  rcases decCommand_cases h with ⟨-, rfl⟩ | ⟨-, c, -, rfl⟩ | ⟨-, d, bs, hok, rfl⟩
  · exact hi
  · exact ⟨hi.enc, hi.dec.fault c⟩
  · exact ⟨hi.enc, hbody d bs hok⟩

theorem State.Inv.exec {i : Instr} {s t : State} (hi : s.Inv) (h : Machine.exec i s = .next t) : t.Inv := by
  rcases exec_shape h with ⟨-, rfl⟩ | ⟨-, rfl⟩ | ⟨-, -, v, rfl, -⟩ | ⟨-, -, -, hc, -⟩ | ⟨-, -, -, hc, -⟩
  · exact ⟨EncState.reset_inv, hi.dec⟩
  · exact ⟨hi.enc, DecState.reset_inv⟩
  · exact ⟨hi.enc, hi.dec⟩
  · exact hi.encCommand (fun _ _ hok => hi.enc.encBody (wf_of_exec h) hok) hc
  · exact hi.decCommand (fun _ _ hok => hi.dec.decBody hok) hc

theorem State.Inv.execIllegal {u : HbcUnit} {s t : State} (hi : s.Inv) (h : Machine.execIllegal u s = .next t) :
    t.Inv := by
  cases u with
  | enc => exact hi.encCommand (body := .error .illegal) nofun h
  | dec => exact hi.decCommand (body := .error .illegal) nofun h

/-- No invariant speaks of `CMD`. -/
theorem State.Inv.withCmd {s : State} (hi : s.Inv) (ws : List Word) : ({ s with cmd := ws } : State).Inv :=
  ⟨hi.enc, hi.dec⟩

theorem State.Inv.step {s t : State} (hi : s.Inv) (h : Machine.step s = .next t) : t.Inv := by
  rcases step_cases h with rfl | ⟨_, _, rest, -, -, ⟨i, hexec⟩ | hill⟩
  · exact hi
  · exact (hi.withCmd rest).exec hexec
  · exact (hi.withCmd rest).execIllegal hill

end Sys2Proof.Machine

namespace Sys2Proof.Proofs

open Sys2Proof Sys2Proof.Machine

/-- Settles O38: every body of a command, a fault and a reset keep the invariants of their unit. -/
theorem stepKeepsInvariants : Obligations.StepKeepsInvariants := fun _ _ hi h => hi.step h

/-- Settles O39: from the reset values of both units. -/
theorem powerOnMeetsInvariants : Obligations.PowerOnMeetsInvariants := ⟨EncState.reset_inv, DecState.reset_inv⟩

end Sys2Proof.Proofs
end

section
/-!
PROOFS for 10_state.md: how much one step appends to the streams and takes from `CMD` (R42, R58).
-/

namespace Sys2Proof.Machine

/-- R8 `MAXLEN`: a put appends at most 7 + 255 bits to the held ones, so at most 32 whole bytes; a finish appends one. -/
theorem encBody_out_length_le {i : Instr} {e e' : EncState} {bs : List Byte} (hi : e.Inv)
    (h : encBody i e = .ok (e', bs)) : bs.length ≤ 32 := by
  cases i with
  | encLoad sym code => obtain ⟨-, -, -, rfl⟩ := loadBody_ok h; simp
  | encStart => obtain ⟨-, -, rfl⟩ := encStartBody_ok h; simp
  | encPut sym =>
    obtain ⟨code, -, hcode, -, -, -, rfl⟩ := encPutBody_ok h
    obtain ⟨-, hout, -⟩ := Packer.pushAll_spec ⟨e.eAcc, e.eNacc, []⟩ code
    have hlen : code.length ≤ 255 := (hi.codeLen _ (Table.mem_of_read hcode)).2
    have hheld := e.eNacc.isLt
    simp only [List.length_nil] at hout
    omega
  | encFinish => obtain ⟨-, ⟨-, -, rfl⟩ | ⟨-, -, -, rfl⟩⟩ := encFinishBody_ok h <;> simp
  | _ => exact nomatch h

/-- R145, R146: each of the at most 8 bits walked emits at most one symbol. -/
theorem decBody_out_length_le {i : Instr} {d d' : DecState} {bs : List Byte}
    (h : decBody i d = .ok (d', bs)) : bs.length ≤ 8 := by
  cases i with
  | decLeaf idx sym => obtain ⟨-, -, rfl⟩ := nodeBody_ok h; simp
  | decInode idx l r => obtain ⟨-, -, rfl⟩ := nodeBody_ok h; simp
  | decStart => obtain ⟨-, -, -, -, rfl⟩ := decStartBody_ok h; simp
  | decPut byte =>
    obtain ⟨-, -, w, hwalk, -⟩ := decPutBody_ok h
    calc bs.length
        ≤ ((bits8 byte).take (liveBits d)).length := (decWalk_ok hwalk).2
      _ ≤ (bits8 byte).length := List.length_take_le' ..
      _ = 8 := bits8_length byte
  | decFinish => obtain ⟨-, -, -, -, -, rfl⟩ := decFinishBody_ok h; simp
  | decWr reg value => obtain ⟨-, -, rfl⟩ := decWrBody_ok h; simp
  | _ => exact nomatch h

/-- The output streams of `t` are those of `s` with at most 32 bytes, 8 symbols and one response appended. -/
structure OutputsGrow (s t : State) : Prop where
  encOut : ∃ bs, t.encOut = s.encOut ++ bs ∧ bs.length ≤ 32
  decOut : ∃ bs, t.decOut = s.decOut ++ bs ∧ bs.length ≤ 8
  rsp : ∃ ws, t.rsp = s.rsp ++ ws ∧ ws.length ≤ 1

theorem exists_append_of_eq {α : Type} {xs ys : List α} (h : ys = xs) (n : Nat) :
    ∃ zs, ys = xs ++ zs ∧ zs.length ≤ n :=
  ⟨[], by simp [h], Nat.zero_le n⟩

theorem OutputsGrow.unchanged {s t : State} (henc : t.encOut = s.encOut) (hdec : t.decOut = s.decOut)
    (hrsp : t.rsp = s.rsp) : OutputsGrow s t :=
  ⟨exists_append_of_eq henc _, exists_append_of_eq hdec _, exists_append_of_eq hrsp _⟩

theorem encCommand_outputsGrow {s t : State} {body : Except EncCause (EncState × List Byte)}
    (hbody : ∀ e bs, body = .ok (e, bs) → bs.length ≤ 32) (h : encCommand s body = .next t) : OutputsGrow s t := by
  rcases encCommand_cases h with ⟨-, rfl⟩ | ⟨-, c, -, rfl⟩ | ⟨-, e, bs, hok, rfl⟩
  · exact .unchanged rfl rfl rfl
  · exact .unchanged rfl rfl rfl
  · exact ⟨⟨bs, rfl, hbody e bs hok⟩, exists_append_of_eq rfl _, exists_append_of_eq rfl _⟩

theorem decCommand_outputsGrow {s t : State} {body : Except DecCause (DecState × List Byte)}
    (hbody : ∀ d bs, body = .ok (d, bs) → bs.length ≤ 8) (h : decCommand s body = .next t) : OutputsGrow s t := by
  rcases decCommand_cases h with ⟨-, rfl⟩ | ⟨-, c, -, rfl⟩ | ⟨-, d, bs, hok, rfl⟩
  · exact .unchanged rfl rfl rfl
  · exact .unchanged rfl rfl rfl
  · exact ⟨exists_append_of_eq rfl _, ⟨bs, rfl, hbody d bs hok⟩, exists_append_of_eq rfl _⟩

theorem exec_outputsGrow {i : Instr} {s t : State} (hi : s.Inv) (h : exec i s = .next t) : OutputsGrow s t := by
  rcases exec_shape h with ⟨-, rfl⟩ | ⟨-, rfl⟩ | ⟨-, -, v, rfl, -⟩ | ⟨-, -, -, hc, -⟩ | ⟨-, -, -, hc, -⟩
  · exact .unchanged rfl rfl rfl
  · exact .unchanged rfl rfl rfl
  · exact ⟨exists_append_of_eq rfl _, exists_append_of_eq rfl _, [v], rfl, le_rfl⟩
  · exact encCommand_outputsGrow (fun _ _ hok => encBody_out_length_le hi.enc hok) hc
  · exact decCommand_outputsGrow (fun _ _ hok => decBody_out_length_le hok) hc

theorem execIllegal_outputsGrow {u : HbcUnit} {s t : State} (h : execIllegal u s = .next t) : OutputsGrow s t := by
  cases u with
  | enc => exact encCommand_outputsGrow (body := .error .illegal) nofun h
  | dec => exact decCommand_outputsGrow (body := .error .illegal) nofun h

/-- R74: 255 code bits need 8 extension words. -/
theorem extWords_le (h : Word) : extWords h ≤ 8 := by
  have hlen := (lenField h).isLt
  unfold extWords
  split
  · omega
  · split <;> omega

end Sys2Proof.Machine

namespace Sys2Proof.Proofs

open Sys2Proof Sys2Proof.Machine

/-- Settles O35: the outputs by what a command can do, `CMD` by the words a step takes for one. -/
theorem streamsOnlyGrow : Obligations.StreamsOnlyGrow := by
  intro s t hi h
  rcases step_cases h with rfl | ⟨hd, ext, rest, hcmd, hlen, hrun⟩
  · obtain ⟨henc, hdec, hrsp⟩ : OutputsGrow t t := .unchanged rfl rfl rfl
    exact ⟨henc, hdec, hrsp, [], rfl, Nat.zero_le _⟩
  · have hgrow : OutputsGrow { s with cmd := rest } t ∧ t.cmd = rest := by
      rcases hrun with ⟨i, hexec⟩ | hill
      · exact ⟨exec_outputsGrow (hi.withCmd rest) hexec, exec_cmd_eq hexec⟩
      · exact ⟨execIllegal_outputsGrow hill, execIllegal_cmd_eq hill⟩
    obtain ⟨⟨henc, hdec, hrsp⟩, htcmd⟩ := hgrow
    refine ⟨henc, hdec, hrsp, hd :: ext, by simp [hcmd, htcmd], ?_⟩
    have := extWords_le hd
    simp only [List.length_cons]; omega

end Sys2Proof.Proofs
end

section
/-!
PROOFS for 10_state.md: R43 (b), the number of bits ENC has taken in, over puts and at the finish (R113, R124).
-/

namespace Sys2Proof.Machine

/-- R43 (b): the bits ENC has taken in, those of the bytes emitted and those still held. -/
def EncState.bitCount (e : EncState) : Nat := 8 * e.ePayload.toNat + e.eNacc.toNat

/-- R123, for one put that succeeds: neither count wraps, since both are checked against `COUNT_MAX` first. -/
theorem encPutBody_counts {sym : Byte} {e e' : EncState} {bs : List Byte} (h : encPutBody sym e = .ok (e', bs)) :
    e'.bitCount = e.bitCount + ((e.code sym).getD []).length ∧ e'.eOrig.toNat = e.eOrig.toNat + 1 ∧
      e'.code = e.code := by
  obtain ⟨code, -, hcode, horig, hpayload, rfl, -⟩ := encPutBody_ok h
  obtain ⟨hn, -, -⟩ := Packer.pushAll_spec ⟨e.eAcc, e.eNacc, []⟩ code
  simp only [Config.countMax] at horig hpayload
  refine ⟨?_, ?_, rfl⟩
  · have hp : (e.ePayload + BitVec.ofNat 32 ((e.eNacc.toNat + code.length) / 8)).toNat =
        e.ePayload.toNat + (e.eNacc.toNat + code.length) / 8 := by
      rw [BitVec.toNat_add, BitVec.toNat_ofNat]; omega
    simp only [EncState.bitCount, hp, hn, hcode, Option.getD_some]
    omega
  · show (e.eOrig + 1#32).toNat = _
    bv_omega

/-- R124, for a finish that succeeds: the padding fills the last byte up. -/
theorem encFinishBody_counts {e e' : EncState} {bs : List Byte} (h : encFinishBody e = .ok (e', bs)) :
    8 * e'.ePayload.toNat = e.bitCount + e'.ePad.toNat := by
  obtain ⟨-, ⟨hn, rfl, -⟩ | ⟨hn, hfull, rfl, -⟩⟩ := encFinishBody_ok h
  · simp [EncState.bitCount, hn]
  · simp only [Config.countMax] at hfull
    have hp : (e.ePayload + 1#32).toNat = e.ePayload.toNat + 1 := by bv_omega
    have hlt := e.eNacc.isLt
    simp only [EncState.bitCount, hp, BitVec.toNat_ofNat]
    omega

/-- A command of ENC after which the unit is not in `ERR` had an effect of its own. -/
theorem encCommand_ok_of_ne_err {s t : State} {body : Except EncCause (EncState × List Byte)}
    (h : encCommand s body = .next t) (ht : t.enc.eSt ≠ .err) : ∃ bs, body = .ok (t.enc, bs) := by
  rcases encCommand_cases h with ⟨herr, rfl⟩ | ⟨-, c, -, rfl⟩ | ⟨-, e, bs, hok, rfl⟩
  · exact absurd herr ht
  · exact absurd rfl ht
  · exact ⟨bs, hok⟩

/-- R206: puts are ignored in `ERR`. -/
theorem runCommands_encPuts_of_err {s : State} (herr : s.enc.eSt = .err) (D : List Byte) :
    runCommands (encPuts D) s = .next s := by
  induction D with
  | nil => rfl
  | cons d D ih =>
    have hput : exec (.encPut d) s = .next s := encCommand_err herr _
    exact (runCommands_cons hput).trans ih

/-- Puts after which ENC is in `RUN`: the first succeeded, and the others go on from `RUN`. -/
theorem runCommands_encPuts_cons {d : Byte} {D : List Byte} {s t : State}
    (h : runCommands (encPuts (d :: D)) s = .next t) (ht : t.enc.eSt = .run) :
    ∃ s₁ bs, encPutBody d s.enc = .ok (s₁.enc, bs) ∧ runCommands (encPuts D) s₁ = .next t := by
  obtain ⟨s₁, hput⟩ := exec_total (.encPut d) s rfl
  have hrest : runCommands (encPuts D) s₁ = .next t := (runCommands_cons hput).symm.trans h
  have hne : s₁.enc.eSt ≠ .err := fun herr => by
    cases (runCommands_encPuts_of_err herr D).symm.trans hrest
    exact nomatch herr.symm.trans ht
  obtain ⟨bs, hok⟩ := encCommand_ok_of_ne_err hput hne
  exact ⟨s₁, bs, hok, hrest⟩

/-- R113: over puts that do not fault, the bits taken in grow by the codes put. -/
theorem runCommands_encPuts_counts {D : List Byte} {s t : State}
    (h : runCommands (encPuts D) s = .next t) (ht : t.enc.eSt = .run) :
    t.enc.bitCount = s.enc.bitCount + (encBits s.enc.code D).length ∧
      t.enc.eOrig.toNat = s.enc.eOrig.toNat + D.length := by
  induction D generalizing s with
  | nil => cases h; exact ⟨rfl, rfl⟩
  | cons d D ih =>
    obtain ⟨s₁, bs, hok, hrest⟩ := runCommands_encPuts_cons h ht
    obtain ⟨hbits, horig, hcode⟩ := encPutBody_counts hok
    obtain ⟨ihbits, ihorig⟩ := ih hrest
    rw [hcode] at ihbits
    have hcons : (encBits s.enc.code (d :: D)).length =
        ((s.enc.code d).getD []).length + (encBits s.enc.code D).length := by
      simp [encBits]
    simp only [List.length_cons]
    omega

end Sys2Proof.Machine

namespace Sys2Proof.Proofs

open Sys2Proof Sys2Proof.Machine

/-- Settles O46: by induction on the symbols put; the finish moves the bits held into the last byte. -/
theorem bitCountIsSumOfCodeLengths : Obligations.BitCountIsSumOfCodeLengths := by
  intro s t D _ _ h ht
  obtain ⟨hbits, horig⟩ := runCommands_encPuts_counts h ht
  refine ⟨hbits, horig, fun u hfinish hdone => ?_⟩
  obtain ⟨bs, hok⟩ := encCommand_ok_of_ne_err hfinish (by simp [hdone])
  exact encFinishBody_counts hok

end Sys2Proof.Proofs
end

section
/-!
PROOFS for 10_state.md: the reset values of R46 and the hardware reset input (R220, R222).
-/

namespace Sys2Proof.Machine

theorem EncState.code_reset (sym : Byte) : EncState.reset.code sym = none := Table.read_nil _

theorem DecState.node_reset (h : Handle) : DecState.reset.node h = none := Table.read_nil _

/-- R220: the hardware reset input does what the two `RESET` commands do, one after the other. -/
theorem runCommands_resets (s : State) : runCommands [.encReset, .decReset] s = .next (hardwareReset s) := rfl

end Sys2Proof.Machine

namespace Sys2Proof.Proofs

open Sys2Proof Sys2Proof.Machine

/-- Settles O40: every register of the reset states is read off; the tables are empty. -/
theorem resetValues : Obligations.ResetValues :=
  ⟨fun s => ⟨rfl, runCommands_resets s⟩, ⟨rfl, rfl, rfl, rfl⟩,
    ⟨rfl, rfl, EncState.code_reset, rfl, rfl, rfl, rfl, rfl⟩,
    ⟨rfl, rfl, DecState.node_reset, rfl, rfl, rfl, rfl, rfl, rfl, rfl, rfl⟩⟩

end Sys2Proof.Proofs
end

section
/-!
PROOFS for 20_memory.md: the decoder reads back every well-formed command the encoder writes (R77 to R82), the fields
of each format first.
-/

namespace Sys2Proof

/-! ### The fields of the header words the encoder writes (R77) -/

theorem headerZ_fields (op : BitVec 4) : opField (headerZ op) = op ∧ (headerZ op).extractLsb' 0 28 = 0#28 := by
  refine ⟨opField_headerZ op, extract_eq _ _ _ fun j hj => ?_⟩
  rw [headerZ_getLsbD, if_pos (by omega)]; simp

theorem headerS_fields (op : BitVec 4) (sym : Byte) :
    opField (headerS op sym) = op ∧ (headerS op sym).extractLsb' 8 20 = 0#20 := by
  refine ⟨opField_headerS op sym, extract_eq _ _ _ fun j hj => ?_⟩
  rw [headerS_getLsbD, if_neg (by omega), if_pos (by omega)]; simp

@[simp] theorem symField_headerS (op : BitVec 4) (sym : Byte) : symField (headerS op sym) = sym :=
  extract_eq _ _ _ fun j hj => by
    rw [headerS_getLsbD, if_pos (by omega)]; congr 1; omega

theorem headerR_fields (op : BitVec 4) (reg : RegNum) :
    opField (headerR op reg) = op ∧ (headerR op reg).extractLsb' 4 24 = 0#24 := by
  refine ⟨opField_headerR op reg, extract_eq _ _ _ fun j hj => ?_⟩
  rw [headerR_getLsbD, if_neg (by omega), if_pos (by omega)]; simp

@[simp] theorem regField_headerR (op : BitVec 4) (reg : RegNum) : regField (headerR op reg) = reg :=
  extract_eq _ _ _ fun j hj => by
    rw [headerR_getLsbD, if_pos (by omega)]; congr 1; omega

theorem headerL_fields (sym : Byte) (len : LenField) :
    opField (headerL sym len) = 0x1#4 ∧ (headerL sym len).extractLsb' 0 12 = 0#12 := by
  refine ⟨opField_headerL sym len, extract_eq _ _ _ fun j hj => ?_⟩
  rw [headerL_getLsbD, if_pos (by omega)]; simp

@[simp] theorem loadSymField_headerL (sym : Byte) (len : LenField) : loadSymField (headerL sym len) = sym :=
  extract_eq _ _ _ fun j hj => by
    rw [headerL_getLsbD, if_neg (by omega), if_neg (by omega), if_pos (by omega)]; congr 1; omega

theorem headerLeaf_fields (idx : Handle) (sym : Byte) :
    opField (headerLeaf idx sym) = 0x9#4 ∧ (headerLeaf idx sym).extractLsb' 8 11 = 1024#11 := by
  refine ⟨opField_headerLeaf idx sym, extract_eq _ _ _ fun j hj => ?_⟩
  have hbit : ∀ k, k < 11 → (1024#11).getLsbD k = decide (k = 10) := by decide
  rw [headerLeaf_getLsbD, if_neg (by omega), hbit j hj]
  by_cases h10 : j = 10
  · rw [if_neg (by omega), if_pos (by omega), decide_eq_true h10]
  · rw [if_pos (by omega), decide_eq_false h10]

@[simp] theorem idxField_headerLeaf (idx : Handle) (sym : Byte) : idxField (headerLeaf idx sym) = idx :=
  extract_eq _ _ _ fun j hj => by
    rw [headerLeaf_getLsbD, if_neg (by omega), if_neg (by omega), if_neg (by omega), if_pos (by omega)]; congr 1; omega

@[simp] theorem symField_headerLeaf (idx : Handle) (sym : Byte) : symField (headerLeaf idx sym) = sym :=
  extract_eq _ _ _ fun j hj => by
    rw [headerLeaf_getLsbD, if_pos (by omega)]; congr 1; omega

theorem headerInode_fields (idx left right : Handle) :
    opField (headerInode idx left right) = 0x9#4 ∧ (headerInode idx left right).extractLsb' 18 1 = 0#1 := by
  refine ⟨opField_headerInode idx left right, extract_eq _ _ _ fun j hj => ?_⟩
  rw [headerInode_getLsbD, if_neg (by omega), if_neg (by omega), if_pos (by omega)]; simp

@[simp] theorem idxField_headerInode (idx left right : Handle) : idxField (headerInode idx left right) = idx :=
  extract_eq _ _ _ fun j hj => by
    rw [headerInode_getLsbD, if_neg (by omega), if_neg (by omega), if_neg (by omega), if_pos (by omega)]; congr 1; omega

@[simp] theorem leftField_headerInode (idx left right : Handle) : leftField (headerInode idx left right) = left :=
  extract_eq _ _ _ fun j hj => by
    rw [headerInode_getLsbD, if_neg (by omega), if_pos (by omega)]; congr 1; omega

@[simp] theorem rightField_headerInode (idx left right : Handle) : rightField (headerInode idx left right) = right :=
  extract_eq _ _ _ fun j hj => by
    rw [headerInode_getLsbD, if_pos (by omega)]; congr 1; omega

/-! ### The code operand of ENC.LOAD (R79) -/

/-- R79: the extension words hold nothing but zeros beyond the code. -/
@[simp] theorem strayBits_codeExt (code : Bits) : strayBits code.length (codeExt code) = false := by
  rw [strayBits, List.any_eq_false]
  intro k hk
  have hlt : code.length + k < 32 * (codeExt code).length := by
    have := List.mem_range.mp hk; omega
  rw [codeExt_length] at hlt
  rw [codeBit_codeExt code _ hlt, List.getD_eq_default _ _ (Nat.le_add_right _ _)]
  exact Bool.false_ne_true

/-- R79: the code is read back from its extension words. -/
@[simp] theorem codeBits_codeExt (code : Bits) : codeBits code.length (codeExt code) = code := by
  refine List.ext_getElem (codeBits_length _ _) fun k _ hk => ?_
  simp only [codeBits, List.getElem_map, List.getElem_range]
  rw [codeBit_codeExt code k (by omega), List.getD_eq_getElem _ _ hk]

/-! ### The row of a header word (R82) -/

/-- R82: no two rows agree on the bits both their masks cover. -/
theorem opcodeRows_patterns_differ :
    ∀ r ∈ opcodeRows, ∀ q ∈ opcodeRows, r.pattern &&& q.mask = q.pattern &&& r.mask → r = q := by
  decide

/-- R82: "The rows are mutually exclusive". -/
theorem opcodeRow_unique {h : Word} {r q : OpRow} (hr : r ∈ opcodeRows) (hq : q ∈ opcodeRows)
    (hsr : h &&& r.mask = r.pattern) (hsq : h &&& q.mask = q.pattern) : r = q :=
  opcodeRows_patterns_differ r hr q hq <| by
    rw [← hsr, ← hsq, BitVec.and_assoc, BitVec.and_assoc, BitVec.and_comm r.mask]

/-- The first row that selects the word is the only one. -/
theorem selectRow_eq_some {h : Word} {r : OpRow} (hr : r ∈ opcodeRows) (hs : h &&& r.mask = r.pattern) :
    selectRow h = some r := by
  obtain ⟨q, hq⟩ : ∃ q, selectRow h = some q :=
    Option.isSome_iff_exists.mp (List.find?_isSome.mpr ⟨r, hr, beq_iff_eq.mpr hs⟩)
  have hsel : q.selects h = true := List.find?_some (p := fun r : OpRow => r.selects h) hq
  rw [hq, opcodeRow_unique (List.mem_of_find?_eq_some hq) hr (beq_iff_eq.mp hsel) hs]

/-- Decoding by the row of R82 whose fields (a `selects_` lemma of the row) the header has. -/
theorem decode_of_selects (op : Op) {h p m : Word} {ext : List Word} {o : BitVec 4} {reserved : Prop}
    (hsel : h &&& m = p ↔ opField h = o ∧ reserved) (hf : opField h = o ∧ reserved)
    (hr : ⟨op, p, m⟩ ∈ opcodeRows) (hlen : ext.length = extWords h) : decode h ext = decodeRow op h ext :=
  decode_of_row hlen (selectRow_eq_some hr (hsel.mpr hf))

/-! ### Decoding what was encoded -/

/-- `decode_of_selects` for a command of one word: every opcode but 1 and 14 announces no other (R74). -/
theorem decode_one_word (op : Op) {h p m : Word} {o : BitVec 4} {reserved : Prop} {i : Instr}
    (hsel : h &&& m = p ↔ opField h = o ∧ reserved) (hf : opField h = o ∧ reserved)
    (hr : ⟨op, p, m⟩ ∈ opcodeRows ∧ o ≠ 0x1#4 ∧ o ≠ 0xE#4) (hi : decodeRow op h [] = .ok i) :
    ([] : List Word).length = extWords h ∧ decode h [] = .ok i := by
  obtain ⟨hrow, h1, hE⟩ := hr
  have hlen : ([] : List Word).length = extWords h := (extWords_of_other (hf.1 ▸ h1) (hf.1 ▸ hE)).symm
  exact ⟨hlen, (decode_of_selects op hsel hf hrow hlen).trans hi⟩

/-- R79: `ENC.LOAD` and its extension words. -/
theorem decode_encode_encLoad (sym : Byte) {code : Bits} (hlen : code.length ≤ Config.maxLen) :
    (codeExt code).length = extWords (headerL sym (BitVec.ofNat 8 code.length)) ∧
      decode (headerL sym (BitVec.ofNat 8 code.length)) (codeExt code) = .ok (.encLoad sym code) := by
  have hf := headerL_fields sym (BitVec.ofNat 8 code.length)
  have hfield : (lenField (headerL sym (BitVec.ofNat 8 code.length))).toNat = code.length := by
    rw [lenField_headerL, BitVec.toNat_ofNat]
    exact Nat.mod_eq_of_lt (Nat.lt_succ_of_le hlen)
  have hwords : (codeExt code).length = extWords (headerL sym (BitVec.ofNat 8 code.length)) := by
    rw [extWords, if_pos hf.1, hfield, codeExt_length]
  refine ⟨hwords, (decode_of_selects .encLoad (selects_encLoad _) hf (by decide) hwords).trans ?_⟩
  simp [decodeRow, hfield]

/-- R142: `DEC.WR` and its value. -/
theorem decode_encode_decWr (reg : RegNum) (value : Word) :
    [value].length = extWords (headerR 0xE#4 reg) ∧ decode (headerR 0xE#4 reg) [value] = .ok (.decWr reg value) := by
  have hf := headerR_fields 0xE#4 reg
  have hwords : [value].length = extWords (headerR 0xE#4 reg) := by simp [extWords, hf.1]
  refine ⟨hwords, (decode_of_selects .decWr (selects_decWr _) hf (by decide) hwords).trans ?_⟩
  simp [decodeRow]

/-- R73 to R82: the words of a well-formed command are a header with as many extension words as it announces, and
they decode to the command. -/
theorem decode_encode {i : Instr} (hwf : i.wf = true) :
    ∃ h ext, encode i = h :: ext ∧ ext.length = extWords h ∧ decode h ext = .ok i := by
  cases i with
  | encLoad sym code => exact ⟨_, _, rfl, decode_encode_encLoad sym (of_decide_eq_true hwf)⟩
  | decWr reg value => exact ⟨_, _, rfl, decode_encode_decWr reg value⟩
  | encReset =>
    exact ⟨_, _, rfl, decode_one_word .encReset (selects_encReset _) (headerZ_fields _) (by decide) rfl⟩
  | encStart =>
    exact ⟨_, _, rfl, decode_one_word .encStart (selects_encStart _) (headerZ_fields _) (by decide) rfl⟩
  | encPut sym =>
    exact ⟨_, _, rfl, decode_one_word .encPut (selects_encPut _) (headerS_fields _ _) (by decide) (by simp [decodeRow])⟩
  | encFinish =>
    exact ⟨_, _, rfl, decode_one_word .encFinish (selects_encFinish _) (headerZ_fields _) (by decide) rfl⟩
  | encRd reg =>
    exact ⟨_, _, rfl, decode_one_word .encRd (selects_encRd _) (headerR_fields _ _) (by decide) (by simp [decodeRow])⟩
  | decReset =>
    exact ⟨_, _, rfl, decode_one_word .decReset (selects_decReset _) (headerZ_fields _) (by decide) rfl⟩
  | decLeaf idx sym =>
    exact ⟨_, _, rfl, decode_one_word .decLeaf (selects_decLeaf _) (headerLeaf_fields _ _) (by decide)
      (by simp [decodeRow])⟩
  | decInode idx left right =>
    exact ⟨_, _, rfl, decode_one_word .decInode (selects_decInode _) (headerInode_fields _ _ _) (by decide)
      (by simp [decodeRow])⟩
  | decStart =>
    exact ⟨_, _, rfl, decode_one_word .decStart (selects_decStart _) (headerZ_fields _) (by decide) rfl⟩
  | decPut byte =>
    exact ⟨_, _, rfl, decode_one_word .decPut (selects_decPut _) (headerS_fields _ _) (by decide) (by simp [decodeRow])⟩
  | decFinish =>
    exact ⟨_, _, rfl, decode_one_word .decFinish (selects_decFinish _) (headerZ_fields _) (by decide) rfl⟩
  | decRd reg =>
    exact ⟨_, _, rfl, decode_one_word .decRd (selects_decRd _) (headerR_fields _ _) (by decide) (by simp [decodeRow])⟩

end Sys2Proof
end

section
/-!
PROOFS for 20_memory.md: a stream of encoded commands is run one command a step, in order (R62, R73, R191).
-/

namespace Sys2Proof.Machine

/-- R73, R76, R191: with a whole command at the head of `CMD`, the step is that command's, its words consumed. -/
theorem step_of_decode {s : State} {h : Word} {ext rest : List Word} {i : Instr}
    (hcmd : s.cmd = h :: (ext ++ rest)) (hlen : ext.length = extWords h) (hd : decode h ext = .ok i) :
    step s = exec i { s with cmd := rest } := by
  simp only [step, hcmd, frame_append hlen, hd]

/-- The same for a command the encoder wrote. -/
theorem step_encode {i : Instr} (hwf : i.wf = true) (rest : List Word) (s : State) :
    step { s with cmd := encode i ++ rest } = exec i { s with cmd := rest } := by
  obtain ⟨h, ext, henc, hlen, hd⟩ := decode_encode hwf
  exact step_of_decode (by simp [henc]) hlen hd

theorem encodeAll_cons (i : Instr) (is : List Instr) : encodeAll (i :: is) = encode i ++ encodeAll is := rfl

theorem run_succ_of_next {M : Host.Core} {s t : M.State} (h : M.step s = .next t) (k : Nat) :
    M.run (k + 1) s = M.run k t := by
  rw [Host.Core.run, h]

/-- The waiting words take no part in a command, so it may be run before or after they are taken away. -/
theorem exec_next_cmd {i : Instr} {s t : State} (h : exec i s = .next t) (ws : List Word) :
    exec i { s with cmd := ws } = .next { t with cmd := ws } := by
  rw [exec_cmd, h]

/-- R62, R73: as many steps as there are commands; each takes one command's words off `CMD` and runs it. -/
theorem run_encodeAll {is : List Instr} (hwf : ∀ i ∈ is, i.wf = true) (rest : List Word) (s : State) :
    Host.Core.run core is.length { s with cmd := encodeAll is ++ rest } = runCommands is { s with cmd := rest } := by
  induction is generalizing s with
  | nil => rfl
  | cons i is ih =>
    obtain ⟨hi, his⟩ := List.forall_mem_cons.mp hwf
    obtain ⟨t, ht⟩ := exec_total i s hi
    have hstep : step { s with cmd := encodeAll (i :: is) ++ rest } = .next { t with cmd := encodeAll is ++ rest } := by
      rw [encodeAll_cons, List.append_assoc, step_encode hi, exec_next_cmd ht]
    have hrest : runCommands (i :: is) { s with cmd := rest } = runCommands is { t with cmd := rest } :=
      runCommands_cons (exec_next_cmd ht rest)
    exact (run_succ_of_next (M := core) hstep _).trans ((ih his t).trans hrest.symm)

end Sys2Proof.Machine

namespace Sys2Proof.Proofs

open Sys2Proof Sys2Proof.Machine

/-- Settles O9: by induction on the commands; each step decodes what the encoder wrote, and no command looks at the
words still waiting. -/
theorem streamRunsCommandsInOrder : Obligations.StreamRunsCommandsInOrder := fun _ rest s hwf =>
  run_encodeAll hwf rest s

end Sys2Proof.Proofs
end

section
/-!
PROOFS for 20_memory.md: what a command leaves alone. Reads change nothing but `RSP`, and nothing else answers (R59);
the tables and the configuration registers change in `CFG` only (R65, R143, R225).
-/

namespace Sys2Proof.Machine

theorem wf_of_isLegalRead {i : Instr} (h : isLegalRead i = true) : i.wf = true := by
  cases i with
  | encRd reg => rfl
  | decRd reg => rfl
  | _ => exact nomatch h

/-- R126, R149: the word a legal read answers is the same in every state with the same two units. -/
theorem exec_of_isLegalRead {i : Instr} (hr : isLegalRead i = true) (s : State) :
    ∃ v, ∀ s' : State, s'.enc = s.enc → s'.dec = s.dec → exec i s' = .next (respond v s') := by
  obtain ⟨t, ht⟩ := exec_total i s (wf_of_isLegalRead hr)
  rcases exec_shape ht with ⟨rfl, -⟩ | ⟨rfl, -⟩ | ⟨-, -, v, -, ⟨-, hv⟩ | ⟨-, hv⟩⟩ | ⟨hn, -⟩ | ⟨hn, -⟩
  · exact nomatch hr
  · exact nomatch hr
  · exact ⟨v, fun s' he _ => hv s' he⟩
  · exact ⟨v, fun s' _ hd => hv s' hd⟩
  · exact nomatch hn.symm.trans hr
  · exact nomatch hn.symm.trans hr

/-- R59: only a legal read answers on `RSP`. -/
theorem exec_rsp_of_not_isLegalRead {i : Instr} {s t : State} (hr : isLegalRead i = false)
    (h : exec i s = .next t) : t.rsp = s.rsp := by
  rcases exec_shape h with ⟨-, rfl⟩ | ⟨-, rfl⟩ | ⟨hread, -⟩ | ⟨-, -, -, hc, -⟩ | ⟨-, -, -, hc, -⟩
  · rfl
  · rfl
  · exact nomatch hr.symm.trans hread
  · obtain ⟨-, -, hrsp, -⟩ := encCommand_reads_own hc rfl
    exact hrsp
  · obtain ⟨-, -, hrsp, -⟩ := decCommand_reads_own hc rfl
    exact hrsp

/-- What a unit accepts outside `CFG` is no command that is accepted in `CFG` only. -/
theorem ne_of_acceptedIn_of_ne_cfg {i j : Instr} {st : RunState} (hacc : acceptedIn i st = true) (hst : st ≠ .cfg)
    (hj : acceptedIn j st = decide (st = .cfg)) : i ≠ j := by
  rintro rfl
  exact hst (of_decide_eq_true (hj ▸ hacc))

/-- R143: a body that succeeds outside `CFG`, or is not a load, keeps the code table. -/
theorem encBody_ct {i : Instr} {e e' : EncState} {bs : List Byte} (h : encBody i e = .ok (e', bs))
    (hi : e.eSt ≠ .cfg ∨ ∀ sym code, i ≠ .encLoad sym code) : e'.ct = e.ct := by
  obtain ⟨hacc, -, -, -, hct⟩ := encBody_st h
  exact hct (hi.elim (fun hst _ _ => ne_of_acceptedIn_of_ne_cfg hacc hst rfl) id)

/-- R65, R143, R225: without a reset, outside `CFG` or by another command than `ENC.LOAD`, `CT` stays. -/
theorem exec_ct_eq {i : Instr} {s t : State} (h : exec i s = .next t) (hreset : i ≠ .encReset)
    (hi : s.enc.eSt ≠ .cfg ∨ ∀ sym code, i ≠ .encLoad sym code) : t.enc.ct = s.enc.ct := by
  rcases exec_shape h with ⟨rfl, -⟩ | ⟨-, rfl⟩ | ⟨-, -, v, rfl, -⟩ | ⟨-, -, -, hc, -⟩ | ⟨-, -, hu, -⟩
  · exact absurd rfl hreset
  · rfl
  · rfl
  · rcases encCommand_cases hc with ⟨-, rfl⟩ | ⟨-, c, -, rfl⟩ | ⟨-, e, bs, hok, rfl⟩
    · rfl
    · rfl
    · exact encBody_ct hok hi
  · obtain ⟨-, henc, -⟩ := exec_frame_dec hu h
    rw [henc]

/-- R65: the tree and the configuration registers of `d'` are those of `d`. -/
structure DecState.SameConfig (d d' : DecState) : Prop where
  tree : d'.tree = d.tree
  root : d'.dRoot = d.dRoot
  orig : d'.dOrig = d.dOrig
  payload : d'.dPayload = d.dPayload
  pad : d'.dPad = d.dPad

theorem DecState.SameConfig.refl (d : DecState) : d.SameConfig d := ⟨rfl, rfl, rfl, rfl, rfl⟩

/-- R143, R225: a body that succeeds outside `CFG`, or writes neither node nor register, keeps the configuration. -/
theorem decBody_sameConfig {i : Instr} {d d' : DecState} {bs : List Byte} (h : decBody i d = .ok (d', bs))
    (hi : d.dSt ≠ .cfg ∨ ((∀ h b, i ≠ .decLeaf h b) ∧ (∀ h l r, i ≠ .decInode h l r) ∧ ∀ r v, i ≠ .decWr r v)) :
    d.SameConfig d' := by
  obtain ⟨hacc, -, -, -, hkeep⟩ := decBody_st h
  obtain ⟨htree, hroot, horig, hpayload, hpad⟩ := hkeep <| hi.elim (fun hst =>
    have hne {j : Instr} := ne_of_acceptedIn_of_ne_cfg (j := j) hacc hst
    ⟨fun _ _ => hne rfl, fun _ _ _ => hne rfl, fun _ _ => hne rfl⟩) id
  exact ⟨htree, hroot, horig, hpayload, hpad⟩

/-- R65, R143, R225: without a reset, outside `CFG` or by another command than `DEC.LEAF`, `DEC.INODE` and `DEC.WR`,
the configuration of DEC stays. -/
theorem exec_sameConfig {i : Instr} {s t : State} (h : exec i s = .next t) (hreset : i ≠ .decReset)
    (hi : s.dec.dSt ≠ .cfg ∨
      ((∀ h b, i ≠ .decLeaf h b) ∧ (∀ h l r, i ≠ .decInode h l r) ∧ ∀ r v, i ≠ .decWr r v)) :
    s.dec.SameConfig t.dec := by
  rcases exec_shape h with ⟨-, rfl⟩ | ⟨rfl, -⟩ | ⟨-, -, v, rfl, -⟩ | ⟨-, -, hu, -⟩ | ⟨-, -, -, hc, -⟩
  · exact .refl _
  · exact absurd rfl hreset
  · exact .refl _
  · obtain ⟨-, hdec, -⟩ := exec_frame_enc hu h
    rw [hdec]; exact .refl _
  · rcases decCommand_cases hc with ⟨-, rfl⟩ | ⟨-, c, -, rfl⟩ | ⟨-, d, bs, hok, rfl⟩
    · exact .refl _
    · exact ⟨rfl, rfl, rfl, rfl, rfl⟩
    · exact decBody_sameConfig hok hi

end Sys2Proof.Machine

namespace Sys2Proof.Proofs

open Sys2Proof Sys2Proof.Machine

/-- Settles O34: a read answers from its own unit, which it leaves as it was; every other command leaves `RSP`. -/
theorem readsHaveNoSideEffect : Obligations.ReadsHaveNoSideEffect := by
  refine ⟨fun i s hr => ?_, fun i s t hr h => exec_rsp_of_not_isLegalRead hr h⟩
  obtain ⟨v, hv⟩ := exec_of_isLegalRead hr s
  exact ⟨v, hv s rfl rfl, hv _ rfl rfl⟩

/-- Settles O37: a body that writes a table or a configuration register is accepted in `CFG` only, and a fault writes
neither. -/
theorem tablesFrozenOutsideCfg : Obligations.TablesFrozenOutsideCfg := by
  refine fun i s t h => ⟨exec_ct_eq h, fun hreset hi => ?_⟩
  obtain ⟨htree, hroot, horig, hpayload, hpad⟩ := exec_sameConfig h hreset hi
  exact ⟨htree, hroot, horig, hpayload, hpad⟩

end Sys2Proof.Proofs
end

section
/-!
PROOFS for 30_encoding.md: a header word is its fields, the opcode map by the formats of R77, and the code operand of
`ENC.LOAD` both ways (R79); with these, a legal command is encoded by its own words and no others (R82).
-/

namespace Sys2Proof

/-! ### A header word is its fields (R77) -/

/-- Two adjacent fields are one field. -/
theorem extract_append (h : Word) (n m : Nat) {s s' : Nat} (hs : s' = s + m) :
    h.extractLsb' s' n ++ h.extractLsb' s m = h.extractLsb' s (n + m) := by
  subst hs
  apply BitVec.eq_of_getLsbD_eq
  intro i hi
  simp only [BitVec.getLsbD_append, BitVec.getLsbD_extractLsb']
  split
  · next him => simp [him, hi]
  · next him =>
    rw [show s + m + (i - m) = s + i by omega]
    simp [hi, show i - m < n by omega]

theorem headerZ_of_fields {h : Word} {o : BitVec 4} (hf : opField h = o ∧ h.extractLsb' 0 28 = 0#28) :
    headerZ o = h := by
  obtain ⟨ho, h0⟩ := hf
  rw [headerZ, ← ho, ← h0, opField, extract_append h 4 28 rfl]
  exact BitVec.extractLsb'_eq_self

theorem headerS_of_fields {h : Word} {o : BitVec 4} (hf : opField h = o ∧ h.extractLsb' 8 20 = 0#20) :
    headerS o (symField h) = h := by
  obtain ⟨ho, h0⟩ := hf
  rw [headerS, ← ho, ← h0, opField, symField, extract_append h 4 20 rfl, extract_append h 24 8 rfl]
  exact BitVec.extractLsb'_eq_self

theorem headerR_of_fields {h : Word} {o : BitVec 4} (hf : opField h = o ∧ h.extractLsb' 4 24 = 0#24) :
    headerR o (regField h) = h := by
  obtain ⟨ho, h0⟩ := hf
  rw [headerR, ← ho, ← h0, opField, regField, extract_append h 4 24 rfl, extract_append h 28 4 rfl]
  exact BitVec.extractLsb'_eq_self

theorem headerL_of_fields {h : Word} (hf : opField h = 0x1#4 ∧ h.extractLsb' 0 12 = 0#12) :
    headerL (loadSymField h) (lenField h) = h := by
  obtain ⟨ho, h0⟩ := hf
  rw [headerL, ← ho, ← h0, opField, loadSymField, lenField, extract_append h 4 8 rfl, extract_append h 12 8 rfl,
    extract_append h 20 12 rfl]
  exact BitVec.extractLsb'_eq_self

/-- R77: the eleven bits the mask of `DEC.LEAF` covers below `idx` are bit 18 at 1 and ten zeros. -/
theorem leaf_fixed_bits_iff (h : Word) :
    h.extractLsb' 8 11 = 1024#11 ↔ h.extractLsb' 18 1 = 1#1 ∧ h.extractLsb' 8 10 = 0#10 := by
  rw [← extract_append h 1 10 (s := 8) rfl, show 1024#11 = 1#1 ++ 0#10 from rfl]
  constructor
  · intro happ
    have hleft := congrArg (BitVec.extractLsb' 10 1) happ
    have hright := congrArg (BitVec.extractLsb' 0 10) happ
    rw [BitVec.extractLsb'_append_eq_left, BitVec.extractLsb'_append_eq_left] at hleft
    rw [BitVec.extractLsb'_append_eq_right, BitVec.extractLsb'_append_eq_right] at hright
    exact ⟨hleft, hright⟩
  · rintro ⟨hleft, hright⟩
    rw [hleft, hright]

theorem headerLeaf_of_fields {h : Word} (hf : opField h = 0x9#4 ∧ h.extractLsb' 8 11 = 1024#11) :
    headerLeaf (idxField h) (symField h) = h := by
  obtain ⟨ho, h0⟩ := hf
  obtain ⟨hflag, hzero⟩ := (leaf_fixed_bits_iff h).mp h0
  rw [headerLeaf, ← ho, ← hflag, ← hzero, opField, idxField, symField, extract_append h 4 9 rfl,
    extract_append h 13 1 rfl, extract_append h 14 10 rfl, extract_append h 24 8 rfl]
  exact BitVec.extractLsb'_eq_self

theorem headerInode_of_fields {h : Word} (hf : opField h = 0x9#4 ∧ h.extractLsb' 18 1 = 0#1) :
    headerInode (idxField h) (leftField h) (rightField h) = h := by
  obtain ⟨ho, h0⟩ := hf
  rw [headerInode, ← ho, ← h0, opField, idxField, leftField, rightField, extract_append h 4 9 rfl,
    extract_append h 13 1 rfl, extract_append h 14 9 rfl, extract_append h 23 9 rfl]
  exact BitVec.extractLsb'_eq_self

/-! ### The code operand of ENC.LOAD (R79) -/

theorem codeBits_getElem? {len i : Nat} (ext : List Word) (hi : i < len) :
    (codeBits len ext)[i]? = some (codeBit ext i) := by
  simp [codeBits, hi]

/-- R79: a stray bit is a 1 of the extension words beyond the code. -/
theorem strayBits_eq_true_iff {len : Nat} {ext : List Word} :
    strayBits len ext = true ↔ ∃ k, len ≤ k ∧ k < 32 * ext.length ∧ codeBit ext k = true := by
  simp only [strayBits, List.any_eq_true, List.mem_range]
  constructor
  · rintro ⟨k, hk, hbit⟩
    exact ⟨len + k, by omega, by omega, hbit⟩
  · rintro ⟨k, hlen, hk, hbit⟩
    exact ⟨k - len, by omega, by rwa [Nat.add_sub_cancel' hlen]⟩

theorem strayBits_eq_false_iff {len : Nat} {ext : List Word} :
    strayBits len ext = false ↔ ∀ k, len ≤ k → k < 32 * ext.length → codeBit ext k = false := by
  simp only [← Bool.not_eq_true, strayBits_eq_true_iff, not_exists, not_and]

/-- Extension words are their code bits. -/
theorem ext_eq_of_codeBit {xs ys : List Word} (hlen : xs.length = ys.length)
    (hbit : ∀ i, i < 32 * xs.length → codeBit xs i = codeBit ys i) : xs = ys := by
  refine List.ext_getElem hlen fun j hx hy => BitVec.eq_of_getLsbD_eq fun b hb => ?_
  have hword : (32 * j + (31 - b)) / 32 = j ∧ 31 - (32 * j + (31 - b)) % 32 = b := by omega
  have h := hbit (32 * j + (31 - b)) (by omega)
  simpa only [codeBit, hword.1, hword.2, List.getD_eq_getElem _ _ hx, List.getD_eq_getElem _ _ hy] using h

/-- R79: without stray bits the extension words are those of the code cut from them. -/
theorem codeExt_codeBits {len : Nat} {ext : List Word} (hlen : ext.length = (len + 31) / 32)
    (hstray : strayBits len ext = false) : codeExt (codeBits len ext) = ext := by
  have hwords : (codeExt (codeBits len ext)).length = ext.length := by rw [codeExt_length, codeBits_length, hlen]
  refine ext_eq_of_codeBit hwords fun i hi => ?_
  rw [hwords] at hi
  rw [codeBit_codeExt _ _ (by rw [codeBits_length]; omega), List.getD_eq_getElem?_getD]
  by_cases hi' : i < len
  · rw [codeBits_getElem? ext hi', Option.getD_some]
  · rw [List.getElem?_eq_none (by rw [codeBits_length]; omega), Option.getD_none,
      strayBits_eq_false_iff.mp hstray i (by omega) hi]

/-! ### The opcode map (R82) -/

/-- R75, R82: the row found is a row of the map, and the header word matches it. -/
theorem mem_of_selectRow {h : Word} {r : OpRow} (hr : selectRow h = some r) :
    r ∈ opcodeRows ∧ h &&& r.mask = r.pattern :=
  ⟨List.mem_of_find?_eq_some hr, beq_iff_eq.mp (List.find?_some (p := fun r : OpRow => r.selects h) hr)⟩

/-- R77, R82: no row is selected when each of the 14 misses its opcode or the bits its format fixes. -/
theorem no_row_iff (h : Word) :
    (∀ r ∈ opcodeRows, h &&& r.mask ≠ r.pattern) ↔
      (opField h ∈ [0x0#4, 0x2#4, 0x4#4, 0x8#4, 0xA#4, 0xC#4] → h.extractLsb' 0 28 ≠ 0#28) ∧
      (opField h = 0x1#4 → h.extractLsb' 0 12 ≠ 0#12) ∧
      (opField h ∈ [0x3#4, 0xB#4] → h.extractLsb' 8 20 ≠ 0#20) ∧
      (opField h ∈ [0x5#4, 0xD#4, 0xE#4] → h.extractLsb' 4 24 ≠ 0#24) ∧
      (opField h = 0x9#4 → h.extractLsb' 8 11 ≠ 1024#11 ∧ h.extractLsb' 18 1 ≠ 0#1) := by
  rw [opcodeRows]
  simp only [List.forall_mem_cons, ne_eq, selects_encReset, selects_encLoad, selects_encStart, selects_encPut,
    selects_encFinish, selects_encRd, selects_decReset, selects_decLeaf, selects_decInode, selects_decStart,
    selects_decPut, selects_decFinish, selects_decRd, selects_decWr, not_and]
  simp only [List.mem_cons, List.not_mem_nil, or_false, or_imp, imp_and]
  constructor
  · rintro ⟨hz0, hl, hz2, hs3, hz4, hr5, hz8, hleaf, hinode, hzA, hsB, hzC, hrD, hrE, -⟩
    exact ⟨⟨hz0, hz2, hz4, hz8, hzA, hzC⟩, hl, ⟨hs3, hsB⟩, ⟨hr5, hrD, hrE⟩, hleaf, hinode⟩
  · rintro ⟨⟨hz0, hz2, hz4, hz8, hzA, hzC⟩, hl, ⟨hs3, hsB⟩, ⟨hr5, hrD, hrE⟩, hleaf, hinode⟩
    exact ⟨hz0, hl, hz2, hs3, hz4, hr5, hz8, hleaf, hinode, hzA, hsB, hzC, hrD, hrE, nofun⟩

/-- R77: both rows of opcode 9 miss a word exactly when its bit 18 is 1 and one of its bits 17 to 8 is. -/
theorem no_node_row_iff (h : Word) :
    (h.extractLsb' 8 11 ≠ 1024#11 ∧ h.extractLsb' 18 1 ≠ 0#1) ↔ h.getLsbD 18 = true ∧ h.extractLsb' 8 10 ≠ 0#10 := by
  have hflag : h.extractLsb' 18 1 = BitVec.ofBool (h.getLsbD 18) :=
    extract_eq _ _ _ fun j hj => by
      obtain rfl : j = 0 := by omega
      simp
  rw [ne_eq, leaf_fixed_bits_iff, hflag]
  cases h.getLsbD 18 <;> simp

/-! ### A legal command has one word sequence -/

/-- R74: where the header announces no words, the command is its header word. -/
theorem one_word_of_fields {h hdr : Word} {ext : List Word} {o : BitVec 4} {reserved : Prop}
    (hf : opField h = o ∧ reserved) (hhdr : opField h = o ∧ reserved → hdr = h) (hne : o ≠ 0x1#4 ∧ o ≠ 0xE#4)
    (hlen : ext.length = extWords h) : [hdr] = h :: ext := by
  have hnone : extWords h = 0 := extWords_of_other (hf.1 ▸ hne.1) (hf.1 ▸ hne.2)
  rw [hhdr hf, List.eq_nil_of_length_eq_zero (hlen.trans hnone)]

theorem encode_decode_encLoad {h : Word} {ext : List Word} (hf : opField h = 0x1#4 ∧ h.extractLsb' 0 12 = 0#12)
    (hlen : ext.length = extWords h) (hstray : strayBits (lenField h).toNat ext = false) :
    encode (.encLoad (loadSymField h) (codeBits (lenField h).toNat ext)) = h :: ext := by
  rw [extWords, if_pos hf.1] at hlen
  rw [encode, codeBits_length, BitVec.ofNat_toNat, BitVec.setWidth_eq, headerL_of_fields hf,
    codeExt_codeBits hlen hstray]

theorem encode_decode_decWr {h : Word} {ext : List Word} (hf : opField h = 0xE#4 ∧ h.extractLsb' 4 24 = 0#24)
    (hlen : ext.length = extWords h) : encode (.decWr (regField h) (ext.getD 0 0#32)) = h :: ext := by
  have hone : ext.length = 1 := by rw [hlen, extWords, hf.1]; rfl
  obtain ⟨value, rfl⟩ := List.length_eq_one_iff.mp hone
  rw [encode, headerR_of_fields hf, List.getD_cons_zero]

/-- R82: a legal command is encoded by its own words; one case per row of the map, in its order. -/
theorem encode_decode {h : Word} {ext : List Word} {i : Instr} (hd : decode h ext = .ok i) : encode i = h :: ext := by
  obtain ⟨hlen, r, hr, hrow⟩ := decode_ok hd
  obtain ⟨hmem, hsel⟩ := mem_of_selectRow hr
  simp only [opcodeRows, List.mem_cons, List.not_mem_nil, or_false] at hmem
  rcases hmem with rfl | rfl | rfl | rfl | rfl | rfl | rfl | rfl | rfl | rfl | rfl | rfl | rfl | rfl
  · cases hrow; exact one_word_of_fields ((selects_encReset h).mp hsel) headerZ_of_fields (by decide) hlen
  · simp only [decodeRow] at hrow
    split at hrow
    · cases hrow
    · next hstray =>
      cases hrow
      exact encode_decode_encLoad ((selects_encLoad h).mp hsel) hlen (Bool.eq_false_of_not_eq_true hstray)
  · cases hrow; exact one_word_of_fields ((selects_encStart h).mp hsel) headerZ_of_fields (by decide) hlen
  · cases hrow; exact one_word_of_fields ((selects_encPut h).mp hsel) headerS_of_fields (by decide) hlen
  · cases hrow; exact one_word_of_fields ((selects_encFinish h).mp hsel) headerZ_of_fields (by decide) hlen
  · cases hrow; exact one_word_of_fields ((selects_encRd h).mp hsel) headerR_of_fields (by decide) hlen
  · cases hrow; exact one_word_of_fields ((selects_decReset h).mp hsel) headerZ_of_fields (by decide) hlen
  · cases hrow; exact one_word_of_fields ((selects_decLeaf h).mp hsel) headerLeaf_of_fields (by decide) hlen
  · cases hrow; exact one_word_of_fields ((selects_decInode h).mp hsel) headerInode_of_fields (by decide) hlen
  · cases hrow; exact one_word_of_fields ((selects_decStart h).mp hsel) headerZ_of_fields (by decide) hlen
  · cases hrow; exact one_word_of_fields ((selects_decPut h).mp hsel) headerS_of_fields (by decide) hlen
  · cases hrow; exact one_word_of_fields ((selects_decFinish h).mp hsel) headerZ_of_fields (by decide) hlen
  · cases hrow; exact one_word_of_fields ((selects_decRd h).mp hsel) headerR_of_fields (by decide) hlen
  · cases hrow; exact encode_decode_decWr ((selects_decWr h).mp hsel) hlen

/-- R78: a legal command is well formed. -/
theorem wf_of_decode {h : Word} {ext : List Word} {i : Instr} (hd : decode h ext = .ok i) : i.wf = true := by
  cases i with
  | encLoad sym code => exact decide_eq_true (length_le_maxLen_of_decode hd)
  | _ => rfl

/-- R73, R82: the law of Laws/PerInstr.lean, for every command. -/
theorem encode_shape (i : Instr) : Laws.EncodeShape.Statement i := by
  cases i with
  | encReset => exact Laws.EncodeShape.encReset
  | encLoad sym code => exact Laws.EncodeShape.encLoad sym code
  | encStart => exact Laws.EncodeShape.encStart
  | encPut sym => exact Laws.EncodeShape.encPut sym
  | encFinish => exact Laws.EncodeShape.encFinish
  | encRd reg => exact Laws.EncodeShape.encRd reg
  | decReset => exact Laws.EncodeShape.decReset
  | decLeaf idx sym => exact Laws.EncodeShape.decLeaf idx sym
  | decInode idx left right => exact Laws.EncodeShape.decInode idx left right
  | decStart => exact Laws.EncodeShape.decStart
  | decPut byte => exact Laws.EncodeShape.decPut byte
  | decFinish => exact Laws.EncodeShape.decFinish
  | decRd reg => exact Laws.EncodeShape.decRd reg
  | decWr reg value => exact Laws.EncodeShape.decWr reg value

/-- R73: the unit of a legal command is the one its header word names. -/
theorem unit_of_decode {h : Word} {ext : List Word} {i : Instr} (hd : decode h ext = .ok i) : i.unit = unitOf h := by
  obtain ⟨-, hhead⟩ := encode_shape i
  rw [encode_decode hd] at hhead
  exact (Option.some.inj hhead).symm

/-! ### ENC.LOAD from its words (R79) -/

/-- The row of `ENC.LOAD` with as many words as its header announces: illegal with a stray bit, else its command. -/
theorem decode_encLoad {h : Word} {ext : List Word} (hsel : h &&& 0xF0000FFF#32 = 0x10000000#32)
    (hlen : ext.length = ((lenField h).toNat + 31) / 32) :
    decode h ext = if strayBits (lenField h).toNat ext then .error .strayCodeBits
      else .ok (.encLoad (loadSymField h) (codeBits (lenField h).toNat ext)) := by
  have hf := (selects_encLoad h).mp hsel
  exact decode_of_selects .encLoad (selects_encLoad h) hf (by decide) (by rw [hlen, extWords, if_pos hf.1])

end Sys2Proof

namespace Sys2Proof.Proofs

open Sys2Proof Sys2Proof.Machine

/-- Settles O1: the decoder is run on each of the word sequences. -/
theorem specWordsDecode : Obligations.SpecWordsDecode := by
  unfold Obligations.SpecWordsDecode
  decide

/-- Settles O2: the encoder's header of each format has the fields the decoder reads. -/
theorem decodeOfEncode : Obligations.DecodeOfEncode := fun _ hwf => decode_encode hwf

/-- Settles O3: each row and its operand fields fix every bit of the words. -/
theorem encodeOfDecode : Obligations.EncodeOfDecode := fun _ _ _ hd =>
  ⟨wf_of_decode hd, encode_decode hd, unit_of_decode hd⟩

/-- Settles O4: no two rows agree on the bits both their masks cover. -/
theorem opcodeRowsExclusive : Obligations.OpcodeRowsExclusive :=
  ⟨rfl, fun _ _ _ hr hq hsr hsq => opcodeRow_unique hr hq hsr hsq⟩

/-- Settles O5: by the formats of the map; an opcode of no row leaves nothing to be missed. -/
theorem illegalHeaderIffReservedBits : Obligations.IllegalHeaderIffReservedBits := by
  intro h
  have hop (o : BitVec 4) : opField h = o ↔ (h.extractLsb' 28 4).toNat = o.toNat := BitVec.toNat_inj.symm
  rw [no_row_iff]
  generalize (h.extractLsb' 28 4).toNat = n at hop ⊢
  split
  case h_13 => simp [hop, no_node_row_iff] -- opcode 9, the one with two rows
  case h_14 => simp_all -- the reserved opcodes
  all_goals simp [hop]

/-- Settles O6: a stray bit decides which outcome the row of `ENC.LOAD` gives. -/
theorem loadCodeAssembly : Obligations.LoadCodeAssembly := by
  intro h ext hsel hlen
  refine ⟨fun hstray => ?_, fun hzero => ⟨codeBits (lenField h).toNat ext, ?_, codeBits_length _ _, fun i hi => ?_⟩⟩
  · exact (decode_encLoad hsel hlen).trans (if_pos (strayBits_eq_true_iff.mpr hstray))
  · exact (decode_encLoad hsel hlen).trans (if_neg (Bool.eq_false_iff.mp (strayBits_eq_false_iff.mpr hzero)))
  · rw [codeBits_length] at hi
    exact codeBits_getElem? ext hi

end Sys2Proof.Proofs
end

section
/-!
PROOFS for 30_encoding.md: what a step takes from the stream, and that it always answers a next state (R74, R76, R210).
-/

namespace Sys2Proof.Machine

/-- R74, R76: with a whole command at the head of `CMD`, legal or not, a step answers a next state and takes exactly
its words. -/
theorem step_of_frame {s : State} {h : Word} {ext rest : List Word} (hf : frame s.cmd = some (h, ext, rest)) :
    ∃ t, step s = .next t ∧ t.cmd = rest := by
  cases hd : decode h ext with
  | ok i =>
    have hstep : step s = exec i { s with cmd := rest } := by simp only [step, hf, hd]
    obtain ⟨t, ht⟩ := exec_total i { s with cmd := rest } (wf_of_decode hd)
    exact ⟨t, hstep.trans ht, exec_cmd_eq ht⟩
  | error e =>
    have hstep : step s = execIllegal (unitOf h) { s with cmd := rest } := by simp only [step, hf, hd]
    obtain ⟨t, ht⟩ := execIllegal_total (unitOf h) { s with cmd := rest }
    exact ⟨t, hstep.trans ht, execIllegal_cmd_eq ht⟩

/-- U23: where `CMD` holds no whole command, a step changes nothing. -/
theorem step_of_no_frame {s : State} (hf : frame s.cmd = none) : step s = .next s := by
  simp only [step, hf]

/-- R76, R210: a step always answers a next state. -/
theorem step_total (s : State) : ∃ t, step s = .next t := by
  cases hf : frame s.cmd with
  | none => exact ⟨s, step_of_no_frame hf⟩
  | some f =>
    obtain ⟨t, ht, -⟩ := step_of_frame hf
    exact ⟨t, ht⟩

end Sys2Proof.Machine

namespace Sys2Proof.Proofs

open Sys2Proof Sys2Proof.Machine

/-- Settles O7: the words announced are there, and `frame` cuts them off, or they are not, and it finds no command. -/
theorem stepConsumesAnnouncedWords : Obligations.StepConsumesAnnouncedWords := by
  intro s h rest hcmd
  -- the number the statement writes out is R74's `next`
  change (extWords h ≤ rest.length → ∃ t, step s = .next t ∧ t.cmd = rest.drop (extWords h)) ∧
    (rest.length < extWords h → step s = .next s)
  refine ⟨fun hn => step_of_frame (h := h) (ext := rest.take (extWords h)) ?_, fun hn => step_of_no_frame ?_⟩
  · rw [hcmd, frame, if_pos hn]
  · rw [hcmd, frame, if_neg (Nat.not_le.mpr hn)]

/-- Settles O8: the framing of the stream cuts off just these words. -/
theorem stepRunsDecodedCommand : Obligations.StepRunsDecodedCommand := fun _ _ _ _ _ hcmd hlen hd =>
  step_of_decode hcmd hlen hd

/-- Settles O11: a decoded command is well formed, and a well-formed or an illegal one always answers a next state. -/
theorem everyStepHasANextState : Obligations.EveryStepHasANextState := step_total

end Sys2Proof.Proofs
end

section
/-!
PROOFS for 30_encoding.md: no code of a tree begins another symbol's code (R70, R111), since no path leaves a leaf.
-/

namespace Sys2Proof.Machine

/-- A path goes on from where its first part leads. -/
theorem follow_append (Tr : TreeMap) (h : Handle) (c e : Bits) :
    follow Tr h (c ++ e) = (follow Tr h c).bind fun k => follow Tr k e := by
  induction c generalizing h with
  | nil => rfl
  | cons x c ih =>
    rw [List.cons_append, follow, follow]
    split
    · exact ih _
    · rfl
    · rfl

/-- No path leaves a leaf. -/
theorem follow_leaf {Tr : TreeMap} {h k : Handle} {s : Byte} {e : Bits} (hleaf : Tr h = some (.leaf s))
    (hk : follow Tr h e = some k) : k = h := by
  cases e with
  | nil => exact (Option.some.inj hk).symm
  | cons x e => simp only [follow, hleaf, reduceCtorEq] at hk

/-- R111: where one code begins another, both end at the same leaf. -/
theorem IsCode.symbol_eq_of_isPrefix {Tr : TreeMap} {r : Handle} {s t : Byte} {c d : Bits} (hs : IsCode Tr r s c)
    (ht : IsCode Tr r t d) (hcd : c <+: d) : s = t := by
  unfold IsCode at hs ht
  split at hs
  · next hroot =>
    rw [hroot] at ht
    exact hs.1.symm.trans ht.1
  · next hroot =>
    rw [hroot] at ht
    obtain ⟨k, hk, hleaf⟩ := hs
    obtain ⟨k', hk', hleaf'⟩ := ht
    obtain ⟨e, rfl⟩ := hcd
    rw [follow_append, hk] at hk'
    obtain rfl := follow_leaf hleaf hk'
    cases hleaf.symm.trans hleaf'
    rfl
  · exact hs.elim

end Sys2Proof.Machine

namespace Sys2Proof.Proofs

open Sys2Proof Sys2Proof.Machine

/-- Settles O45: a code that begins another ends at the same leaf, so it is of the same symbol. -/
theorem treeCodesArePrefixFree : Obligations.TreeCodesArePrefixFree := fun _ _ _ hagree s t c d hs ht hne hcd =>
  hne (((hagree s c).mp hs).symbol_eq_of_isPrefix ((hagree t d).mp ht) hcd)

end Sys2Proof.Proofs
end

section
/-!
PROOFS for 40_reference_functions.md: the decoder walks one code of the tree at a time, so it gives the encoder's input
back (R104, R107, R109, R110).
-/

namespace Sys2Proof.Machine

/-- R104: the encoded bit-string begins with the code of the first symbol. -/
theorem encBits_cons {T : CodeMap} {d : Byte} {c : Bits} (hc : T d = some c) (D : List Byte) :
    encBits T (d :: D) = c ++ encBits T D := by
  simp [encBits, hc]

/-- R106, R107: from an internal node, the bits of a path to a leaf emit its symbol and bring the walk back to the root. -/
theorem decodeLoop_path {Tr : TreeMap} {r h k l rt : Handle} {s : Byte} {c : Bits} {out : List Byte} {N : Nat}
    (hnode : Tr h = some (.inode l rt)) (hpath : follow Tr h c = some k) (hleaf : Tr k = some (.leaf s))
    (hroom : out.length < N) (desc : Bool) (rest : Bits) :
    decodeLoop Tr r N (c ++ rest) ⟨h, desc⟩ out = decodeLoop Tr r N rest ⟨r, false⟩ (out ++ [s]) := by
  induction c generalizing h l rt desc with
  | nil =>
    cases hpath
    exact nomatch hnode.symm.trans hleaf
  | cons x c ih =>
    simp only [follow, hnode] at hpath
    cases hchild : Tr (if x then rt else l) with
    | none =>
      cases c with
      | nil =>
        cases hpath
        exact nomatch hchild.symm.trans hleaf
      | cons y c => simp only [follow, hchild, reduceCtorEq] at hpath
    | some n =>
      cases n with
      | leaf s' =>
        obtain rfl := follow_leaf hchild hpath
        cases hchild.symm.trans hleaf
        cases c with
        | nil => simp [decodeLoop, walk, hnode, hchild, hroom.ne]
        | cons y c => simp only [follow, hchild, reduceCtorEq] at hpath
      | inode l' rt' =>
        simp only [List.cons_append, decodeLoop, walk, hnode, hchild]
        exact ih hchild hpath true

/-- R107, R109: from the root, the bits of a code emit its symbol and bring the walk back to the root; on a tree of one
leaf the walk stays there. -/
theorem decodeLoop_code {Tr : TreeMap} {r : Handle} {s : Byte} {c : Bits} {out : List Byte} {N : Nat}
    (hc : IsCode Tr r s c) (hroom : out.length < N) (rest : Bits) :
    decodeLoop Tr r N (c ++ rest) ⟨r, false⟩ out = decodeLoop Tr r N rest ⟨r, false⟩ (out ++ [s]) := by
  unfold IsCode at hc
  split at hc
  · next hroot =>
    obtain ⟨rfl, rfl⟩ := hc
    simp [decodeLoop, walk, hroot, hroom.ne]
  · next hroot =>
    obtain ⟨k, hpath, hleaf⟩ := hc
    exact decodeLoop_path hroot hpath hleaf hroom false rest
  · exact hc.elim

/-- R110, the loop: the encoded bit-string of a sequence emits the sequence, where the limit leaves room for it. -/
theorem decodeLoop_encBits {T : CodeMap} {Tr : TreeMap} {r : Handle} (hagree : Agree T Tr r) {D : List Byte}
    (hD : ∀ d ∈ D, (T d).isSome) {out : List Byte} {N : Nat} (hroom : out.length + D.length ≤ N) :
    decodeLoop Tr r N (encBits T D) ⟨r, false⟩ out = .ok (⟨r, false⟩, out ++ D) := by
  induction D generalizing out with
  | nil => simp [encBits, decodeLoop]
  | cons d D ih =>
    obtain ⟨c, hc⟩ := Option.isSome_iff_exists.mp (hD d List.mem_cons_self)
    rw [List.length_cons] at hroom
    rw [encBits_cons hc, decodeLoop_code ((hagree d c).mp hc) (by omega),
      ih (fun d' hd' => hD d' (List.mem_cons_of_mem d hd')) (by simp; omega), List.append_assoc, List.singleton_append]

end Sys2Proof.Machine

namespace Sys2Proof.Proofs

open Sys2Proof Sys2Proof.Machine

/-- Settles O44: by induction on the symbols; the walk is at the root after each code. -/
theorem datapathRoundTrip : Obligations.DatapathRoundTrip := by
  intro T Tr r D hagree hD
  have hloop := decodeLoop_encBits hagree hD (out := []) (Nat.le_of_eq (Nat.zero_add _))
  simp [decodeBits, hloop]

end Sys2Proof.Proofs
end

section
/-!
PROOFS for 40_reference_functions.md: the tree the reference builder gives is proper, and the codes generated from it are
the paths to its leaves (R105, R109, R175 to R177).
-/

namespace Sys2Proof.Machine

/-- R8: a table of distinct byte values has at most 256 entries. -/
theorem FreqTable.length_le {F : FreqTable} (hF : (F.map Prod.fst).Nodup) : F.length ≤ 256 := by
  have hcard : Fintype.card Byte = 256 := FinEnum.card_eq_fintypeCard.symm
  simpa [hcard] using hF.length_le_card

/-! ### What a part of the arena holds -/

theorem HuffTree.exists_path (t : HuffTree) : ∃ p, p ∈ t.paths := by
  induction t with
  | leaf s => exact ⟨(s, []), List.mem_singleton_self _⟩
  | node a b iha ihb =>
    obtain ⟨p, hp⟩ := iha
    exact ⟨(p.1, false :: p.2), List.mem_append_left _ (List.mem_map_of_mem hp)⟩

/-- Where a path from a held tree leads, the arena holds a tree. -/
theorem Holds.of_follow {T : BuiltTree} {h k : Handle} {t : HuffTree} {c : Bits} (ht : Holds T.nodes h.toNat t)
    (hk : follow T.map h c = some k) : ∃ u, Holds T.nodes k.toNat u := by
  induction c generalizing h t with
  | nil =>
    cases hk
    exact ⟨t, ht⟩
  | cons x c ih =>
    cases ht with
    | leaf e =>
      have hmap : T.map h = _ := e
      simp only [follow, hmap, reduceCtorEq] at hk
    | node e hl hr =>
      have hmap : T.map h = _ := e
      simp only [follow, hmap] at hk
      cases x with
      | false => exact ih hl hk
      | true => exact ih hr hk

/-- R105: in a held tree of distinct symbols no handle is reached along two paths: both, continued to the same leaf, are
the one path of its symbol. -/
theorem Holds.path_unique {T : BuiltTree} {h k : Handle} {t : HuffTree} {p q : Bits} (ht : Holds T.nodes h.toNat t)
    (hsyms : t.leaves.Nodup) (hp : follow T.map h p = some k) (hq : follow T.map h q = some k) :
    p = q := by
  obtain ⟨u, hu⟩ := ht.of_follow hp
  obtain ⟨⟨s, e⟩, he⟩ := u.exists_path
  obtain ⟨k', hk', hleaf⟩ := (follow_iff T s e k u hu).mpr he
  have hcont {c : Bits} (hc : follow T.map h c = some k) : (s, c ++ e) ∈ t.paths :=
    (follow_iff T s (c ++ e) h t ht).mp ⟨k', by rw [follow_append, hc]; exact hk', hleaf⟩
  rw [← t.paths_keys] at hsyms
  exact List.append_cancel_right (Prod.mk.inj (List.inj_on_of_nodup_map hsyms (hcont hp) (hcont hq) rfl)).2

/-! ### The nodes of the built arena -/

/-- R105, R173: the children of every internal node of the built arena are defined. -/
theorem build_children {F : FreqTable} {T : BuiltTree} (hn : F.length ≤ 256) (hT : build F = some T)
    {h l r : Handle} (hh : T.map h = some (.inode l r)) : (T.map l).isSome ∧ (T.map r).isSome := by
  obtain ⟨inner, hnodes, hinner⟩ := build_arena F hn T hT
  have hmem : Node.inode l r ∈ inner := by simpa [hnodes] using List.mem_of_getElem? hh
  obtain ⟨l', r', heq, hl, hr⟩ := hinner _ hmem
  cases heq
  exact ⟨by simpa [BuiltTree.map] using hl, by simpa [BuiltTree.map] using hr⟩

/-- R175: the handle of a leaf of the built arena is the index of its symbol in the table. -/
theorem build_leaf {F : FreqTable} {T : BuiltTree} (hn : F.length ≤ 256) (hT : build F = some T)
    {h : Handle} {s : Byte} (hh : T.map h = some (.leaf s)) : (F.map Prod.fst)[h.toNat]? = some s := by
  obtain ⟨inner, hnodes, hinner⟩ := build_arena F hn T hT
  unfold BuiltTree.map at hh
  rw [hnodes, List.getElem?_append] at hh
  split at hh
  · simpa using hh
  · obtain ⟨l, r, heq, -⟩ := hinner _ (List.mem_of_getElem? hh)
    exact nomatch heq

/-- R109: the built tree of a table of distinct byte values has one leaf for each. -/
theorem build_oneLeafPerSymbol {F : FreqTable} {T : BuiltTree} (hF : (F.map Prod.fst).Nodup)
    (hT : build F = some T) : OneLeafPerSymbol T.map := by
  intro h k s hh hk
  have hh' := build_leaf (FreqTable.length_le hF) hT hh
  have hk' := build_leaf (FreqTable.length_le hF) hT hk
  obtain ⟨hlt, -⟩ := List.getElem?_eq_some_iff.mp hh'
  exact BitVec.eq_of_toNat_eq ((List.getElem?_inj hlt hF).mp (hh'.trans hk'.symm))

/-! ### The codes -/

/-- R109: the codes of a tree: the 1-bit fallback of a tree of one leaf, else the paths. -/
def HuffTree.codes : HuffTree → List (Byte × Bits)
  | .leaf s => [(s, [false])]
  | .node a b => (node a b).paths

theorem HuffTree.codes_keys (t : HuffTree) : t.codes.map Prod.fst = t.leaves := by
  cases t with
  | leaf s => rfl
  | node a b => exact (node a b).paths_keys

theorem HuffTree.codes_length (t : HuffTree) : ∀ p ∈ t.codes, 1 ≤ p.2.length ∧ p.2.length ≤ max 1 t.depth := by
  intro p hp
  cases t with
  | leaf s =>
    cases List.mem_singleton.mp hp
    exact ⟨le_rfl, le_max_left ..⟩
  | node a b =>
    refine ⟨?_, ((node a b).path_le_depth p hp).trans (le_max_right ..)⟩
    simp only [codes, paths, List.mem_append, List.mem_map] at hp
    obtain ⟨q, -, rfl⟩ | ⟨q, -, rfl⟩ := hp <;> simp

/-- R177: the generator gives the codes of the tree the arena holds. -/
theorem codes_eq {T : BuiltTree} {t : HuffTree} (ht : Holds T.nodes T.root.toNat t) (hdepth : t.depth < 256) :
    codes T.map T.root = t.codes := by
  have hfrom := codesFrom_eq T 256 T.root t [] ht hdepth
  cases ht with
  | leaf e =>
    have hmap : T.map T.root = _ := e
    simp [codes, hmap, HuffTree.codes]
  | node e hl hr =>
    have hmap : T.map T.root = _ := e
    simpa [codes, hmap, HuffTree.codes] using hfrom

/-- R109: the codes of the tree the arena holds are the codes of the arena. -/
theorem isCode_iff_mem_codes {T : BuiltTree} {t : HuffTree} (ht : Holds T.nodes T.root.toNat t) (s : Byte) (c : Bits) :
    IsCode T.map T.root s c ↔ (s, c) ∈ t.codes := by
  have hfollow := follow_iff T s c T.root t ht
  cases ht with
  | leaf e =>
    have hmap : T.map T.root = _ := e
    simp [IsCode, hmap, HuffTree.codes, eq_comm]
  | node e hl hr =>
    have hmap : T.map T.root = _ := e
    simpa only [IsCode, hmap, HuffTree.codes] using hfollow

/-- R109: the code table generated from the tree the arena holds agrees with it. -/
theorem agree_codeMapOf_codes {T : BuiltTree} {t : HuffTree} (ht : Holds T.nodes T.root.toNat t)
    (hsyms : t.leaves.Nodup) : Agree (codeMapOf t.codes) T.map T.root := by
  intro s c
  rw [isCode_iff_mem_codes ht]
  exact codeMapOf_eq_some (by rwa [t.codes_keys]) s c

end Sys2Proof.Machine

namespace Sys2Proof.Proofs

open Sys2Proof Sys2Proof.Machine

/-- Settles O53: the arena holds a tree with the symbols of the table at its leaves, each once. -/
theorem builtTreeIsProper : Obligations.BuiltTreeIsProper := by
  intro F hne hF
  have hn := FreqTable.length_le hF
  obtain ⟨T, t, hT, ht, hperm, -⟩ := build_holds F hne hn
  have hroot : (T.map T.root).isSome := by simpa [BuiltTree.map] using ht.lt
  exact ⟨T, hT, ⟨hroot, fun h l r hh => build_children hn hT hh,
    fun p q k hp hq => ht.path_unique (hperm.nodup_iff.mpr hF) hp hq⟩, build_oneLeafPerSymbol hF hT⟩

/-- Settles O54: the generator lists the paths of the tree the arena holds, which is less deep than it has leaves. -/
theorem builderCodesAgreeWithTree : Obligations.BuilderCodesAgreeWithTree := by
  intro F hne hF
  have hn := FreqTable.length_le hF
  obtain ⟨T, t, hT, ht, hperm, -⟩ := build_holds F hne hn
  have hdepth : t.depth < 256 := by
    calc t.depth
        < t.leaves.length := t.depth_lt
      _ = F.length := by simpa using hperm.length_eq
      _ ≤ 256 := hn
  have hagree := agree_codeMapOf_codes ht (hperm.nodup_iff.mpr hF)
  refine ⟨T, hT, ?_⟩
  rw [codes_eq ht hdepth, t.codes_keys]
  refine ⟨hagree, treeCodesArePrefixFree _ _ _ hagree, hperm, fun p hp => ?_⟩
  obtain ⟨hpos, hle⟩ := t.codes_length p hp
  exact ⟨hpos, by omega⟩

end Sys2Proof.Proofs
end

section
/-!
PROOFS for 40_reference_functions.md: no count wraps, and each moves by what one command accepts or emits (R112, R212).
-/

namespace Sys2Proof.Machine

/-- R112: an `ENC.PUT` that is executed in `RUN` and does not fault. -/
def EncPutAccepted (i : Instr) (s t : State) : Prop := (∃ sym, i = .encPut sym) ∧ s.enc.eSt = .run ∧ t.enc.eSt ≠ .err

/-- R212: a `DEC.PUT` that is executed in `RUN` and does not fault. -/
def DecPutAccepted (i : Instr) (s t : State) : Prop := (∃ byte, i = .decPut byte) ∧ s.dec.dSt = .run ∧ t.dec.dSt ≠ .err

/-- The counts of a unit with its output stream: the number of inputs taken, of outputs given, and the outputs. -/
structure Counts where
  taken : Word
  given : Word
  out : List Byte

/-- R27, R28: `E_ORIG`, `E_PAYLOAD` and `ENC_OUT`. -/
def State.encCounts (s : State) : Counts := ⟨s.enc.eOrig, s.enc.ePayload, s.encOut⟩

/-- R39, R40: `D_BYTES`, `D_OUT` and `DEC_OUT`. -/
def State.decCounts (s : State) : Counts := ⟨s.dec.dBytes, s.dec.dOut, s.decOut⟩

/-- R112, R212: how a command moves the counts of a unit, as numbers, whether it is an accepted put or not. -/
structure CountsMove (accepted : Prop) (c c' : Counts) : Prop where
  put : accepted → c'.taken.toNat = c.taken.toNat + 1
  stay : ¬ accepted → c'.taken.toNat = c.taken.toNat
  emitted : c'.given.toNat + c.out.length = c.given.toNat + c'.out.length

theorem CountsMove.unchanged {accepted : Prop} {c c' : Counts} (hno : ¬ accepted) (h : c' = c) :
    CountsMove accepted c c' := by
  subst h
  exact ⟨fun hput => absurd hput hno, fun _ => rfl, rfl⟩

/-! ### The bodies -/

/-- R123, R124: `E_PAYLOAD` grows by the bytes a body emits; its checks against `COUNT_MAX` keep it from wrapping. -/
theorem encBody_payload {i : Instr} {e e' : EncState} {bs : List Byte} (h : encBody i e = .ok (e', bs)) :
    e'.ePayload.toNat = e.ePayload.toNat + bs.length := by
  cases i with
  | encLoad sym code => obtain ⟨-, -, rfl, rfl⟩ := loadBody_ok h; rfl
  | encStart => obtain ⟨-, rfl, rfl⟩ := encStartBody_ok h; rfl
  | encPut sym =>
    obtain ⟨code, -, -, -, hroom, rfl, rfl⟩ := encPutBody_ok h
    obtain ⟨-, hout, -⟩ := Packer.pushAll_spec ⟨e.eAcc, e.eNacc, []⟩ code
    rw [hout]
    simp only [Config.countMax] at hroom
    simp only [BitVec.toNat_add, BitVec.toNat_ofNat, List.length_nil]
    omega
  | encFinish =>
    obtain ⟨-, ⟨-, rfl, rfl⟩ | ⟨-, hroom, rfl, rfl⟩⟩ := encFinishBody_ok h
    · rfl
    · simp only [Config.countMax] at hroom
      show (e.ePayload + 1#32).toNat = e.ePayload.toNat + 1
      bv_omega
  | _ => exact nomatch h

/-- R27: no body but that of `ENC.PUT` moves `E_ORIG`. -/
theorem encBody_orig {i : Instr} {e e' : EncState} {bs : List Byte} (h : encBody i e = .ok (e', bs))
    (hi : ∀ sym, i ≠ .encPut sym) : e'.eOrig = e.eOrig := by
  cases i with
  | encLoad sym code => obtain ⟨-, -, rfl, -⟩ := loadBody_ok h; rfl
  | encStart => obtain ⟨-, rfl, -⟩ := encStartBody_ok h; rfl
  | encPut sym => exact absurd rfl (hi sym)
  | encFinish => obtain ⟨-, ⟨-, rfl, -⟩ | ⟨-, -, rfl, -⟩⟩ := encFinishBody_ok h <;> rfl
  | _ => exact nomatch h

/-- R145: `D_OUT` grows by the symbols a body emits; the limit `D_ORIG` keeps it from wrapping. -/
theorem decBody_out {i : Instr} {d d' : DecState} {bs : List Byte} (hi : d.Inv) (h : decBody i d = .ok (d', bs)) :
    d'.dOut.toNat = d.dOut.toNat + bs.length := by
  cases i with
  | decLeaf idx sym => obtain ⟨-, rfl, rfl⟩ := nodeBody_ok h; rfl
  | decInode idx l r => obtain ⟨-, rfl, rfl⟩ := nodeBody_ok h; rfl
  | decStart => obtain ⟨-, -, -, rfl, rfl⟩ := decStartBody_ok h; rfl
  | decPut byte =>
    obtain ⟨-, -, w, hwalk, rfl⟩ := decPutBody_ok h
    exact (decWalk_le hi.outLe hwalk).1
  | decFinish => obtain ⟨-, -, -, -, rfl, rfl⟩ := decFinishBody_ok h; rfl
  | decWr reg value =>
    obtain ⟨-, hreg, rfl⟩ := decWrBody_ok h
    obtain ⟨-, rfl⟩ | ⟨-, rfl⟩ | ⟨-, rfl⟩ | ⟨-, -, rfl⟩ := decWriteReg_some hreg <;> rfl
  | _ => exact nomatch h

/-- R146: a `DEC.PUT` that does not fault consumes one byte; the check against `D_PAYLOAD` keeps `D_BYTES` from
wrapping. -/
theorem decPutBody_bytes {byte : Byte} {d d' : DecState} {bs : List Byte} (hi : d.Inv)
    (h : decPutBody byte d = .ok (d', bs)) : d'.dBytes.toNat = d.dBytes.toNat + 1 := by
  obtain ⟨-, hroom, w, hwalk, rfl⟩ := decPutBody_ok h
  obtain ⟨-, -, -, -, -, -, -, hbytes⟩ := decWalk_frame hwalk
  have hle := hi.bytesLe
  show (w.dBytes + 1#32).toNat = _
  rw [hbytes]
  bv_omega

/-- R39: no body but that of `DEC.PUT` moves `D_BYTES`. -/
theorem decBody_bytes {i : Instr} {d d' : DecState} {bs : List Byte} (h : decBody i d = .ok (d', bs))
    (hi : ∀ byte, i ≠ .decPut byte) : d'.dBytes = d.dBytes := by
  cases i with
  | decLeaf idx sym => obtain ⟨-, rfl, -⟩ := nodeBody_ok h; rfl
  | decInode idx l r => obtain ⟨-, rfl, -⟩ := nodeBody_ok h; rfl
  | decStart => obtain ⟨-, -, -, rfl, -⟩ := decStartBody_ok h; rfl
  | decPut byte => exact absurd rfl (hi byte)
  | decFinish => obtain ⟨-, -, -, -, rfl, -⟩ := decFinishBody_ok h; rfl
  | decWr reg value =>
    obtain ⟨-, hreg, -⟩ := decWrBody_ok h
    obtain ⟨-, rfl⟩ | ⟨-, rfl⟩ | ⟨-, rfl⟩ | ⟨-, -, rfl⟩ := decWriteReg_some hreg <;> rfl
  | _ => exact nomatch h

/-! ### The commands -/

/-- R112: of the gate of ENC around a body, only a put that is neither ignored nor faults moves `E_ORIG`. -/
theorem encCommand_countsMove {i : Instr} {s t : State} (h : encCommand s (encBody i s.enc) = .next t) :
    CountsMove (EncPutAccepted i s t) s.encCounts t.encCounts := by
  rcases encCommand_cases h with ⟨herr, rfl⟩ | ⟨-, c, -, rfl⟩ | ⟨hne, e, bs, hok, rfl⟩
  · exact .unchanged (fun ⟨_, hrun, _⟩ => nomatch herr.symm.trans hrun) rfl
  · exact .unchanged (fun ⟨_, _, hst⟩ => hst rfl) rfl
  · refine ⟨?_, fun hno => ?_, ?_⟩
    · rintro ⟨⟨sym, rfl⟩, -⟩
      exact (encPutBody_counts hok).2.1
    · refine congrArg BitVec.toNat (encBody_orig hok ?_)
      rintro sym rfl
      obtain ⟨hacc, -, -, hst, -⟩ := encBody_st hok
      exact hno ⟨⟨sym, rfl⟩, of_decide_eq_true hacc, fun herr => hne (hst.symm.trans herr)⟩
    · simp only [State.encCounts, emitEnc_field_enc, emitEnc_field_encOut, encBody_payload hok, List.length_append]
      omega

/-- R212: of the gate of DEC around a body, only a put that is neither ignored nor faults moves `D_BYTES`. -/
theorem decCommand_countsMove {i : Instr} {s t : State} (hi : s.dec.Inv)
    (h : decCommand s (decBody i s.dec) = .next t) : CountsMove (DecPutAccepted i s t) s.decCounts t.decCounts := by
  rcases decCommand_cases h with ⟨herr, rfl⟩ | ⟨-, c, -, rfl⟩ | ⟨hne, d, bs, hok, rfl⟩
  · exact .unchanged (fun ⟨_, hrun, _⟩ => nomatch herr.symm.trans hrun) rfl
  · exact .unchanged (fun ⟨_, _, hst⟩ => hst rfl) rfl
  · refine ⟨?_, fun hno => ?_, ?_⟩
    · rintro ⟨⟨byte, rfl⟩, -⟩
      exact decPutBody_bytes hi hok
    · refine congrArg BitVec.toNat (decBody_bytes hok ?_)
      rintro byte rfl
      obtain ⟨hacc, -, -, hst, -⟩ := decBody_st hok
      exact hno ⟨⟨byte, rfl⟩, of_decide_eq_true hacc, fun herr => hne (hst.symm.trans herr)⟩
    · simp only [State.decCounts, emitDec_field_dec, emitDec_field_decOut, decBody_out hi hok, List.length_append]
      omega

theorem exec_encCountsMove {i : Instr} {s t : State} (h : exec i s = .next t) (hreset : i ≠ .encReset) :
    CountsMove (EncPutAccepted i s t) s.encCounts t.encCounts := by
  rcases exec_shape h with ⟨rfl, -⟩ | ⟨rfl, rfl⟩ | ⟨hread, -, v, rfl, -⟩ | ⟨-, -, -, hc, -⟩ | ⟨-, -, hu, -⟩
  · exact absurd rfl hreset
  · exact .unchanged (fun ⟨⟨_, hput⟩, _⟩ => nomatch hput) rfl
  · refine .unchanged ?_ rfl
    rintro ⟨⟨sym, rfl⟩, -⟩
    exact nomatch hread
  · exact encCommand_countsMove hc
  · obtain ⟨-, henc, hout⟩ := exec_frame_dec hu h
    refine .unchanged ?_ (by rw [State.encCounts, henc, hout]; rfl)
    rintro ⟨⟨sym, rfl⟩, -⟩
    exact nomatch hu

theorem exec_decCountsMove {i : Instr} {s t : State} (hi : s.dec.Inv) (h : exec i s = .next t)
    (hreset : i ≠ .decReset) : CountsMove (DecPutAccepted i s t) s.decCounts t.decCounts := by
  rcases exec_shape h with ⟨rfl, rfl⟩ | ⟨rfl, -⟩ | ⟨hread, -, v, rfl, -⟩ | ⟨-, -, hu, -⟩ | ⟨-, -, -, hc, -⟩
  · exact .unchanged (fun ⟨⟨_, hput⟩, _⟩ => nomatch hput) rfl
  · exact absurd rfl hreset
  · refine .unchanged ?_ rfl
    rintro ⟨⟨byte, rfl⟩, -⟩
    exact nomatch hread
  · obtain ⟨-, hdec, hout⟩ := exec_frame_enc hu h
    refine .unchanged ?_ (by rw [State.decCounts, hdec, hout]; rfl)
    rintro ⟨⟨byte, rfl⟩, -⟩
    exact nomatch hu
  · exact decCommand_countsMove hi hc

end Sys2Proof.Machine

namespace Sys2Proof.Proofs

open Sys2Proof Sys2Proof.Machine

/-- Settles O36: of everything `exec` can do, only a body that succeeds moves a count, and it checks the limit first. -/
theorem countsNeverWrap : Obligations.CountsNeverWrap := by
  refine fun i s t hi h => ⟨fun hreset => ?_, fun hreset => ?_⟩
  · obtain ⟨hput, hstay, hemitted⟩ := exec_encCountsMove h hreset
    exact ⟨hput, hstay, hemitted⟩
  · obtain ⟨hput, hstay, hemitted⟩ := exec_decCountsMove hi.dec h hreset
    exact ⟨hput, hstay, hemitted⟩

end Sys2Proof.Proofs
end

section
/-!
PROOFS for 40_reference_functions.md: `pack` and `unpack` are inverse (R101), the padding (R103), and the accounting of
the payload (R104).
-/

namespace Sys2Proof.Machine

theorem pack_unpack (P : List Byte) : pack (unpack P) = P := by
  simpa using pack_unpack_append P [] (by decide)

/-- R101: `unpack` gives the bits of each byte, most significant first. -/
theorem unpack_getElem? {P : List Byte} {k i : Nat} (hk : k < P.length) (hi : i < 8) :
    (unpack P)[8 * k + i]? = some ((P.getD k 0#8).getLsbD (7 - i)) := by
  induction P generalizing k with
  | nil => exact absurd hk (Nat.not_lt_zero k)
  | cons b P ih =>
    rw [unpack_cons]
    cases k with
    | zero =>
      rw [List.getElem?_append_left (by simpa using hi), Nat.mul_zero, Nat.zero_add, bits8_getElem? b i hi]
      rfl
    | succ k =>
      rw [List.getElem?_append_right (by simp; omega), bits8_length, show 8 * (k + 1) + i - 8 = 8 * k + i by omega,
        ih (Nat.lt_of_succ_lt_succ hk)]
      rfl

theorem unpack_pack {b : Bits} (hb : b.length % 8 = 0) : unpack (pack b) = b := by
  induction hm : b.length / 8 generalizing b with
  | zero =>
    obtain rfl : b = [] := List.length_eq_zero_iff.mp (by omega)
    rfl
  | succ m ih =>
    have htake : (b.take 8).length = 8 := by simp; omega
    have hdrop : unpack (pack (b.drop 8)) = b.drop 8 := ih (by simp; omega) (by simp; omega)
    calc unpack (pack b)
        = unpack (pack (b.take 8 ++ b.drop 8)) := by rw [List.take_append_drop]
      _ = b.take 8 ++ b.drop 8 := by rw [pack_append_byte _ _ htake, unpack_cons, bits8_byte8 _ htake, hdrop]
      _ = b := List.take_append_drop 8 b

/-- R103, in closed form. -/
theorem padding_eq (n : Nat) : padding n = (8 - n % 8) % 8 := by
  unfold padding
  split <;> omega

/-- R104: the padding brings the encoded bit-string to whole bytes. -/
theorem encBits_padded_length (T : CodeMap) (D : List Byte) :
    (encBits T D ++ zeros (padOf T D)).length = (encBits T D).length + padOf T D ∧
      ((encBits T D).length + padOf T D) % 8 = 0 := by
  refine ⟨by simp [zeros], ?_⟩
  rw [padOf, padding_eq]
  omega

theorem trim_append_zeros (b : Bits) (p : Nat) : trim (b ++ zeros p) p = b := by
  simp [trim, zeros]

end Sys2Proof.Machine

namespace Sys2Proof.Proofs

open Sys2Proof Sys2Proof.Machine

/-- Settles O41: both by induction on the bytes, one after the other. -/
theorem packUnpackInverse : Obligations.PackUnpackInverse :=
  ⟨fun P => ⟨unpack_length P, pack_unpack P, fun _ _ hk hi => unpack_getElem? hk (Nat.lt_succ_of_le hi)⟩,
    fun b hb => ⟨pack_length b, unpack_pack hb⟩⟩

/-- Settles O42, from the closed form. -/
theorem paddingReachesByteBoundary : Obligations.PaddingReachesByteBoundary := by
  intro n
  rw [padding_eq]
  refine ⟨?_, ?_, rfl⟩ <;> omega

/-- Settles O43: the padded bit-string is of whole bytes, so `unpack` gives it back. -/
theorem payloadAccounting : Obligations.PayloadAccounting := by
  intro T D
  obtain ⟨hlen, hbytes⟩ := encBits_padded_length T D
  constructor
  · rw [payload, pack_length, hlen]
    omega
  · rw [payload, unpack_pack (hlen ▸ hbytes), trim_append_zeros]

end Sys2Proof.Proofs
end

section
/-!
PROOFS for 41_encoder.md, the laws they share: the gate around a body whose outcome is known, and the outcome of each
body of ENC by the checks of R208.
-/

namespace Sys2Proof.Machine

/-! ### The gate -/

theorem encCommand_of_error {s : State} {body : Except EncCause (EncState × List Byte)} {c : EncCause}
    (hne : s.enc.eSt ≠ .err) (hbody : body = .error c) :
    encCommand s body = .next { s with enc := { s.enc with eSt := .err, eErr := c.code } } :=
  hbody ▸ encCommand_error hne c

theorem encCommand_of_ok {s : State} {body : Except EncCause (EncState × List Byte)} {e : EncState} {bs : List Byte}
    (hne : s.enc.eSt ≠ .err) (hbody : body = .ok (e, bs)) :
    encCommand s body = .next { s with enc := e, encOut := s.encOut ++ bs } :=
  hbody ▸ encCommand_ok hne e bs

/-- A body that emits nothing leaves `ENC_OUT` as it is. -/
theorem encCommand_of_ok_nil {s : State} {body : Except EncCause (EncState × List Byte)} {e : EncState}
    (hne : s.enc.eSt ≠ .err) (hbody : body = .ok (e, [])) : encCommand s body = .next { s with enc := e } := by
  rw [encCommand_of_ok hne hbody, List.append_nil]

/-! ### ENC.LOAD (R121) -/

theorem exec_encLoad_of_length_le {code : Bits} (hlen : code.length ≤ Config.maxLen) (sym : Byte) (s : State) :
    exec (.encLoad sym code) s = encCommand s (loadBody sym code s.enc) := if_neg (Nat.not_lt.mpr hlen)

theorem loadBody_of_ne_cfg {e : EncState} (hst : e.eSt ≠ .cfg) (sym : Byte) (code : Bits) :
    loadBody sym code e = .error .protocol := if_pos hst

theorem loadBody_nil {e : EncState} (hst : e.eSt = .cfg) (sym : Byte) : loadBody sym [] e = .error .badLen := by
  simp [loadBody, hst]

theorem loadBody_of_pos {e : EncState} {code : Bits} (hst : e.eSt = .cfg) (hcode : 1 ≤ code.length) (sym : Byte) :
    loadBody sym code e = .ok ({ e with ct := e.ct.write sym.toNat code }, []) := by
  rw [loadBody, if_neg (not_not.mpr hst), if_neg (Nat.not_lt.mpr hcode)]

/-! ### ENC.START (R122) -/

theorem encStartBody_of_ne_cfg {e : EncState} (hst : e.eSt ≠ .cfg) : encStartBody e = .error .protocol := if_pos hst

theorem encStartBody_of_cfg {e : EncState} (hst : e.eSt = .cfg) : encStartBody e = .ok ({ e with eSt := .run }, []) :=
  if_neg (not_not.mpr hst)

theorem exec_encStart_of_cfg {s : State} (hst : s.enc.eSt = .cfg) :
    exec .encStart s = .next { s with enc := { s.enc with eSt := .run } } :=
  encCommand_of_ok_nil (by simp [hst]) (encStartBody_of_cfg hst)

/-! ### ENC.PUT (R123) -/

theorem encPutBody_of_ne_run {e : EncState} (hst : e.eSt ≠ .run) (sym : Byte) :
    encPutBody sym e = .error .protocol := if_pos hst

theorem encPutBody_of_no_code {e : EncState} {sym : Byte} (hst : e.eSt = .run) (hcode : e.code sym = none) :
    encPutBody sym e = .error .noCode := by
  simp [encPutBody, hst, hcode]

theorem encPutBody_of_full {e : EncState} {sym : Byte} {code : Bits} (hst : e.eSt = .run)
    (hcode : e.code sym = some code)
    (hfull : e.eOrig.toNat = Config.countMax ∨
      e.ePayload.toNat + (e.eNacc.toNat + code.length) / 8 > Config.countMax) : encPutBody sym e = .error .size := by
  rcases hfull with horig | hpayload
  · simp [encPutBody, hst, hcode, horig]
  · simp [encPutBody, hst, hcode, hpayload]

/-- With room for the code the put succeeds; `encPutBody_ok` and the lemmas after it say with what. -/
theorem encPutBody_of_room {e : EncState} {sym : Byte} {code : Bits} (hst : e.eSt = .run)
    (hcode : e.code sym = some code) (horig : e.eOrig.toNat ≠ Config.countMax)
    (hpayload : e.ePayload.toNat + (e.eNacc.toNat + code.length) / 8 ≤ Config.countMax) :
    ∃ e' bs, encPutBody sym e = .ok (e', bs) := by
  simp [encPutBody, hst, hcode, horig, Nat.not_lt.mpr hpayload]

@[simp] theorem EncState.held_length (e : EncState) : e.held.length = e.eNacc.toNat := by
  simp [EncState.held, heldBits]

/-- R123: the bits emitted and held are those held before with the code appended. -/
theorem encPutBody_bits {sym : Byte} {e e' : EncState} {bs : List Byte} (hclean : e.accClean)
    (h : encPutBody sym e = .ok (e', bs)) :
    e'.accClean ∧ unpack bs ++ e'.held = e.held ++ (e.code sym).getD [] := by
  obtain ⟨code, -, hcode, -, -, rfl, rfl⟩ := encPutBody_ok h
  obtain ⟨-, -, hpush⟩ := Packer.pushAll_spec ⟨e.eAcc, e.eNacc, []⟩ code
  obtain ⟨hclean', hbits⟩ := hpush hclean
  exact ⟨hclean', by simpa [EncState.held, hcode] using hbits⟩

/-- R123, the closed form: whole bytes with less than a byte of bits after them are cut apart again by `pack`. -/
theorem pack_take_of_unpack_append {bs : List Byte} {held w : Bits} {k : Nat} (hw : unpack bs ++ held = w)
    (hk : bs.length = k) : pack (w.take (8 * k)) = bs ∧ w.drop (8 * k) = held := by
  subst hw hk
  rw [← unpack_length, List.take_left, List.drop_left, pack_unpack]
  exact ⟨rfl, rfl⟩

/-! ### ENC.FINISH (R124) -/

theorem encFinishBody_of_ne_run {e : EncState} (hst : e.eSt ≠ .run) : encFinishBody e = .error .protocol :=
  if_pos hst

theorem encFinishBody_of_none_held {e : EncState} (hst : e.eSt = .run) (hn : e.eNacc = 0#3) :
    encFinishBody e = .ok ({ e with ePad := 0#3, eSt := .done }, []) := by
  simp [encFinishBody, hst, hn]

theorem encFinishBody_of_full {e : EncState} (hst : e.eSt = .run) (hn : e.eNacc.toNat ≠ 0)
    (hfull : e.ePayload.toNat = Config.countMax) : encFinishBody e = .error .size := by
  simp only [encFinishBody, hst, hn, hfull, if_false, if_true, ne_eq, not_true]

theorem encFinishBody_of_room {e : EncState} (hst : e.eSt = .run) (hn : e.eNacc.toNat ≠ 0)
    (hroom : e.ePayload.toNat ≠ Config.countMax) :
    encFinishBody e = .ok ({ e with ePad := BitVec.ofNat 3 (8 - e.eNacc.toNat), ePayload := e.ePayload + 1#32,
                                    eAcc := 0x00#8, eNacc := 0#3, eSt := .done }, [e.eAcc]) := by
  simp only [encFinishBody, hst, hn, hroom, if_false, ne_eq, not_true]

/-- R26, R43 (a): a clean accumulator is its held bits with zeros below. -/
theorem bits8_of_cleanBelow {acc : BitVec 8} {n : BitVec 3} (hclean : cleanBelow acc n) :
    bits8 acc = heldBits acc n ++ zeros (8 - n.toNat) := by
  have hn := n.isLt
  have hbelow : (List.range (8 - n.toNat)).map (fun j => acc.getLsbD (7 - (n.toNat + j))) = zeros (8 - n.toNat) := by
    refine List.eq_replicate_iff.mpr ⟨by simp, ?_⟩
    simp only [List.mem_map, List.mem_range]
    rintro _ ⟨j, hj, rfl⟩
    exact hclean _ (by omega)
  rw [bits8, heldBits, show List.range 8 = List.range (n.toNat + (8 - n.toNat)) by rw [Nat.add_sub_cancel' (by omega)],
    List.range_add, List.map_append, List.map_map, ← hbelow]
  rfl

/-- R124: the padding count is that of R103 for the bits taken in. -/
theorem encFinishBody_pad {e e' : EncState} {bs : List Byte} (h : encFinishBody e = .ok (e', bs)) :
    e'.ePad.toNat = padding e.bitCount := by
  have hn := e.eNacc.isLt
  rw [padding_eq, EncState.bitCount]
  obtain ⟨-, ⟨h0, rfl, -⟩ | ⟨hne, -, rfl, -⟩⟩ := encFinishBody_ok h
  · simp [h0]
  · simp only [BitVec.toNat_ofNat]; omega

/-- R124: what is flushed is the bits held with the padding below. -/
theorem encFinishBody_bits {e e' : EncState} {bs : List Byte} (hclean : e.accClean)
    (h : encFinishBody e = .ok (e', bs)) : unpack bs = e.held ++ zeros e'.ePad.toNat := by
  obtain ⟨-, ⟨h0, rfl, rfl⟩ | ⟨hne, -, rfl, rfl⟩⟩ := encFinishBody_ok h
  · simp [EncState.held, heldBits, h0, zeros]
  · have hpad : (BitVec.ofNat 3 (8 - e.eNacc.toNat)).toNat = 8 - e.eNacc.toNat := by
      rw [BitVec.toNat_ofNat]; omega
    rw [unpack_cons, unpack_nil, List.append_nil, bits8_of_cleanBelow hclean, hpad]
    rfl

end Sys2Proof.Machine
end

section
/-!
PROOFS for 41_encoder.md: each command of ENC (R120 to R124, R126), and the illegal commands of both units (R127, R150).
-/

namespace Sys2Proof

theorem extWords_of_load {h : Word} (hop : opField h = 0x1#4) : extWords h = ((lenField h).toNat + 31) / 32 :=
  if_pos hop

/-- R75, R77: a header word of opcode 1 with a must-be-zero bit set selects no row. -/
theorem decode_of_reserved_load_bits {h : Word} {ext : List Word} (hop : opField h = 0x1#4)
    (hbits : h.extractLsb' 0 12 ≠ 0#12) (hlen : ext.length = extWords h) : decode h ext = .error .illegalHeader := by
  have hno : ∀ r ∈ opcodeRows, h &&& r.mask ≠ r.pattern := (no_row_iff h).mpr (by simp [hop, hbits])
  have hrow : selectRow h = none := List.find?_eq_none.mpr fun r hr => by simpa [OpRow.selects] using hno r hr
  simp [decode, hlen, hrow]

/-- R79: a 1 beyond the code makes a command of opcode 1 illegal, whatever its other bits. -/
theorem decode_of_stray_load_bits {h : Word} {ext : List Word} (hop : opField h = 0x1#4)
    (hlen : ext.length = ((lenField h).toNat + 31) / 32)
    (hstray : strayBits (lenField h).toNat ext = true) : ∃ e, decode h ext = .error e := by
  by_cases hbits : h.extractLsb' 0 12 = 0#12
  · exact ⟨_, (decode_encLoad ((selects_encLoad h).mpr ⟨hop, hbits⟩) hlen).trans (if_pos hstray)⟩
  · exact ⟨_, decode_of_reserved_load_bits hop hbits (hlen.trans (extWords_of_load hop).symm)⟩

namespace Machine

/-- R127, R150: with an illegal command at the head of `CMD`, its words are consumed and its unit takes the fault. -/
theorem step_of_decode_error {s : State} {h : Word} {ext rest : List Word} {e : Reject}
    (hcmd : s.cmd = h :: (ext ++ rest)) (hlen : ext.length = extWords h) (hd : decode h ext = .error e) :
    step s = execIllegal (unitOf h) { s with cmd := rest } := by
  simp only [step, hcmd, frame_append hlen, hd]

theorem exec_encRd_of_some {reg : RegNum} {s : State} {v : Word} (hv : encReadReg reg s.enc = some v) :
    exec (.encRd reg) s = .next { s with rsp := s.rsp ++ [v] } := by
  simp only [exec, execEncRd, hv, respond]

/-- R126: a read of a number with no register is an illegal command. -/
theorem exec_encRd_of_no_register {reg : RegNum} (hreg : 4 ≤ reg.toNat) (s : State) :
    exec (.encRd reg) s = encCommand s (.error .illegal) := by
  have hnone : encReadReg reg s.enc = none := by
    have := encReadReg_isSome reg s.enc
    rwa [decide_eq_false (by omega), Option.isSome_eq_false_iff, Option.isNone_iff_eq_none] at this
  simp only [exec, execEncRd, hnone]
  rfl

/-- R30: where the status word holds its fields. -/
theorem statusWord_fields (cause : BitVec 4) (st : RunState) :
    (statusWord cause st).extractLsb' 4 4 = cause ∧ (statusWord cause st).extractLsb' 2 2 = 0#2 ∧
      (statusWord cause st).extractLsb' 8 24 = 0#24 ∧ (statusWord cause st).extractLsb' 0 2 = st.code := by
  cases st <;> revert cause <;> decide

end Machine

end Sys2Proof

namespace Sys2Proof.Proofs

open Sys2Proof Sys2Proof.Machine

/-- Settles O10: the step is the gate of the unit around the fault with cause 1. -/
theorem illegalWordFaultsItsUnit : Obligations.IllegalWordFaultsItsUnit := by
  intro s h ext rest e hcmd hlen hd
  have hstep := step_of_decode_error hcmd hlen hd
  cases hunit : h.getLsbD 31 with
  | false =>
    rw [show unitOf h = .enc from if_neg (Bool.eq_false_iff.mp hunit)] at hstep
    exact ⟨
      fun _ hne => hstep.trans (encCommand_error (s := { s with cmd := rest }) hne .illegal),
      fun _ herr => hstep.trans (encCommand_err (s := { s with cmd := rest }) herr (.error .illegal)),
      nofun, nofun⟩
  | true =>
    rw [show unitOf h = .dec from if_pos hunit] at hstep
    exact ⟨nofun, nofun,
      fun _ hne => hstep.trans (decCommand_error (s := { s with cmd := rest }) hne .illegal),
      fun _ herr => hstep.trans (decCommand_err (s := { s with cmd := rest }) herr (.error .illegal))⟩

/-- Settles O13: the words by the decoder's two ways to reject opcode 1, the command by the checks of its body. -/
theorem encLoadWritesOneEntry : Obligations.EncLoadWritesOneEntry := by
  refine ⟨fun s h ext rest hne hop hlen hcmd hbad => ?_, fun s sym code hlen hne => ?_⟩
  · have hext : ext.length = extWords h := hlen.trans (extWords_of_load hop).symm
    have hunit : h.getLsbD 31 = false := by
      have hbit := congrArg (fun o : BitVec 4 => o.getLsbD 3) hop
      simpa using hbit
    obtain ⟨e, hd⟩ : ∃ e, decode h ext = .error e := hbad.elim
      (fun hbits => ⟨_, decode_of_reserved_load_bits hop hbits hext⟩)
      (fun hstray => decode_of_stray_load_bits hop hlen (strayBits_eq_true_iff.mpr hstray))
    exact (illegalWordFaultsItsUnit s h ext rest e hcmd hext hd).1 hunit hne
  · rw [exec_encLoad_of_length_le hlen]
    refine ⟨fun hst => encCommand_of_error hne (loadBody_of_ne_cfg hst sym code), ?_, fun hst hcode => ?_⟩
    · rintro hst rfl
      exact encCommand_of_error hne (loadBody_nil hst sym)
    · refine ⟨_, encCommand_of_ok_nil hne (loadBody_of_pos hst (List.length_pos_iff.mpr hcode) sym), rfl, ?_,
        fun other ho => ?_⟩
      · rw [EncState.code_write, if_pos rfl]
      · rw [EncState.code_write, if_neg ho]

/-- Settles O16: the checks one by one; the bits emitted and held are cut apart where the whole bytes end. -/
theorem encPutPacksCode : Obligations.EncPutPacksCode := by
  intro s sym hne
  refine ⟨fun hst => encCommand_of_error hne (encPutBody_of_ne_run hst sym),
    fun hst hcode => encCommand_of_error hne (encPutBody_of_no_code hst hcode),
    fun code hst hcode hfull => encCommand_of_error hne (encPutBody_of_full hst hcode hfull),
    fun code hst hcode horig hroom hclean => ?_⟩
  obtain ⟨e, bs, hok⟩ := encPutBody_of_room hst hcode horig hroom
  obtain ⟨hclean', hbits⟩ := encPutBody_bits hclean hok
  rw [hcode, Option.getD_some] at hbits
  have hlen := congrArg List.length hbits
  simp only [List.length_append, unpack_length, EncState.held_length] at hlen
  have hn := e.eNacc.isLt
  have hk : bs.length = (s.enc.eNacc.toNat + code.length) / 8 := by omega
  obtain ⟨hpack, hheld⟩ := pack_take_of_unpack_append hbits hk
  refine ⟨e, ?_, ?_, hheld.symm, hclean', by omega, ?_, (encPutBody_counts hok).2.1⟩
  · rw [hpack]
    exact encCommand_of_ok hne hok
  · obtain ⟨_, -, -, -, -, rfl, -⟩ := encPutBody_ok hok
    rfl
  · rw [← hk]
    exact encBody_payload (i := .encPut sym) hok

/-- Settles O17: by the checks in their order; the padding count is that of the bits taken in. -/
theorem encFinishPadsAndFlushes : Obligations.EncFinishPadsAndFlushes := by
  intro s hne
  have hheld (hn : s.enc.eNacc ≠ 0#3) : s.enc.eNacc.toNat ≠ 0 := fun h0 => hn (BitVec.eq_of_toNat_eq h0)
  refine ⟨fun hst => encCommand_of_error hne (encFinishBody_of_ne_run hst),
    fun hst hn => encCommand_of_ok_nil hne (encFinishBody_of_none_held hst hn),
    fun hst hn hfull => encCommand_of_error hne (encFinishBody_of_full hst (hheld hn) hfull),
    fun hst hn hroom => ?_⟩
  have hok := encFinishBody_of_room hst (hheld hn) hroom
  refine ⟨_, encCommand_of_ok hne hok, rfl, ?_, encFinishBody_pad hok, encBody_payload (i := .encFinish) hok⟩
  have h0 := hheld hn
  rw [BitVec.toNat_ofNat]
  omega

/-- Settles O12: every register of the reset state is read off; the table is empty. -/
theorem encResetClearsUnit : Obligations.EncResetClearsUnit := fun _ =>
  ⟨EncState.reset, rfl, rfl, rfl, EncState.code_reset, rfl, rfl, rfl, rfl, rfl⟩

/-- Settles O15: by the one check of the body. -/
theorem encStartBeginsRun : Obligations.EncStartBeginsRun := fun _ hne =>
  ⟨fun hst => encCommand_of_error hne (encStartBody_of_ne_cfg hst),
    exec_encStart_of_cfg⟩

/-- Settles O18: registers 0 to 3 are read off; another number passes the gate as an illegal command. -/
theorem encReadAnswersRegister : Obligations.EncReadAnswersRegister := by
  intro s
  obtain ⟨hcause, hzero, hhigh, hst⟩ := statusWord_fields s.enc.eErr s.enc.eSt
  refine ⟨⟨_, exec_encRd_of_some rfl, hcause, hzero, hhigh, ?_⟩, exec_encRd_of_some rfl, exec_encRd_of_some rfl,
    ⟨_, exec_encRd_of_some rfl, ?_⟩, fun reg hreg hne => ?_, fun reg hreg herr => ?_⟩
  · rw [eStatus, hst]
    cases s.enc.eSt <;> rfl
  · have hpad := s.enc.ePad.isLt
    rw [BitVec.toNat_setWidth]
    omega
  · rw [exec_encRd_of_no_register hreg, encCommand_error hne]
    rfl
  · rw [exec_encRd_of_no_register hreg, encCommand_err herr]

end Sys2Proof.Proofs
end

section
/-!
PROOFS for 41_encoder.md: the other unit's commands and the legal reads set aside (R63, R125), for either unit.
-/

namespace Sys2Proof.Machine

/-- Two states agree on a unit and its output stream. -/
def SameUnit (u : HbcUnit) (s s' : State) : Prop :=
  match u with
  | .enc => s'.enc = s.enc ∧ s'.encOut = s.encOut
  | .dec => s'.dec = s.dec ∧ s'.decOut = s.decOut

theorem SameUnit.refl (u : HbcUnit) (s : State) : SameUnit u s s := by
  cases u <;> exact ⟨rfl, rfl⟩

theorem SameUnit.trans {u : HbcUnit} {s s' s'' : State} (h : SameUnit u s s') (h' : SameUnit u s' s'') :
    SameUnit u s s'' := by
  cases u <;> exact ⟨h'.1.trans h.1, h'.2.trans h.2⟩

/-- R63: a command does to its unit in one state what it does in another with the same unit. -/
theorem SameUnit.exec {i : Instr} {s s' t : State} (hs : SameUnit i.unit s s') (h : exec i s = .next t) :
    ∃ t', Machine.exec i s' = .next t' ∧ SameUnit i.unit t t' := by
  cases hu : i.unit with
  | enc =>
    obtain ⟨hunit, hout⟩ : SameUnit .enc s s' := hu ▸ hs
    obtain ⟨bs, ws, hbs, -, hrun⟩ := exec_reads_enc hu h hunit
    exact ⟨_, hrun, rfl, by rw [hbs, hout]⟩
  | dec =>
    obtain ⟨hunit, hout⟩ : SameUnit .dec s s' := hu ▸ hs
    obtain ⟨bs, ws, hbs, -, hrun⟩ := exec_reads_dec hu h hunit
    exact ⟨_, hrun, rfl, by rw [hbs, hout]⟩

/-- R20, R59: a command of the other unit, or a legal read, leaves the unit and its output. -/
theorem sameUnit_of_exec_other {u : HbcUnit} {i : Instr} {s t : State} (hi : i.unit ≠ u ∨ isLegalRead i = true)
    (h : exec i s = .next t) : SameUnit u t s := by
  rcases hi with hu | hread
  · cases u with
    | enc =>
      obtain ⟨-, henc, hout⟩ := exec_frame_dec (by cases hi : i.unit; exacts [absurd hi hu, rfl]) h
      exact ⟨henc.symm, hout.symm⟩
    | dec =>
      obtain ⟨-, hdec, hout⟩ := exec_frame_enc (by cases hi : i.unit; exacts [rfl, absurd hi hu]) h
      exact ⟨hdec.symm, hout.symm⟩
  · obtain ⟨v, hv⟩ := exec_of_isLegalRead hread s
    cases h.symm.trans (hv s rfl rfl)
    cases u <;> exact ⟨rfl, rfl⟩

/-- R63, R125: a sequence of commands leaves a unit as the unit's own work alone does. -/
theorem runCommands_ownWork (u : HbcUnit) {is : List Instr} (hwf : ∀ i ∈ is, i.wf = true) {s s' : State}
    (hs : SameUnit u s s') :
    ∃ t t', runCommands is s = .next t ∧ runCommands (ownWork u is) s' = .next t' ∧ SameUnit u t t' := by
  induction is generalizing s s' with
  | nil => exact ⟨s, s', rfl, rfl, hs⟩
  | cons i is ih =>
    obtain ⟨hi, his⟩ := List.forall_mem_cons.mp hwf
    obtain ⟨s₁, hs₁⟩ := exec_total i s hi
    rw [runCommands_cons hs₁]
    by_cases hown : i.unit = u ∧ isLegalRead i = false
    · obtain ⟨rfl, hread⟩ := hown
      obtain ⟨s₁', hs₁', hsame⟩ := hs.exec hs₁
      rw [show ownWork i.unit (i :: is) = i :: ownWork i.unit is by simp [ownWork, hread], runCommands_cons hs₁']
      exact ih his hsame
    · have hskip : ownWork u (i :: is) = ownWork u is := List.filter_cons_of_neg (by simpa using hown)
      have hother : i.unit ≠ u ∨ isLegalRead i = true := by
        rwa [not_and_or, Bool.not_eq_false] at hown
      rw [hskip]
      exact ih his ((sameUnit_of_exec_other hother hs₁).trans hs)

end Sys2Proof.Machine
end

section
/-!
PROOFS for 41_encoder.md: the whole run of ENC (R125), by what holds of the unit after each symbol put.
-/

namespace Sys2Proof.Machine

/-! ### The loads -/

/-- R121: the code table after a sequence of loads. -/
def loadTable (ct : Table Bits) (loads : List (Byte × Bits)) : Table Bits :=
  loads.foldl (fun ct p => ct.write p.1.toNat p.2) ct

/-- R121: "the last load wins". -/
theorem codeMapOf_cons (p : Byte × Bits) (loads : List (Byte × Bits)) (sym : Byte) :
    codeMapOf (p :: loads) sym = (codeMapOf loads sym).or (if sym = p.1 then some p.2 else none) := by
  simp only [codeMapOf, List.reverse_cons, List.find?_append]
  cases loads.reverse.find? fun q => q.1 == sym with
  | some q => rfl
  | none =>
    by_cases h : sym = p.1
    · simp [h]
    · simp [h, Ne.symm h]

theorem EncState.code_loadTable (e : EncState) (loads : List (Byte × Bits)) (sym : Byte) :
    ({ e with ct := loadTable e.ct loads } : EncState).code sym = (codeMapOf loads sym).or (e.code sym) := by
  induction loads generalizing e with
  | nil => rfl
  | cons p loads ih =>
    have hload := ih { e with ct := e.ct.write p.1.toNat p.2 }
    rw [EncState.code_write] at hload
    rw [codeMapOf_cons, Option.or_assoc, show loadTable e.ct (p :: loads) = loadTable (e.ct.write p.1.toNat p.2) loads
      from rfl, hload]
    split <;> rfl

/-- The commands of a sequence of loads. -/
def encLoads (loads : List (Byte × Bits)) : List Instr := loads.map fun p => .encLoad p.1 p.2

/-- R121: loads in `CFG` write their entries and nothing else. -/
theorem runCommands_encLoads {loads : List (Byte × Bits)}
    (hloads : ∀ p ∈ loads, 1 ≤ p.2.length ∧ p.2.length ≤ Config.maxLen) {s : State} (hst : s.enc.eSt = .cfg) :
    runCommands (encLoads loads) s = .next { s with enc := { s.enc with ct := loadTable s.enc.ct loads } } := by
  induction loads generalizing s with
  | nil => rfl
  | cons p loads ih =>
    obtain ⟨⟨hpos, hlen⟩, hrest⟩ := List.forall_mem_cons.mp hloads
    have hload : exec (.encLoad p.1 p.2) s =
        .next { s with enc := { s.enc with ct := s.enc.ct.write p.1.toNat p.2 } } :=
      (exec_encLoad_of_length_le hlen p.1 s).trans (encCommand_of_ok_nil (by simp [hst]) (loadBody_of_pos hst hpos p.1))
    exact (runCommands_cons hload).trans (ih hrest hst)

/-- R122: ENC after a reset, loads and `ENC.START`. -/
def EncState.started (loads : List (Byte × Bits)) : EncState :=
  { EncState.reset with ct := loadTable [] loads, eSt := .run }

theorem runCommands_encSetup {loads : List (Byte × Bits)}
    (hloads : ∀ p ∈ loads, 1 ≤ p.2.length ∧ p.2.length ≤ Config.maxLen) (s : State) :
    runCommands ([.encReset] ++ encLoads loads ++ [.encStart]) s = .next { s with enc := EncState.started loads } := by
  have hreset : runCommands [.encReset] s = .next { s with enc := EncState.reset } := rfl
  have hload := runCommands_encLoads hloads (s := { s with enc := EncState.reset }) rfl
  rw [runCommands_append _ _ _ _ ((runCommands_append _ _ _ _ hreset).trans hload)]
  exact runCommands_cons (exec_encStart_of_cfg rfl)

/-! ### The puts -/

/-- R104: symbols one sequence after the other. -/
theorem encBits_append (T : CodeMap) (D D' : List Byte) : encBits T (D ++ D') = encBits T D ++ encBits T D' := by
  simp [encBits]

/-- R104: the padded bits fill the bytes of the payload. -/
theorem payload_length (T : CodeMap) (D : List Byte) :
    8 * (payload T D).length = (encBits T D).length + padOf T D :=
  (Proofs.payloadAccounting T D).1

/-- R113, R123: ENC in `RUN` with the codes `T`, after the symbols `D` have been put and the bytes `P` emitted. -/
structure EncTaken (T : CodeMap) (D : List Byte) (P : List Byte) (e : EncState) : Prop where
  run : e.eSt = .run
  noErr : e.eErr = 0#4
  code : ∀ sym, e.code sym = T sym
  clean : e.accClean
  bits : unpack P ++ e.held = encBits T D
  orig : e.eOrig.toNat = D.length
  payload : e.ePayload.toNat = P.length

/-- R43 (b), R113: the bits taken in are those of the codes put. -/
theorem EncTaken.bitCount_eq {T : CodeMap} {D P : List Byte} {e : EncState} (h : EncTaken T D P e) :
    e.bitCount = (encBits T D).length := by
  rw [← h.bits, List.length_append, unpack_length, EncState.held_length, EncState.bitCount, h.payload]

/-- After `ENC.START` nothing has been put yet. -/
theorem encTaken_started (loads : List (Byte × Bits)) :
    EncTaken (codeMapOf loads) [] [] (EncState.started loads) where
  run := rfl
  noErr := rfl
  code sym := (EncState.reset.code_loadTable loads sym).trans (by rw [EncState.code_reset, Option.or_none])
  clean := EncState.reset_inv.accClean
  bits := rfl
  orig := rfl
  payload := rfl

/-- R123: one more symbol, while the counts have room for it. -/
theorem EncTaken.put {T : CodeMap} {D P : List Byte} {e : EncState} (h : EncTaken T D P e) {d : Byte}
    (hd : (T d).isSome) (hcount : D.length < Config.countMax)
    (hbytes : (encBits T (D ++ [d])).length ≤ 8 * Config.countMax) :
    ∃ e' bs, encPutBody d e = .ok (e', bs) ∧ EncTaken T (D ++ [d]) (P ++ bs) e' := by
  obtain ⟨c, hc⟩ := Option.isSome_iff_exists.mp hd
  have hcode : e.code d = some c := (h.code d).trans hc
  have hsnoc : encBits T (D ++ [d]) = encBits T D ++ c := by simp [encBits, hc]
  have hroom : e.ePayload.toNat + (e.eNacc.toNat + c.length) / 8 ≤ Config.countMax := by
    have hcnt := h.bitCount_eq
    rw [hsnoc, List.length_append, ← hcnt, EncState.bitCount] at hbytes
    omega
  obtain ⟨e', bs, hok⟩ := encPutBody_of_room h.run hcode (h.orig.trans_ne hcount.ne) hroom
  obtain ⟨hclean, hbits⟩ := encPutBody_bits h.clean hok
  obtain ⟨-, horig, hct⟩ := encPutBody_counts hok
  obtain ⟨-, herr, -, hst, -⟩ := encBody_st (i := .encPut d) hok
  refine ⟨e', bs, hok, hst.trans h.run, herr.trans h.noErr, fun sym => hct ▸ h.code sym, hclean, ?_, ?_, ?_⟩
  · rw [unpack_append, List.append_assoc, hbits, hcode, Option.getD_some, ← List.append_assoc, h.bits, hsnoc]
  · rw [horig, h.orig, List.length_append]; rfl
  · rw [encBody_payload (i := .encPut d) hok, h.payload, List.length_append]

/-- R123: the symbols `D'` after the symbols `D`. -/
theorem EncTaken.puts {T : CodeMap} {D P D' : List Byte} {s : State} (h : EncTaken T D P s.enc)
    (hD' : ∀ d ∈ D', (T d).isSome) (hcount : (D ++ D').length ≤ Config.countMax)
    (hbytes : (encBits T (D ++ D')).length ≤ 8 * Config.countMax) :
    ∃ e bs, runCommands (encPuts D') s = .next { s with enc := e, encOut := s.encOut ++ bs } ∧
      EncTaken T (D ++ D') (P ++ bs) e := by
  induction D' generalizing D P s with
  | nil => exact ⟨s.enc, [], by simp [encPuts, runCommands], by simpa using h⟩
  | cons d D' ih =>
    obtain ⟨hd, hrest⟩ := List.forall_mem_cons.mp hD'
    rw [List.append_cons] at hcount hbytes ⊢
    obtain ⟨e₁, bs₁, hok, h₁⟩ := h.put hd
      (by simp only [List.length_append, List.length_singleton] at hcount; omega)
      (by rw [encBits_append, List.length_append] at hbytes; omega)
    have hput : exec (.encPut d) s = .next { s with enc := e₁, encOut := s.encOut ++ bs₁ } :=
      encCommand_of_ok (by simp [h.run]) hok
    obtain ⟨e, bs, hrun, h'⟩ :=
      ih (s := { s with enc := e₁, encOut := s.encOut ++ bs₁ }) h₁ hrest hcount hbytes
    refine ⟨e, bs₁ ++ bs, ?_, by rwa [← List.append_assoc]⟩
    rw [← List.append_assoc]
    exact (runCommands_cons hput).trans hrun

/-! ### The finish and the whole run -/

/-- R125: ENC in `DONE` with the three counts of a run over `D` with the codes `T`. -/
structure EncDone (T : CodeMap) (D : List Byte) (e : EncState) : Prop where
  done : e.eSt = .done
  noErr : e.eErr = 0#4
  orig : e.eOrig.toNat = D.length
  payload : e.ePayload.toNat = (payload T D).length
  pad : e.ePad.toNat = padOf T D

/-- R124: where the payload is within the limit, so is the byte that completes it. -/
theorem EncTaken.finish_ok {T : CodeMap} {D P : List Byte} {e : EncState} (h : EncTaken T D P e)
    (hsize : (Machine.payload T D).length ≤ Config.countMax) : ∃ e' bs, encFinishBody e = .ok (e', bs) := by
  by_cases hn : e.eNacc = 0#3
  · exact ⟨_, _, encFinishBody_of_none_held h.run hn⟩
  · have hheld : e.eNacc.toNat ≠ 0 := fun h0 => hn (BitVec.eq_of_toNat_eq h0)
    have hlen := payload_length T D
    rw [← h.bitCount_eq, EncState.bitCount] at hlen
    exact ⟨_, _, encFinishBody_of_room h.run hheld (by omega)⟩

/-- R124, R125: the finish completes the payload. -/
theorem EncTaken.finish {T : CodeMap} {D P bs : List Byte} {e e' : EncState} (h : EncTaken T D P e)
    (hok : encFinishBody e = .ok (e', bs)) : P ++ bs = Machine.payload T D ∧ EncDone T D e' := by
  have hpad : e'.ePad.toNat = padOf T D := by rw [encFinishBody_pad hok, h.bitCount_eq, padOf]
  have hout : P ++ bs = Machine.payload T D :=
    calc P ++ bs
        = pack (unpack (P ++ bs)) := (pack_unpack _).symm
      _ = pack (encBits T D ++ zeros (padOf T D)) := by
          rw [unpack_append, encFinishBody_bits h.clean hok, ← List.append_assoc, h.bits, hpad]
  obtain ⟨-, herr, -, hst, -⟩ := encBody_st (i := .encFinish) hok
  have horig : e'.eOrig = e.eOrig := encBody_orig (i := .encFinish) hok nofun
  refine ⟨hout, hst, herr.trans h.noErr, horig ▸ h.orig, ?_, hpad⟩
  rw [encBody_payload (i := .encFinish) hok, h.payload, ← hout, List.length_append]

/-- R125: the commands of a run, from any state. -/
theorem runCommands_encRun {loads : List (Byte × Bits)} {D : List Byte}
    (hloads : ∀ p ∈ loads, 1 ≤ p.2.length ∧ p.2.length ≤ Config.maxLen)
    (hcodes : ∀ d ∈ D, (codeMapOf loads d).isSome) (hcount : D.length ≤ Config.countMax)
    (hsize : (payload (codeMapOf loads) D).length ≤ Config.countMax) (s : State) :
    ∃ e, runCommands (encRun loads D) s =
        .next { s with enc := e, encOut := s.encOut ++ payload (codeMapOf loads) D } ∧
      EncDone (codeMapOf loads) D e := by
  have hbytes : (encBits (codeMapOf loads) D).length ≤ 8 * Config.countMax := by
    have := payload_length (codeMapOf loads) D
    omega
  obtain ⟨e₁, P, hputs, htaken⟩ :=
    EncTaken.puts (s := { s with enc := EncState.started loads }) (encTaken_started loads) hcodes hcount hbytes
  rw [List.nil_append, List.nil_append] at htaken
  obtain ⟨e, bs, hok⟩ := htaken.finish_ok hsize
  obtain ⟨hout, hdone⟩ := htaken.finish hok
  have hfinish : runCommands [.encFinish] { s with enc := e₁, encOut := s.encOut ++ P } =
      .next { s with enc := e, encOut := s.encOut ++ payload (codeMapOf loads) D } := by
    refine runCommands_cons ((encCommand_of_ok (by simp [htaken.run]) hok).trans ?_)
    rw [← hout, List.append_assoc]
  refine ⟨e, ?_, hdone⟩
  have hbegun := (runCommands_append _ (encPuts D) _ _ (runCommands_encSetup hloads s)).trans hputs
  exact (runCommands_append _ [.encFinish] _ _ hbegun).trans hfinish

/-- R78: the codes of a run whose commands words encode have at most `MAXLEN` bits. -/
theorem length_le_of_wf_encRun {loads : List (Byte × Bits)} {D : List Byte}
    (hwf : ∀ i ∈ encRun loads D, i.wf = true) {p : Byte × Bits} (hp : p ∈ loads) :
    p.2.length ≤ Config.maxLen := by
  have hmem : Instr.encLoad p.1 p.2 ∈ encRun loads D := by
    simp only [encRun, List.mem_append]
    exact .inl (.inl (.inl (.inr (List.mem_map_of_mem hp))))
  exact of_decide_eq_true (hwf _ hmem)

end Sys2Proof.Machine

namespace Sys2Proof.Proofs

open Sys2Proof Sys2Proof.Machine

/-- Settles O47: the unit's own work is simulated apart from the other commands; over it, the bytes emitted and the bits
held stay the bits encoded so far, and the finish pads them to the payload. -/
theorem encoderWholeRun : Obligations.EncoderWholeRun := by
  intro s is loads D hwf hwork hpos hcodes hcount hsize
  obtain ⟨t, u, ht, hu, hsame⟩ := runCommands_ownWork .enc hwf (.refl .enc s)
  rw [hwork] at hu
  have hlen (p : Byte × Bits) (hp : p ∈ loads) : p.2.length ≤ Config.maxLen :=
    length_le_of_wf_encRun (D := D) (fun i hi => hwf i (List.mem_of_mem_filter (hwork.symm ▸ hi))) hp
  obtain ⟨e, hrun, hdone⟩ := runCommands_encRun (fun p hp => ⟨hpos p hp, hlen p hp⟩) hcodes hcount hsize s
  cases hu.symm.trans hrun
  obtain ⟨henc, hout⟩ := hsame
  obtain rfl : e = t.enc := henc
  exact ⟨t, ht, hout.symm, hdone.done, hdone.noErr, hdone.orig, hdone.payload, hdone.pad⟩

end Sys2Proof.Proofs
end

section
/-!
PROOFS for 42_decoder.md, the laws the commands share: the gate around a body whose outcome is known, and the outcome of
each body of DEC by the checks of R208.
-/

namespace Sys2Proof.Machine

/-! ### The gate -/

theorem decCommand_of_error {s : State} {body : Except DecCause (DecState × List Byte)} {c : DecCause}
    (hne : s.dec.dSt ≠ .err) (hbody : body = .error c) :
    decCommand s body = .next { s with dec := { s.dec with dSt := .err, dErr := c.code } } :=
  hbody ▸ decCommand_error hne c

theorem decCommand_of_ok {s : State} {body : Except DecCause (DecState × List Byte)} {d : DecState} {bs : List Byte}
    (hne : s.dec.dSt ≠ .err) (hbody : body = .ok (d, bs)) :
    decCommand s body = .next { s with dec := d, decOut := s.decOut ++ bs } :=
  hbody ▸ decCommand_ok hne d bs

/-- A body that emits nothing leaves `DEC_OUT` as it is. -/
theorem decCommand_of_ok_nil {s : State} {body : Except DecCause (DecState × List Byte)} {d : DecState}
    (hne : s.dec.dSt ≠ .err) (hbody : body = .ok (d, [])) : decCommand s body = .next { s with dec := d } := by
  rw [decCommand_of_ok hne hbody, List.append_nil]

/-! ### DEC.LEAF and DEC.INODE (R141) -/

theorem nodeBody_of_ne_cfg {d : DecState} (hst : d.dSt ≠ .cfg) (idx : Handle) (n : Node) :
    nodeBody idx n d = .error .protocol := if_pos hst

theorem nodeBody_of_cfg {d : DecState} (hst : d.dSt = .cfg) (idx : Handle) (n : Node) :
    nodeBody idx n d = .ok ({ d with tree := d.tree.write idx.toNat n }, []) := if_neg (not_not.mpr hst)

/-! ### DEC.WR (R142) -/

theorem decWrBody_of_ne_cfg {d : DecState} (hst : d.dSt ≠ .cfg) (reg : RegNum) (value : Word) :
    decWrBody reg value d = .error .protocol := if_pos hst

/-- In `CFG` the register write decides. -/
theorem decWrBody_of_some {d d' : DecState} {reg : RegNum} {value : Word} (hst : d.dSt = .cfg)
    (hreg : decWriteReg reg value d = some d') : decWrBody reg value d = .ok (d', []) := by
  simp [decWrBody, hst, hreg]

theorem decWrBody_of_none {d : DecState} {reg : RegNum} {value : Word} (hst : d.dSt = .cfg)
    (hreg : decWriteReg reg value d = none) : decWrBody reg value d = .error .illegal := by
  simp [decWrBody, hst, hreg]

/-- R34, R142: `D_ROOT` takes the values that are handles. -/
theorem decWriteReg_root {value : Word} (hle : value.toNat ≤ 511) (d : DecState) :
    decWriteReg 4#4 value d = some { d with dRoot := value.extractLsb' 0 9 } := if_pos hle

theorem decWriteReg_root_of_lt {value : Word} (hlt : 511 < value.toNat) (d : DecState) :
    decWriteReg 4#4 value d = none := if_neg (Nat.not_le.mpr hlt)

theorem handle_of_word_toNat {value : Word} (hle : value.toNat ≤ 511) :
    (value.extractLsb' 0 9 : Handle).toNat = value.toNat := by
  rw [BitVec.extractLsb'_toNat, Nat.shiftRight_zero]
  exact Nat.mod_eq_of_lt (Nat.lt_succ_of_le hle)

/-- R142: only registers 1 to 4 are writable. -/
theorem decWriteReg_of_no_register {reg : RegNum} (hreg : reg.toNat = 0 ∨ 5 ≤ reg.toNat) (value : Word) (d : DecState) :
    decWriteReg reg value d = none := by
  refine Option.eq_none_iff_forall_not_mem.mpr fun d' hd => ?_
  rcases decWriteReg_some hd with ⟨h, -⟩ | ⟨h, -⟩ | ⟨h, -⟩ | ⟨h, -, -⟩ <;> omega

/-! ### DEC.START (R144) -/

theorem decStartBody_of_ne_cfg {d : DecState} (hst : d.dSt ≠ .cfg) : decStartBody d = .error .protocol := if_pos hst

theorem decStartBody_of_bad_header {d : DecState} (hst : d.dSt = .cfg)
    (hbad : 7 < d.dPad.toNat ∨ (d.dPayload.toNat = 0 ∧ d.dPad.toNat ≠ 0)) : decStartBody d = .error .badHdr := by
  rw [decStartBody, if_neg (not_not.mpr hst)]
  split
  · rfl
  · next hle => rw [if_pos (hbad.resolve_left hle)]

theorem decStartBody_of_header {d : DecState} (hst : d.dSt = .cfg) (hpad : d.dPad.toNat ≤ 7)
    (hpayload : ¬ (d.dPayload.toNat = 0 ∧ d.dPad.toNat ≠ 0)) :
    decStartBody d = .ok ({ d with dCur := d.dRoot, dDesc := false, dSt := .run }, []) := by
  rw [decStartBody, if_neg (not_not.mpr hst), if_neg (Nat.not_lt.mpr hpad), if_neg hpayload]

/-! ### DEC.PUT (R146) -/

theorem decPutBody_of_ne_run {d : DecState} (hst : d.dSt ≠ .run) (byte : Byte) :
    decPutBody byte d = .error .protocol := if_pos hst

theorem decPutBody_of_full {d : DecState} (hst : d.dSt = .run) (hfull : d.dBytes = d.dPayload) (byte : Byte) :
    decPutBody byte d = .error .extra := by
  simp [decPutBody, hst, hfull]

/-- R146: the bits of the byte `DEC.PUT` walks. -/
def DecState.putBits (d : DecState) (byte : Byte) : Bits := (bits8 byte).take (liveBits d)

theorem DecState.putBits_eq (d : DecState) (byte : Byte) :
    d.putBits byte = (List.range (liveBits d)).map fun i => byte.getLsbD (7 - i) := by
  have hle : liveBits d ≤ 8 := by
    unfold liveBits
    split <;> omega
  rw [DecState.putBits, bits8, ← List.map_take, List.take_range, Nat.min_eq_left hle]

/-- R106: the position the registers stand on. -/
def DecState.pos (d : DecState) : WalkPos := ⟨d.dCur, d.dDesc⟩

/-- R146: DEC after a put whose walk ends at `pos`, having emitted `n` symbols. -/
def DecState.afterPut (d : DecState) (pos : WalkPos) (n : Nat) : DecState :=
  { d with dCur := pos.cur, dDesc := pos.desc, dOut := d.dOut + BitVec.ofNat 32 n, dBytes := d.dBytes + 1#32 }

/-- R146: while bytes are announced, the walk over the bits of the byte decides. -/
theorem decPutBody_of_walk_error {d : DecState} {byte : Byte} {c : DecCause} (hst : d.dSt = .run)
    (hroom : d.dBytes ≠ d.dPayload) (hwalk : decWalk (d.putBits byte) d = .error c) :
    decPutBody byte d = .error c := by
  rw [decPutBody, if_neg (not_not.mpr hst), if_neg hroom, ← DecState.putBits, hwalk]

theorem decPutBody_of_walk_ok {d d' : DecState} {byte : Byte} {bs : List Byte} (hst : d.dSt = .run)
    (hroom : d.dBytes ≠ d.dPayload) (hwalk : decWalk (d.putBits byte) d = .ok (d', bs)) :
    decPutBody byte d = .ok ({ d' with dBytes := d'.dBytes + 1#32 }, bs) := by
  rw [decPutBody, if_neg (not_not.mpr hst), if_neg hroom, ← DecState.putBits, hwalk]

/-- R107, R146: a fault of the loop of `decode`, from the registers' position with `D_OUT` symbols already out, is the
fault of the command. -/
theorem decPutBody_of_loop_error {d : DecState} {byte : Byte} {before : List Byte} {c : DecCause}
    (hst : d.dSt = .run) (hroom : d.dBytes ≠ d.dPayload) (hout : d.dOut.toNat ≤ d.dOrig.toNat) (hleaf : d.leafAtRoot)
    (hbefore : before.length = d.dOut.toNat)
    (hloop : decodeLoop d.node d.dRoot d.dOrig.toNat (d.putBits byte) d.pos before = .error c) :
    decPutBody byte d = .error c :=
  decPutBody_of_walk_error hst hroom ((decWalk_decodeLoop _ d before hbefore hout hleaf).1 c hloop)

/-- R107, R146: without one, the command emits the symbols of the loop and takes over its position. -/
theorem decPutBody_of_loop_ok {d : DecState} {byte : Byte} {before out : List Byte} {pos : WalkPos}
    (hst : d.dSt = .run) (hroom : d.dBytes ≠ d.dPayload) (hout : d.dOut.toNat ≤ d.dOrig.toNat) (hleaf : d.leafAtRoot)
    (hbefore : before.length = d.dOut.toNat)
    (hloop : decodeLoop d.node d.dRoot d.dOrig.toNat (d.putBits byte) d.pos before = .ok (pos, out)) :
    ∃ bs, out = before ++ bs ∧ decPutBody byte d = .ok (d.afterPut pos bs.length, bs) ∧
      (d.afterPut pos bs.length).dOut.toNat = d.dOut.toNat + bs.length ∧
      (d.afterPut pos bs.length).dOut.toNat ≤ d.dOrig.toNat ∧ (d.afterPut pos bs.length).leafAtRoot := by
  obtain ⟨w, bs, hwalk, rfl, hcur, hdesc, hleaf'⟩ := (decWalk_decodeLoop _ d before hbefore hout hleaf).2 pos out hloop
  obtain ⟨hcount, hle, -⟩ := decWalk_le hout hwalk
  obtain ⟨hw, -⟩ := decWalk_ok hwalk
  rw [hcur, hdesc] at hw
  subst hw
  exact ⟨bs, rfl, decPutBody_of_walk_ok hst hroom hwalk, hcount, hle, hleaf'⟩

/-! ### DEC.FINISH (R147) -/

theorem decFinishBody_of_ne_run {d : DecState} (hst : d.dSt ≠ .run) : decFinishBody d = .error .protocol := if_pos hst

theorem decFinishBody_of_trunc {d : DecState} (hst : d.dSt = .run) (hbytes : d.dBytes ≠ d.dPayload) :
    decFinishBody d = .error .trunc := by
  simp [decFinishBody, hst, hbytes]

theorem decFinishBody_of_descending {d : DecState} (hst : d.dSt = .run) (hbytes : d.dBytes = d.dPayload)
    (hdesc : d.dDesc = true) : decFinishBody d = .error .exhausted := by
  simp [decFinishBody, hst, hbytes, hdesc]

theorem decFinishBody_of_length {d : DecState} (hst : d.dSt = .run) (hbytes : d.dBytes = d.dPayload)
    (hdesc : d.dDesc = false) (hout : d.dOut ≠ d.dOrig) : decFinishBody d = .error .length := by
  simp [decFinishBody, hst, hbytes, hdesc, hout]

theorem decFinishBody_of_complete {d : DecState} (hst : d.dSt = .run) (hbytes : d.dBytes = d.dPayload)
    (hdesc : d.dDesc = false) (hout : d.dOut = d.dOrig) : decFinishBody d = .ok ({ d with dSt := .done }, []) := by
  simp [decFinishBody, hst, hbytes, hdesc, hout]

/-! ### DEC.RD (R149) -/

theorem exec_decRd_of_some {reg : RegNum} {s : State} {v : Word} (hv : decReadReg reg s.dec = some v) :
    exec (.decRd reg) s = .next { s with rsp := s.rsp ++ [v] } := by
  simp only [exec, execDecRd, hv, respond]

/-- R149: a read of a number with no register is an illegal command. -/
theorem exec_decRd_of_no_register {reg : RegNum} (hreg : 8 ≤ reg.toNat) (s : State) :
    exec (.decRd reg) s = decCommand s (.error .illegal) := by
  have hnone : decReadReg reg s.dec = none := by
    have := decReadReg_isSome reg s.dec
    rwa [decide_eq_false (by omega), Option.isSome_eq_false_iff, Option.isNone_iff_eq_none] at this
  simp only [exec, execDecRd, hnone]
  rfl

/-- R41: where `D_POS` holds its fields. -/
theorem dPos_fields (d : DecState) :
    (dPos d).extractLsb' 0 9 = d.dCur ∧ (dPos d).extractLsb' 9 7 = 0#7 ∧ (dPos d).getLsbD 16 = d.dDesc ∧
      (dPos d).extractLsb' 17 15 = 0#15 := by
  have hbit (i : Nat) (hi : i < 32) : (dPos d).getLsbD i =
      if i < 9 then d.dCur.getLsbD i else if i < 16 then false else (BitVec.ofBool d.dDesc).getLsbD (i - 16) := by
    simp only [dPos, BitVec.truncate_eq_setWidth, BitVec.getLsbD_setWidth, BitVec.getLsbD_append, hi, decide_true,
      Bool.true_and, Nat.sub_sub, BitVec.getLsbD_zero]
    by_cases h9 : i < 9
    · rw [if_pos h9, if_pos h9]
    · rw [if_neg h9, if_neg h9]
      exact if_congr (by omega) rfl rfl
  refine ⟨extract_eq _ _ _ fun j hj => ?_, extract_eq _ _ _ fun j hj => ?_, ?_, extract_eq _ _ _ fun j hj => ?_⟩
  · rw [hbit _ (by omega), if_pos (by omega), Nat.zero_add]
  · rw [hbit _ (by omega), if_neg (by omega), if_pos (by omega), BitVec.getLsbD_zero]
  · rw [hbit 16 (by omega)]
    simp
  · rw [hbit _ (by omega), if_neg (by omega), if_neg (by omega), BitVec.getLsbD_zero]
    exact BitVec.getLsbD_of_ge _ _ (by omega)

end Sys2Proof.Machine
end

section
/-!
PROOFS for 42_decoder.md: each command of DEC (R140 to R142, R144 to R147, R149).
-/

namespace Sys2Proof

/-- R75: a header word that matches no row is illegal. -/
theorem decode_of_no_row {h : Word} {ext : List Word} (hno : ∀ r ∈ opcodeRows, h &&& r.mask ≠ r.pattern)
    (hlen : ext.length = extWords h) : decode h ext = .error .illegalHeader := by
  have hrow : selectRow h = none := List.find?_eq_none.mpr fun r hr => by simpa [OpRow.selects] using hno r hr
  simp [decode, hlen, hrow]

/-- R75, R77: a leaf word with one of its bits 17 to 8 set. -/
theorem decode_of_reserved_leaf_bits {h : Word} (hop : opField h = 0x9#4) (hleaf : h.getLsbD 18 = true)
    (hbits : h.extractLsb' 8 10 ≠ 0#10) :
    ([] : List Word).length = extWords h ∧ decode h [] = .error .illegalHeader := by
  have hlen : ([] : List Word).length = extWords h := (extWords_of_other (by simp [hop]) (by simp [hop])).symm
  obtain ⟨hrow, hrow'⟩ := (no_node_row_iff h).mpr ⟨hleaf, hbits⟩
  exact ⟨hlen, decode_of_no_row ((no_row_iff h).mpr (by simp [hop, hrow, hrow'])) hlen⟩

/-- R75, R77: a word of `DEC.WR` with a must-be-zero bit set. -/
theorem decode_of_reserved_write_bits {h : Word} (hop : opField h = 0xE#4) (hbits : h.extractLsb' 4 24 ≠ 0#24)
    (value : Word) : [value].length = extWords h ∧ decode h [value] = .error .illegalHeader := by
  have hlen : [value].length = extWords h := by simp [extWords, hop]
  exact ⟨hlen, decode_of_no_row ((no_row_iff h).mpr (by simp [hop, hbits])) hlen⟩

/-- R73: bit 31 of a header word is the first bit of its opcode. -/
theorem getLsbD_31_of_opField {h : Word} {o : BitVec 4} (hop : opField h = o) : h.getLsbD 31 = o.getLsbD 3 := by
  rw [← hop, opField, BitVec.getLsbD_extractLsb']
  rfl

end Sys2Proof

namespace Sys2Proof.Proofs

open Sys2Proof Sys2Proof.Machine

/-- Settles O19: every register of the reset state is read off; the tree is empty. -/
theorem decResetClearsUnit : Obligations.DecResetClearsUnit := fun _ =>
  ⟨DecState.reset, rfl, rfl, rfl, DecState.node_reset, rfl, rfl, rfl, rfl, rfl, rfl, rfl, rfl⟩

/-- Settles O20: the words by the rows of opcode 9, both commands by the one check of the body they share. -/
theorem decNodeWritesOneEntry : Obligations.DecNodeWritesOneEntry := by
  refine ⟨fun s h rest hne hop hleaf hbits hcmd => ?_, fun s idx left right sym hne => ?_⟩
  · obtain ⟨hlen, hd⟩ := decode_of_reserved_leaf_bits hop hleaf hbits
    exact (illegalWordFaultsItsUnit s h [] rest _ hcmd hlen hd).2.2.1 (getLsbD_31_of_opField hop) hne
  · have hfault (hst : s.dec.dSt ≠ .cfg) (n : Node) :=
      decCommand_of_error hne (nodeBody_of_ne_cfg hst idx n)
    have hwrite (hst : s.dec.dSt = .cfg) (n : Node) : ∃ d : DecState,
        decCommand s (nodeBody idx n s.dec) = .next { s with dec := d } ∧ d = { s.dec with tree := d.tree } ∧
          d.node idx = some n ∧ ∀ h : Handle, h ≠ idx → d.node h = s.dec.node h := by
      refine ⟨_, decCommand_of_ok_nil hne (nodeBody_of_cfg hst idx n), rfl, ?_, fun h hh => ?_⟩
      · rw [DecState.node_write, if_pos rfl]
      · rw [DecState.node_write, if_neg hh]
    exact ⟨fun hst => ⟨hfault hst _, hfault hst _⟩, fun hst => ⟨hwrite hst _, hwrite hst _⟩⟩

/-- Settles O21: the words by the row of `DEC.WR`, the command by the state and then the register. -/
theorem decWriteSetsRegister : Obligations.DecWriteSetsRegister := by
  refine ⟨fun s h value rest hne hop hbits hcmd => ?_, fun s value hne => ⟨fun reg hst => ?_, fun hst => ?_⟩⟩
  · obtain ⟨hlen, hd⟩ := decode_of_reserved_write_bits hop hbits value
    exact (illegalWordFaultsItsUnit s h [value] rest _ hcmd hlen hd).2.2.1 (getLsbD_31_of_opField hop) hne
  · exact decCommand_of_error hne (decWrBody_of_ne_cfg hst reg value)
  · have hwrite {reg : RegNum} {d : DecState} (hreg : decWriteReg reg value s.dec = some d) :=
      decCommand_of_ok_nil hne (decWrBody_of_some hst hreg)
    have hfault {reg : RegNum} (hreg : decWriteReg reg value s.dec = none) :=
      decCommand_of_error hne (decWrBody_of_none hst hreg)
    exact ⟨hwrite rfl, hwrite rfl, hwrite rfl,
      fun hle => ⟨_, handle_of_word_toNat hle, hwrite (decWriteReg_root hle s.dec)⟩,
      fun hlt => hfault (decWriteReg_root_of_lt hlt s.dec),
      fun reg hreg => hfault (decWriteReg_of_no_register hreg value s.dec)⟩

/-- Settles O22: by the checks in their order. -/
theorem decStartChecksHeader : Obligations.DecStartChecksHeader := by
  intro s hne
  have hzero : (s.dec.dPayload.toNat = 0 ∧ s.dec.dPad.toNat ≠ 0) ↔ (s.dec.dPayload = 0#32 ∧ s.dec.dPad ≠ 0#32) :=
    and_congr (BitVec.toNat_inj (y := 0#32)) (not_congr (BitVec.toNat_inj (y := 0#32)))
  exact ⟨fun hst => decCommand_of_error hne (decStartBody_of_ne_cfg hst),
    fun hst hbad => decCommand_of_error hne (decStartBody_of_bad_header hst (hbad.imp_right hzero.mpr)),
    fun hst hpad hpayload =>
      decCommand_of_ok_nil hne (decStartBody_of_header hst hpad fun h => hpayload (hzero.mp h))⟩

/-- Settles O23: by the node the walk stands on, then the child it steps to. -/
theorem decBitWalksTree : Obligations.DecBitWalksTree := by
  refine fun d x => ⟨fun hcur => ?_, fun sym hcur => ⟨?_, ?_, ?_⟩,
    fun left right hcur => ⟨fun hchild => ?_, fun sym hchild => ⟨fun hout => ?_, fun hout => ?_⟩, fun l r hchild => ?_⟩⟩
  · simp only [decBit, hcur]
  · rintro rfl
    simp only [decBit, hcur, if_true]
  · rintro rfl hout
    simp [decBit, hcur, decEmit, hout]
  · rintro rfl hout
    simp [decBit, hcur, decEmit, hout]
  · simp only [decBit, hcur, hchild]
  · simp only [decBit, hcur, hchild, decEmit, if_pos hout]
  · simp only [decBit, hcur, hchild, decEmit, if_neg hout]
  · simp only [decBit, hcur, hchild]

/-- Settles O24: the walk on the registers is the loop of `decode`, and the gate undoes a command that faults. -/
theorem decPutWalksByte : Obligations.DecPutWalksByte := by
  refine fun s byte hne => ⟨fun hst => decCommand_of_error hne (decPutBody_of_ne_run hst byte),
    fun hst hfull => decCommand_of_error hne (decPutBody_of_full hst hfull byte),
    fun hst hroom _ hout hleaf before hbefore => ?_⟩
  have hmore : s.dec.dBytes ≠ s.dec.dPayload := fun h => hroom.ne (congrArg BitVec.toNat h)
  have hbits := s.dec.putBits_eq byte
  refine ⟨fun c hloop => ?_, fun pos out hloop => ?_⟩
  · exact decCommand_of_error hne (decPutBody_of_loop_error hst hmore hout hleaf hbefore (hbits ▸ hloop))
  · obtain ⟨bs, happ, hok, hcount, -, -⟩ := decPutBody_of_loop_ok hst hmore hout hleaf hbefore (hbits ▸ hloop)
    refine ⟨_, bs, happ, decCommand_of_ok hne hok, rfl, hcount, ?_⟩
    show (s.dec.dBytes + 1#32).toNat = _
    bv_omega

/-- Settles O25: by the checks in their order. -/
theorem decFinishChecksEnd : Obligations.DecFinishChecksEnd := fun _ hne =>
  ⟨fun hst => decCommand_of_error hne (decFinishBody_of_ne_run hst),
    fun hst hbytes => decCommand_of_error hne (decFinishBody_of_trunc hst hbytes),
    fun hst hbytes hdesc => decCommand_of_error hne (decFinishBody_of_descending hst hbytes hdesc),
    fun hst hbytes hdesc hout => decCommand_of_error hne (decFinishBody_of_length hst hbytes hdesc hout),
    fun hst hbytes hdesc hout => decCommand_of_ok_nil hne (decFinishBody_of_complete hst hbytes hdesc hout)⟩

/-- Settles O26: registers 0 to 7 are read off; another number passes the gate as an illegal command. -/
theorem decReadAnswersRegister : Obligations.DecReadAnswersRegister := by
  intro s
  obtain ⟨hcause, hzero, hhigh, hst⟩ := statusWord_fields s.dec.dErr s.dec.dSt
  refine ⟨⟨_, exec_decRd_of_some rfl, hcause, hzero, hhigh, ?_⟩, exec_decRd_of_some rfl, exec_decRd_of_some rfl,
    exec_decRd_of_some rfl, ⟨_, exec_decRd_of_some rfl, ?_⟩, exec_decRd_of_some rfl, exec_decRd_of_some rfl,
    ⟨_, exec_decRd_of_some rfl, dPos_fields s.dec⟩, fun reg hreg hne => ?_, fun reg hreg herr => ?_⟩
  · rw [dStatus, hst]
    cases s.dec.dSt <;> rfl
  · have hroot := s.dec.dRoot.isLt
    rw [BitVec.toNat_setWidth]
    omega
  · rw [exec_decRd_of_no_register hreg, decCommand_error hne]
    rfl
  · rw [exec_decRd_of_no_register hreg, decCommand_err herr]

end Sys2Proof.Proofs
end

section
/-!
PROOFS for 42_decoder.md: what the configuration commands leave for a run (R141, R142), and `decompress_payload` (R108)
by the part of the payload consumed so far.
-/

namespace Sys2Proof.Machine

/-! ### The setup of a run -/

/-- R148: what a run of DEC goes by: the tree, the root, and the counts as numbers. -/
structure DecSetup where
  tree : TreeMap
  root : Handle
  orig : Nat
  pcount : Nat
  pad : Nat

/-- R33 to R38: the setup the registers and the tree memory hold. -/
def DecState.setup (d : DecState) : DecSetup :=
  ⟨d.node, d.dRoot, d.dOrig.toNat, d.dPayload.toNat, d.dPad.toNat⟩

/-- R141, R142: the setup a sequence of configuration commands leaves from reset. -/
def setupLeft (cfg : List Instr) : DecSetup :=
  ⟨treeLeft cfg, BitVec.ofNat 9 (regLeft cfg 4).toNat, (regLeft cfg 1).toNat, (regLeft cfg 2).toNat,
    (regLeft cfg 3).toNat⟩

namespace DecSetup

/-- R106: the position at which a run begins. -/
def start (g : DecSetup) : WalkPos := ⟨g.root, false⟩

/-- R107: the loop of `decode`. -/
def loop (g : DecSetup) (b : Bits) (pos : WalkPos) (out : List Byte) : Except DecCause (WalkPos × List Byte) :=
  decodeLoop g.tree g.root g.orig b pos out

/-- R108. -/
def decompress (g : DecSetup) (P : List Byte) : Except DecCause (List Byte) :=
  decompressPayload g.tree g.root g.orig g.pcount g.pad P

/-- R144: what `DEC.START` checks. -/
def HeaderOk (g : DecSetup) : Prop := g.pad ≤ 7 ∧ ¬ (g.pcount = 0 ∧ g.pad ≠ 0)

/-- R146: the bits of the payload bytes `P`, those of the padding left out once all announced bytes are there. -/
def consumed (g : DecSetup) (P : List Byte) : Bits :=
  if P.length = g.pcount then trim (unpack P) g.pad else unpack P

/-! ### The bits consumed -/

@[simp] theorem consumed_nil (g : DecSetup) : g.consumed [] = [] := by
  simp [consumed, trim]

theorem loop_consumed_nil (g : DecSetup) : g.loop (g.consumed []) g.start [] = .ok (g.start, []) := by
  simp [loop, decodeLoop]

/-- R146: one more byte adds its live bits. -/
theorem consumed_snoc {g : DecSetup} (hpad : g.pad ≤ 7) {P : List Byte} (hlt : P.length < g.pcount) (byte : Byte) :
    g.consumed (P ++ [byte]) =
      g.consumed P ++ (bits8 byte).take (if P.length + 1 = g.pcount then 8 - g.pad else 8) := by
  have hlen : (P ++ [byte]).length = P.length + 1 := List.length_append
  have hunpack : unpack (P ++ [byte]) = unpack P ++ bits8 byte := by rw [unpack_append, unpack_cons]; simp
  rw [consumed, consumed, if_neg hlt.ne, hlen, hunpack]
  split
  · rw [trim, List.length_append, bits8_length, Nat.add_sub_assoc (by omega), List.take_length_add_append]
  · rw [List.take_of_length_le (bits8_length byte).le]

theorem consumed_isPrefix {g : DecSetup} (hpad : g.pad ≤ 7) {P P' : List Byte}
    (hle : (P ++ P').length ≤ g.pcount) : g.consumed P <+: g.consumed (P ++ P') := by
  induction P' using List.reverseRecOn with
  | nil => simp
  | append_singleton P' byte ih =>
    rw [← List.append_assoc, List.length_append, List.length_singleton] at hle
    rw [← List.append_assoc, consumed_snoc hpad (by omega)]
    exact (ih (by omega)).trans (List.prefix_append ..)

/-! ### `decompress_payload` -/

theorem decompress_of_bad_header {g : DecSetup} (hbad : ¬ g.HeaderOk) (P : List Byte) :
    g.decompress P = .error .badHdr := by
  rw [decompress, decompressPayload]
  split
  · rfl
  · next hpad => rw [if_pos (not_not.mp fun h => hbad ⟨Nat.not_lt.mp hpad, h⟩)]

/-- R108: a payload of another length than announced is a fault, whatever else is. -/
theorem decompress_of_length_ne (g : DecSetup) {P : List Byte} (hlen : P.length ≠ g.pcount) :
    ∃ c, g.decompress P = .error c := by
  by_cases hok : g.HeaderOk
  · obtain ⟨hpad, hpayload⟩ := hok
    rw [decompress, decompressPayload, if_neg (Nat.not_lt.mpr hpad), if_neg hpayload]
    rcases Nat.lt_or_gt_of_ne hlen with hlt | hgt
    · exact ⟨_, by rw [if_neg (by omega), if_pos hlt]⟩
    · exact ⟨_, by rw [if_pos hgt]⟩
  · exact ⟨_, decompress_of_bad_header hok P⟩

theorem decompress_of_length_eq {g : DecSetup} (hok : g.HeaderOk) {P : List Byte} (hlen : P.length = g.pcount) :
    g.decompress P = decodeBits g.tree g.root (g.consumed P) g.orig := by
  obtain ⟨hpad, hpayload⟩ := hok
  rw [decompress, decompressPayload, if_neg (Nat.not_lt.mpr hpad), if_neg hpayload, if_neg hlen.not_gt,
    if_neg hlen.not_lt, consumed, if_pos hlen]

/-- R107: a fault of the loop on the first bytes is the fault of the whole payload. -/
theorem decompress_of_loop_error {g : DecSetup} (hok : g.HeaderOk) {P P' : List Byte} {c : DecCause}
    (hlen : (P ++ P').length = g.pcount) (hloop : g.loop (g.consumed P) g.start [] = .error c) :
    g.decompress (P ++ P') = .error c := by
  obtain ⟨rest, hrest⟩ := consumed_isPrefix hok.1 hlen.le
  have hloop : decodeLoop g.tree g.root g.orig (g.consumed P) ⟨g.root, false⟩ [] = .error c := hloop
  rw [decompress_of_length_eq hok hlen, decodeBits, ← hrest, decodeLoop_append, hloop]

/-- R107: the end of the loop decides. -/
theorem decompress_of_loop_ok {g : DecSetup} (hok : g.HeaderOk) {P out : List Byte} {pos : WalkPos}
    (hlen : P.length = g.pcount) (hloop : g.loop (g.consumed P) g.start [] = .ok (pos, out)) :
    g.decompress P = if pos.desc then .error .exhausted else if out.length ≠ g.orig then .error .length else .ok out := by
  have hloop : decodeLoop g.tree g.root g.orig (g.consumed P) ⟨g.root, false⟩ [] = .ok (pos, out) := hloop
  rw [decompress_of_length_eq hok hlen, decodeBits, hloop]

end DecSetup

/-! ### The configuration commands -/

/-- R141: a later write replaces the entry. -/
theorem treeLeft_append (a b : List Instr) (h : Handle) : treeLeft (a ++ b) h = (treeLeft b h).or (treeLeft a h) := by
  induction a with
  | nil => simp [treeLeft]
  | cons i a ih => cases i <;> simp [treeLeft, ih, Option.or_assoc]

/-- R142: the last value counts. -/
theorem regLeft_append_wr (cfg : List Instr) (reg : RegNum) (value : Word) (n : Nat) :
    regLeft (cfg ++ [.decWr reg value]) n = if reg.toNat = n then value else regLeft cfg n := by
  simp [regLeft]

/-- R140 to R142: DEC in `CFG`, with a setup as the commands `cfg` leave it, and nothing consumed or emitted. -/
structure DecConfigured (cfg : List Instr) (d : DecState) : Prop where
  inCfg : d.dSt = .cfg
  noErr : d.dErr = 0#4
  bytes : d.dBytes = 0#32
  out : d.dOut = 0#32
  node : ∀ h, d.node h = treeLeft cfg h
  root : d.dRoot = BitVec.ofNat 9 (regLeft cfg 4).toNat
  orig : d.dOrig = regLeft cfg 1
  payload : d.dPayload = regLeft cfg 2
  pad : d.dPad = regLeft cfg 3

theorem DecConfigured.setup_eq {cfg : List Instr} {d : DecState} (h : DecConfigured cfg d) :
    d.setup = setupLeft cfg := by
  rw [DecState.setup, setupLeft, funext h.node, h.root, h.orig, h.payload, h.pad]

theorem decConfigured_reset : DecConfigured [] DecState.reset :=
  ⟨rfl, rfl, rfl, rfl, DecState.node_reset, rfl, rfl, rfl, rfl⟩

/-- R141: a node written. -/
theorem DecConfigured.writeNode {cfg : List Instr} {d : DecState} (h : DecConfigured cfg d) (idx : Handle) (n : Node)
    {i : Instr} (htree : ∀ k, treeLeft [i] k = if k = idx then some n else none)
    (hreg : ∀ m, regLeft (cfg ++ [i]) m = regLeft cfg m) :
    DecConfigured (cfg ++ [i]) { d with tree := d.tree.write idx.toNat n } where
  inCfg := h.inCfg
  noErr := h.noErr
  bytes := h.bytes
  out := h.out
  node k := by
    rw [DecState.node_write, treeLeft_append, htree, h.node]
    split <;> rfl
  root := by rw [hreg]; exact h.root
  orig := by rw [hreg]; exact h.orig
  payload := by rw [hreg]; exact h.payload
  pad := by rw [hreg]; exact h.pad

theorem isDecConfig_decWr {reg : RegNum} {value : Word} (h : isDecConfig (.decWr reg value) = true) :
    reg.toNat = 1 ∨ reg.toNat = 2 ∨ reg.toNat = 3 ∨ (reg.toNat = 4 ∧ value.toNat ≤ 511) := by
  simpa [isDecConfig, or_assoc] using h

/-- R142: the registers after one of them is written. -/
theorem DecConfigured.registers {cfg : List Instr} {d : DecState} (h : DecConfigured cfg d) {reg : RegNum}
    {value orig payload pad : Word} {root : Handle} (horig : orig = if reg.toNat = 1 then value else d.dOrig)
    (hpayload : payload = if reg.toNat = 2 then value else d.dPayload)
    (hpad : pad = if reg.toNat = 3 then value else d.dPad)
    (hroot : root = if reg.toNat = 4 then BitVec.ofNat 9 value.toNat else d.dRoot) :
    DecConfigured (cfg ++ [.decWr reg value])
      { d with dOrig := orig, dPayload := payload, dPad := pad, dRoot := root } where
  inCfg := h.inCfg
  noErr := h.noErr
  bytes := h.bytes
  out := h.out
  node k := by
    rw [treeLeft_append]
    exact h.node k
  root := by
    rw [regLeft_append_wr, apply_ite BitVec.toNat, apply_ite (BitVec.ofNat 9), ← h.root]
    exact hroot
  orig := by
    rw [regLeft_append_wr, ← h.orig]
    exact horig
  payload := by
    rw [regLeft_append_wr, ← h.payload]
    exact hpayload
  pad := by
    rw [regLeft_append_wr, ← h.pad]
    exact hpad

/-- R142: a configuration write is accepted. -/
theorem DecConfigured.writeReg {cfg : List Instr} {d : DecState} (h : DecConfigured cfg d) {reg : RegNum} {value : Word}
    (hi : isDecConfig (.decWr reg value) = true) :
    ∃ d', decWriteReg reg value d = some d' ∧ DecConfigured (cfg ++ [.decWr reg value]) d' := by
  have hreg (n : RegNum) (hn : reg.toNat = n.toNat) : reg = n := BitVec.eq_of_toNat_eq hn
  rcases isDecConfig_decWr hi with h1 | h2 | h3 | ⟨h4, hle⟩
  · obtain rfl := hreg 1#4 h1
    exact ⟨_, rfl, h.registers rfl rfl rfl rfl⟩
  · obtain rfl := hreg 2#4 h2
    exact ⟨_, rfl, h.registers rfl rfl rfl rfl⟩
  · obtain rfl := hreg 3#4 h3
    exact ⟨_, rfl, h.registers rfl rfl rfl rfl⟩
  · obtain rfl := hreg 4#4 h4
    exact ⟨_, decWriteReg_root hle d, h.registers rfl rfl rfl rfl⟩

/-- R141, R142: a configuration command in `CFG`. -/
theorem DecConfigured.exec {cfg : List Instr} {s : State} (h : DecConfigured cfg s.dec) {i : Instr}
    (hi : isDecConfig i = true) :
    ∃ d, Machine.exec i s = .next { s with dec := d } ∧ DecConfigured (cfg ++ [i]) d := by
  have hne : s.dec.dSt ≠ .err := by simp [h.inCfg]
  have hreg (i : Instr) (hi : ∀ reg value, i ≠ .decWr reg value) (m : Nat) :
      regLeft (cfg ++ [i]) m = regLeft cfg m := by
    cases i with
    | decWr reg value => exact absurd rfl (hi reg value)
    | _ => simp [regLeft]
  cases i with
  | decLeaf idx sym =>
    exact ⟨_, decCommand_of_ok_nil hne (nodeBody_of_cfg h.inCfg idx _),
      h.writeNode idx _ (fun k => Option.none_or) (hreg _ nofun)⟩
  | decInode idx l r =>
    exact ⟨_, decCommand_of_ok_nil hne (nodeBody_of_cfg h.inCfg idx _),
      h.writeNode idx _ (fun k => Option.none_or) (hreg _ nofun)⟩
  | decWr reg value =>
    obtain ⟨d, hd, hconf⟩ := h.writeReg hi
    exact ⟨d, decCommand_of_ok_nil hne (decWrBody_of_some h.inCfg hd), hconf⟩
  | _ => exact nomatch hi

/-- R141, R142: the configuration commands `cfg'` after the commands `cfg`. -/
theorem DecConfigured.run {cfg cfg' : List Instr} (hcfg' : ∀ i ∈ cfg', isDecConfig i = true) {s : State}
    (h : DecConfigured cfg s.dec) :
    ∃ d, runCommands cfg' s = .next { s with dec := d } ∧ DecConfigured (cfg ++ cfg') d := by
  induction cfg' generalizing cfg s with
  | nil => exact ⟨s.dec, rfl, by rwa [List.append_nil]⟩
  | cons i cfg' ih =>
    obtain ⟨hi, hrest⟩ := List.forall_mem_cons.mp hcfg'
    obtain ⟨d₁, hexec, h₁⟩ := h.exec hi
    obtain ⟨d, hrun, hd⟩ := ih hrest (s := { s with dec := d₁ }) h₁
    exact ⟨d, (runCommands_cons hexec).trans hrun, by rwa [List.append_cons]⟩

end Sys2Proof.Machine
end

section
/-!
PROOFS for 42_decoder.md: the whole run of DEC (R148), by what holds of the unit after each payload byte, and the round
trip through both units.
-/

namespace Sys2Proof.Machine

/-! ### How a run ends -/

/-- R148: how a run of DEC over the payload `P` ends, with `o` emitted before it. -/
inductive DecEnded (g : DecSetup) (P o : List Byte) (t : State) : Prop
  /-- In `DONE`, with the result of `decompress_payload`. -/
  | done {out : List Byte} (ok : g.decompress P = .ok out) (st : t.dec.dSt = .done) (noErr : t.dec.dErr = 0#4)
      (outCount : t.dec.dOut.toNat = g.orig) (byteCount : t.dec.dBytes.toNat = g.pcount)
      (emitted : t.decOut = o ++ out)
  /-- In `ERR`, with the bytes `Q` consumed. -/
  | stopped {c : DecCause} {Q out : List Byte} {pos : WalkPos} (error : g.decompress P = .error c)
      (st : t.dec.dSt = .err) (cause : P.length = g.pcount → t.dec.dErr = c.code) (consumed : Q <+: P)
      (le : Q.length ≤ g.pcount) (byteCount : t.dec.dBytes.toNat = Q.length)
      (loop : g.loop (g.consumed Q) g.start [] = .ok (pos, out)) (emitted : t.decOut = o ++ out)

/-- R206: the rest of a run is ignored in `ERR`. -/
theorem runCommands_decPuts_decFinish_of_err {s : State} (herr : s.dec.dSt = .err) (P : List Byte) :
    runCommands (decPuts P ++ [.decFinish]) s = .next s := by
  induction P with
  | nil => exact runCommands_cons (i := .decFinish) (decCommand_err herr _)
  | cons b P ih => exact (runCommands_cons (i := .decPut b) (decCommand_err herr _)).trans ih

/-! ### The puts -/

/-- R146: DEC in `RUN` with the setup `g`, after the bytes `P` have been consumed and the symbols `out` emitted. -/
structure DecTaken (g : DecSetup) (P out : List Byte) (d : DecState) : Prop where
  run : d.dSt = .run
  noErr : d.dErr = 0#4
  setup : d.setup = g
  loop : g.loop (g.consumed P) g.start [] = .ok (d.pos, out)
  outCount : d.dOut.toNat = out.length
  byteCount : d.dBytes.toNat = P.length
  outLe : d.dOut.toNat ≤ d.dOrig.toNat
  bytesLe : P.length ≤ g.pcount
  leafAtRoot : d.leafAtRoot

/-- R144: after `DEC.START` nothing has been consumed yet. -/
theorem DecConfigured.started {cfg : List Instr} {d : DecState} (h : DecConfigured cfg d) :
    DecTaken d.setup [] [] { d with dCur := d.dRoot, dDesc := false, dSt := .run } where
  run := rfl
  noErr := h.noErr
  setup := rfl
  loop := d.setup.loop_consumed_nil
  outCount := by simp [h.out]
  byteCount := by simp [h.bytes]
  outLe := by simp [h.out]
  bytesLe := Nat.zero_le _
  leafAtRoot := fun _ _ => ⟨rfl, rfl⟩

namespace DecTaken

variable {g : DecSetup} {P out : List Byte}

/-- R39: `D_BYTES` is `D_PAYLOAD` when all announced bytes are there. -/
theorem bytes_eq_payload_iff {d : DecState} (h : DecTaken g P out d) :
    d.dBytes = d.dPayload ↔ P.length = g.pcount := by
  rw [← BitVec.toNat_inj, h.byteCount, ← h.setup]
  rfl

theorem out_eq_orig_iff {d : DecState} (h : DecTaken g P out d) : d.dOut = d.dOrig ↔ out.length = g.orig := by
  rw [← BitVec.toNat_inj, h.outCount, ← h.setup]
  rfl

/-- R107, R146: the loop over one more byte is the loop over its live bits from the registers' position. -/
theorem loop_snoc {d : DecState} (h : DecTaken g P out d) (hpad : g.pad ≤ 7) (hlt : P.length < g.pcount)
    (byte : Byte) : g.loop (g.consumed (P ++ [byte])) g.start [] = g.loop (d.putBits byte) d.pos out := by
  have hlive : liveBits d = if P.length + 1 = g.pcount then 8 - g.pad else 8 := by
    rw [liveBits, h.byteCount, ← h.setup]
    rfl
  have hloop : decodeLoop g.tree g.root g.orig (g.consumed P) g.start [] = .ok (d.pos, out) := h.loop
  rw [DecSetup.consumed_snoc hpad hlt, ← hlive, DecSetup.loop, decodeLoop_append, hloop]
  rfl

/-- R146: a byte over which the loop of `decode` faults. -/
theorem put_error {d : DecState} (h : DecTaken g P out d) (hpad : g.pad ≤ 7) (hlt : P.length < g.pcount)
    {byte : Byte} {c : DecCause} (hloop : g.loop (g.consumed (P ++ [byte])) g.start [] = .error c) :
    decPutBody byte d = .error c := by
  rw [h.loop_snoc hpad hlt, ← h.setup] at hloop
  exact decPutBody_of_loop_error h.run (mt h.bytes_eq_payload_iff.mp hlt.ne) h.outLe h.leafAtRoot h.outCount.symm hloop

/-- R146: a byte over which it does not. -/
theorem put_ok {d : DecState} (h : DecTaken g P out d) (hpad : g.pad ≤ 7) (hlt : P.length < g.pcount) {byte : Byte}
    {pos : WalkPos} {out' : List Byte} (hloop : g.loop (g.consumed (P ++ [byte])) g.start [] = .ok (pos, out')) :
    ∃ d' bs, decPutBody byte d = .ok (d', bs) ∧ out' = out ++ bs ∧ DecTaken g (P ++ [byte]) out' d' := by
  have hloop' := hloop
  rw [h.loop_snoc hpad hlt, ← h.setup] at hloop'
  obtain ⟨bs, rfl, hok, hcount, hle, hleaf⟩ := decPutBody_of_loop_ok h.run (mt h.bytes_eq_payload_iff.mp hlt.ne)
    h.outLe h.leafAtRoot h.outCount.symm hloop'
  refine ⟨_, bs, hok, rfl, h.run, h.noErr, h.setup, hloop, ?_, ?_, hle, ?_, hleaf⟩
  · rw [hcount, h.outCount, List.length_append]
  · have hpayload : d.dPayload.toNat = g.pcount := congrArg DecSetup.pcount h.setup
    have hbytes := h.byteCount
    show (d.dBytes + 1#32).toNat = _
    rw [List.length_append, List.length_singleton]
    bv_omega
  · rw [List.length_append]
    exact hlt

/-! ### The end of the run -/

variable {o : List Byte} {s : State}

/-- R204: a fault leaves the symbols emitted and the bytes consumed before it. -/
theorem stop (h : DecTaken g P out s.dec) (hemit : s.decOut = o ++ out) {P' : List Byte} {c c' : DecCause}
    (herror : g.decompress (P ++ P') = .error c') (hcause : (P ++ P').length = g.pcount → c = c') :
    DecEnded g (P ++ P') o { s with dec := { s.dec with dSt := .err, dErr := c.code } } :=
  .stopped herror rfl (fun hlen => congrArg DecCause.code (hcause hlen)) (List.prefix_append P P') h.bytesLe h.byteCount
    h.loop hemit

/-- R147: the finish makes the checks `decode` ends with. -/
theorem finish (h : DecTaken g P out s.dec) (hok : g.HeaderOk) (hemit : s.decOut = o ++ out) :
    ∃ t, exec .decFinish s = .next t ∧ DecEnded g P o t := by
  have hne : s.dec.dSt ≠ .err := by simp [h.run]
  have hstop {c : DecCause} (hbody : decFinishBody s.dec = .error c) {c' : DecCause}
      (herror : g.decompress P = .error c') (hcause : P.length = g.pcount → c = c') :
      ∃ t, exec .decFinish s = .next t ∧ DecEnded g P o t := by
    have hend := h.stop hemit (P' := []) (c := c) (c' := c')
    rw [List.append_nil] at hend
    exact ⟨_, decCommand_of_error hne hbody, hend herror hcause⟩
  by_cases hlen : P.length = g.pcount
  · have hbytes := h.bytes_eq_payload_iff.mpr hlen
    have hresult := DecSetup.decompress_of_loop_ok hok hlen h.loop
    cases hdesc : s.dec.dDesc with
    | true =>
      exact hstop (decFinishBody_of_descending h.run hbytes hdesc) (hresult.trans (if_pos hdesc)) fun _ => rfl
    | false =>
      rw [if_neg (by simpa [DecState.pos] using hdesc)] at hresult
      by_cases hout : out.length = g.orig
      · have hfinish := decFinishBody_of_complete h.run hbytes hdesc (h.out_eq_orig_iff.mpr hout)
        exact ⟨_, decCommand_of_ok_nil hne hfinish, .done (hresult.trans (if_neg (not_not.mpr hout))) rfl h.noErr
          (h.outCount.trans hout) (h.byteCount.trans hlen) hemit⟩
      · exact hstop (decFinishBody_of_length h.run hbytes hdesc (mt h.out_eq_orig_iff.mp hout))
          (hresult.trans (if_pos hout)) fun _ => rfl
  · obtain ⟨c', herror⟩ := g.decompress_of_length_ne hlen
    exact hstop (decFinishBody_of_trunc h.run (mt h.bytes_eq_payload_iff.mp hlen)) herror fun heq => absurd heq hlen

/-- R146, R147: the bytes `P'` after the bytes `P`, and the finish. -/
theorem puts_finish {P' : List Byte} (h : DecTaken g P out s.dec) (hok : g.HeaderOk) (hemit : s.decOut = o ++ out) :
    ∃ t, runCommands (decPuts P' ++ [.decFinish]) s = .next t ∧ DecEnded g (P ++ P') o t := by
  induction P' generalizing P out s with
  | nil =>
    obtain ⟨t, ht, hend⟩ := h.finish hok hemit
    exact ⟨t, runCommands_cons ht, by rwa [List.append_nil]⟩
  | cons byte P' ih =>
    have hne : s.dec.dSt ≠ .err := by simp [h.run]
    have hstop {c : DecCause} (hbody : decPutBody byte s.dec = .error c) {c' : DecCause}
        (herror : g.decompress (P ++ byte :: P') = .error c') (hcause : (P ++ byte :: P').length = g.pcount → c = c') :
        ∃ t, runCommands (decPuts (byte :: P') ++ [.decFinish]) s = .next t ∧ DecEnded g (P ++ byte :: P') o t := by
      have hput : exec (.decPut byte) s = _ := decCommand_of_error hne hbody
      exact ⟨_, (runCommands_cons hput).trans (runCommands_decPuts_decFinish_of_err rfl P'), h.stop hemit herror hcause⟩
    by_cases hlen : P.length = g.pcount
    · have hlonger : (P ++ byte :: P').length ≠ g.pcount := by
        rw [List.length_append, List.length_cons]
        omega
      obtain ⟨c', herror⟩ := g.decompress_of_length_ne hlonger
      exact hstop (decPutBody_of_full h.run (h.bytes_eq_payload_iff.mpr hlen) byte) herror
        fun heq => absurd heq hlonger
    · have hlt := Nat.lt_of_le_of_ne h.bytesLe hlen
      cases hloop : g.loop (g.consumed (P ++ [byte])) g.start [] with
      | error c =>
        have hbody := h.put_error hok.1 hlt hloop
        by_cases htotal : (P ++ byte :: P').length = g.pcount
        · rw [List.append_cons] at htotal
          refine hstop hbody ?_ fun _ => rfl
          rw [List.append_cons]
          exact DecSetup.decompress_of_loop_error hok htotal hloop
        · obtain ⟨c', herror⟩ := g.decompress_of_length_ne htotal
          exact hstop hbody herror fun heq => absurd heq htotal
      | ok res =>
        obtain ⟨d', bs, hbody, hout, h'⟩ := h.put_ok hok.1 hlt (pos := res.1) (out' := res.2) hloop
        obtain ⟨t, ht, hend⟩ := ih (s := { s with dec := d', decOut := s.decOut ++ bs }) h'
          (by simp [hemit, hout])
        rw [List.append_cons P]
        exact ⟨t, (runCommands_cons (i := .decPut byte) (decCommand_of_ok hne hbody)).trans ht, hend⟩

end DecTaken

/-! ### The whole run -/

/-- R144 to R147: the start, the bytes and the finish, with the unit configured. -/
theorem DecConfigured.start_puts_finish {cfg : List Instr} {s : State} (h : DecConfigured cfg s.dec) (P : List Byte) :
    ∃ t, runCommands (.decStart :: (decPuts P ++ [.decFinish])) s = .next t ∧ DecEnded s.dec.setup P s.decOut t := by
  have hne : s.dec.dSt ≠ .err := by simp [h.inCfg]
  by_cases hok : s.dec.setup.HeaderOk
  · have hstart : Machine.exec .decStart s = _ := decCommand_of_ok_nil hne (decStartBody_of_header h.inCfg hok.1 hok.2)
    obtain ⟨t, ht, hend⟩ := DecTaken.puts_finish (o := s.decOut) (P' := P)
      (s := { s with dec := { s.dec with dCur := s.dec.dRoot, dDesc := false, dSt := .run } }) h.started hok (by simp)
    exact ⟨t, (runCommands_cons hstart).trans ht, hend⟩
  · have hbad : 7 < s.dec.dPad.toNat ∨ (s.dec.dPayload.toNat = 0 ∧ s.dec.dPad.toNat ≠ 0) := by
      rwa [DecSetup.HeaderOk, not_and_or, not_not, Nat.not_le] at hok
    have hstart : Machine.exec .decStart s = _ := decCommand_of_error hne (decStartBody_of_bad_header h.inCfg hbad)
    refine ⟨_, (runCommands_cons hstart).trans (runCommands_decPuts_decFinish_of_err rfl P),
      .stopped (DecSetup.decompress_of_bad_header hok P) rfl (fun _ => rfl) List.nil_prefix (Nat.zero_le _) ?_
        s.dec.setup.loop_consumed_nil (by simp)⟩
    simp [h.bytes]

/-- R148: the commands of a run, from any state. -/
theorem runCommands_decRun {cfg : List Instr} (hcfg : ∀ i ∈ cfg, isDecConfig i = true) (P : List Byte) (s : State) :
    ∃ t, runCommands ([.decReset] ++ cfg ++ [.decStart] ++ decPuts P ++ [.decFinish]) s = .next t ∧
      DecEnded (setupLeft cfg) P s.decOut t := by
  obtain ⟨d, hrun, hconf⟩ := decConfigured_reset.run hcfg (s := { s with dec := DecState.reset })
  obtain ⟨t, ht, hend⟩ := hconf.start_puts_finish (s := { s with dec := d }) P
  have hsetup : runCommands ([.decReset] ++ cfg) s = .next { s with dec := d } := hrun
  refine ⟨t, ?_, hconf.setup_eq ▸ hend⟩
  rw [List.append_assoc, List.append_assoc, runCommands_append _ _ _ _ hsetup]
  exact ht

end Sys2Proof.Machine

namespace Sys2Proof.Proofs

open Sys2Proof Sys2Proof.Machine

/-- Settles O48: the unit's own work is simulated apart from the other commands; over it, the registers stand where the
loop of `decode` is after the bits consumed so far, until the finish or the first fault. -/
theorem decoderWholeRun : Obligations.DecoderWholeRun := by
  intro s is cfg P hwf hcfg hwork
  obtain ⟨t, u, ht, hu, hsame⟩ := runCommands_ownWork .dec hwf (.refl .dec s)
  obtain ⟨u', hrun, hend⟩ := runCommands_decRun hcfg P s
  rw [hwork] at hu
  cases hu.symm.trans hrun
  obtain ⟨hdec, hout⟩ : u.dec = t.dec ∧ u.decOut = t.decOut := hsame
  refine ⟨t, ht, ?_⟩
  rw [← hdec, ← hout]
  cases hend with
  | done ok st noErr outCount byteCount emitted =>
    refine ⟨iff_of_true st ⟨_, ok⟩, fun out hok => ?_, fun c herror => nomatch ok.symm.trans herror⟩
    cases ok.symm.trans hok
    exact ⟨emitted, noErr, outCount, byteCount⟩
  | @stopped c Q out pos error st cause consumed le byteCount loop emitted =>
    have hno (out : List Byte) : (setupLeft cfg).decompress P ≠ .ok out := fun hok => nomatch error.symm.trans hok
    refine ⟨iff_of_false (by simp [st]) fun ⟨out, hok⟩ => hno out hok, fun out hok => absurd hok (hno out),
      fun c' herror => ?_⟩
    cases error.symm.trans herror
    have hQ : P.take Q.length = Q := (List.prefix_iff_eq_take.mp consumed).symm
    refine ⟨st, cause, ?_⟩
    rw [byteCount]
    refine ⟨consumed.length_le, le, pos, out, ?_, emitted⟩
    rw [hQ]
    exact loop

end Sys2Proof.Proofs
end

section
/-!
PROOFS for 42_decoder.md: the round trip through both units (R148), by the reference functions (R104, R108, R110).
-/

namespace Sys2Proof.Machine

theorem isDecConfig_decNode (idx : Handle) (n : Node) : isDecConfig (decNode idx n) = true := by
  cases n <;> rfl

/-- R87: the four writes are accepted where the root is a handle. -/
theorem isDecConfig_of_mem_decCfg {orig payload pad : Word} {root : Handle} :
    ∀ i ∈ decCfg orig payload pad (root.zeroExtend 32), isDecConfig i = true := by
  have hroot : (root.zeroExtend 32).toNat ≤ 511 := by
    have hlt := root.isLt
    rw [BitVec.toNat_setWidth]
    omega
  simp only [decCfg, List.forall_mem_cons]
  refine ⟨rfl, rfl, rfl, ?_, nofun⟩
  simpa [isDecConfig] using hroot

/-- R87, R142: the four writes leave their values, whatever was written before. -/
theorem setupLeft_append_decCfg (cfg : List Instr) (orig payload pad root : Word) :
    setupLeft (cfg ++ decCfg orig payload pad root) =
      ⟨treeLeft cfg, BitVec.ofNat 9 root.toNat, orig.toNat, payload.toNat, pad.toNat⟩ := by
  have htree : treeLeft (cfg ++ decCfg orig payload pad root) = treeLeft cfg := by
    funext h
    rw [treeLeft_append]
    rfl
  rw [setupLeft, htree]
  simp [decCfg, regLeft]

theorem padOf_le (T : CodeMap) (D : List Byte) : padOf T D ≤ 7 := by
  rw [padOf, padding_eq]
  omega

/-- R104: an empty payload has no padding. -/
theorem padOf_eq_zero_of_payload_nil {T : CodeMap} {D : List Byte} (h : (payload T D).length = 0) :
    padOf T D = 0 := by
  have hlen := payload_length T D
  omega

/-- R108, R110: the payload decompresses to the input, with the counts R104 gives. -/
theorem decompressPayload_payload {T : CodeMap} {Tr : TreeMap} {r : Handle} (hagree : Agree T Tr r) {D : List Byte}
    (hD : ∀ d ∈ D, (T d).isSome) :
    decompressPayload Tr r D.length (payload T D).length (padOf T D) (payload T D) = .ok D := by
  have hheader : ¬ ((payload T D).length = 0 ∧ padOf T D ≠ 0) := fun ⟨hlen, hpad⟩ =>
    hpad (padOf_eq_zero_of_payload_nil hlen)
  obtain ⟨-, hbits⟩ := Proofs.payloadAccounting T D
  rw [decompressPayload, if_neg (Nat.not_lt.mpr (padOf_le T D)), if_neg hheader, if_neg (lt_irrefl _),
    if_neg (lt_irrefl _), hbits]
  exact Proofs.datapathRoundTrip T Tr r D hagree hD

end Sys2Proof.Machine

namespace Sys2Proof.Proofs

open Sys2Proof Sys2Proof.Machine

/-- Settles O49: ENC ends with the payload and its counts, over which `decompress_payload` gives the input back. -/
theorem encodeThenDecodeReturnsInput : Obligations.EncodeThenDecodeReturnsInput := by
  intro s loads nodes root D hcodes hagree hD hcount hsize
  obtain ⟨e, hrun, hdone⟩ := runCommands_encRun hcodes hD hcount hsize s
  have hcfg : ∀ i ∈ nodes.map (fun p => decNode p.1 p.2) ++
      decCfg e.eOrig e.ePayload (e.ePad.zeroExtend 32) (root.zeroExtend 32), isDecConfig i = true := by
    refine List.forall_mem_append.mpr ⟨List.forall_mem_map.mpr fun p _ => ?_, isDecConfig_of_mem_decCfg⟩
    exact isDecConfig_decNode p.1 p.2
  obtain ⟨u, hu, hend⟩ := runCommands_decRun hcfg (payload (codeMapOf loads) D)
    { s with enc := e, encOut := s.encOut ++ payload (codeMapOf loads) D }
  have hpad : (e.ePad.zeroExtend 32).toNat = padOf (codeMapOf loads) D := by
    rw [BitVec.toNat_setWidth, hdone.pad]
    have := padOf_le (codeMapOf loads) D
    omega
  have hroot : BitVec.ofNat 9 (root.zeroExtend 32).toNat = root := by
    have hlt := root.isLt
    apply BitVec.eq_of_toNat_eq
    rw [BitVec.toNat_ofNat, BitVec.toNat_setWidth]
    omega
  have hresult := decompressPayload_payload hagree hD
  rw [setupLeft_append_decCfg, hdone.orig, hdone.payload, hpad, hroot] at hend
  refine ⟨_, u, _, hrun, rfl, ?_, ?_⟩
  · rw [decRun, List.append_assoc [Instr.decReset]]
    exact hu
  · cases hend with
    | done ok st _ _ _ emitted =>
      cases ok.symm.trans hresult
      exact ⟨st, emitted⟩
    | stopped error => exact nomatch error.symm.trans hresult

end Sys2Proof.Proofs
end

section
/-!
PROOFS for 48_host_software.md: the frequency table counts each byte value present (R170, R171, R186).
-/

namespace Sys2Proof.Machine

theorem mem_occurrences {D : List Byte} {p : Byte × Nat} : p ∈ occurrences D ↔ p.1 ∈ D ∧ p.2 = D.count p.1 := by
  simp only [occurrences, List.mem_filter, List.mem_map, List.mem_range, decide_eq_true_eq]
  constructor
  · rintro ⟨⟨v, -, rfl⟩, hne⟩
    exact ⟨List.count_pos_iff.mp (Nat.pos_of_ne_zero hne), rfl⟩
  · rintro ⟨hmem, hcount⟩
    refine ⟨⟨p.1.toNat, p.1.isLt, by simp [← hcount]⟩, ?_⟩
    exact hcount ▸ (List.count_pos_iff.mpr hmem).ne'

theorem mem_occurrences_keys {D : List Byte} (b : Byte) : b ∈ (occurrences D).map Prod.fst ↔ b ∈ D := by
  simp [mem_occurrences]

/-- R171: the keys ascend, being some of the byte values 0 to 255 in their order. -/
theorem occurrences_ascending (D : List Byte) : ((occurrences D).map fun p => p.1.toNat).Pairwise (· < ·) := by
  rw [List.pairwise_map]
  refine List.Pairwise.filter _ (List.pairwise_map.mpr (List.pairwise_lt_range.imp_of_mem ?_))
  intro v w hv hw hlt
  rw [List.mem_range] at hv hw
  simpa only [BitVec.toNat_ofNat, Nat.mod_eq_of_lt hv, Nat.mod_eq_of_lt hw] using hlt

theorem occurrences_keys_nodup (D : List Byte) : ((occurrences D).map Prod.fst).Nodup := by
  have hasc := List.pairwise_map.mp (occurrences_ascending D)
  exact List.pairwise_map.mpr (hasc.imp fun hlt heq => hlt.ne (congrArg BitVec.toNat heq))

/-- R170: every position of the input is counted once. -/
theorem occurrences_sum (D : List Byte) : ((occurrences D).map Prod.snd).sum = D.length := by
  have hcounts : (occurrences D).map Prod.snd = ((occurrences D).map Prod.fst).map fun b => D.count b := by
    rw [List.map_map]
    exact List.map_congr_left fun p hp => (mem_occurrences.mp hp).2
  have hkeys : ((occurrences D).map Prod.fst).Perm D.dedup :=
    (List.perm_ext_iff_of_nodup (occurrences_keys_nodup D) D.nodup_dedup).mpr fun b => by
      rw [mem_occurrences_keys, List.mem_dedup]
  rw [hcounts, (hkeys.map _).sum_eq, List.sum_map_count_dedup_eq_length]

/-- R186: the precondition under which there is a table. -/
theorem occurrences_fit_iff (D : List Byte) :
    ((occurrences D).all fun p => decide (p.2 ≤ Config.countMax)) = true ↔ ∀ b, D.count b < 2 ^ 32 := by
  rw [List.all_eq_true]
  constructor
  · intro hfit b
    by_cases hb : b ∈ D
    · exact Nat.lt_succ_of_le (of_decide_eq_true (hfit (b, D.count b) (mem_occurrences.mpr ⟨hb, rfl⟩)))
    · rw [List.count_eq_zero_of_not_mem hb]
      exact Nat.two_pow_pos 32
  · intro hlt p hp
    rw [(mem_occurrences.mp hp).2]
    exact decide_eq_true (Nat.le_of_lt_succ (hlt p.1))

theorem freqTable_eq_none_iff (D : List Byte) : freqTable D = none ↔ ∃ b, 2 ^ 32 ≤ D.count b := by
  have hfit := not_congr (occurrences_fit_iff D)
  simp only [not_forall, not_lt] at hfit
  rw [freqTable, ite_eq_right_iff, ← hfit]
  simp only [reduceCtorEq, imp_false]

/-- R186: an input below the size limit has a frequency table. -/
theorem exists_freqTable {D : List Byte} (hD : D.length < 2 ^ 32) : ∃ F, freqTable D = some F := by
  refine Option.ne_none_iff_exists'.mp fun hnone => ?_
  obtain ⟨b, hb⟩ := (freqTable_eq_none_iff D).mp hnone
  exact absurd (hb.trans List.count_le_length) (Nat.not_le.mpr hD)

/-- R171: where there is a table, its 32-bit counts are the numbers of occurrences. -/
theorem freqTable_toNat {D : List Byte} {F : FreqTable} (hF : freqTable D = some F) :
    F.map (fun p => (p.1, p.2.toNat)) = occurrences D := by
  obtain ⟨hfit, hF⟩ := Option.ite_none_right_eq_some.mp hF
  cases hF
  rw [List.map_map]
  refine (List.map_congr_left fun p hp => ?_).trans (List.map_id _)
  have hle : p.2 ≤ Config.countMax := of_decide_eq_true (List.all_eq_true.mp hfit p hp)
  exact Prod.ext rfl (Nat.mod_eq_of_lt (Nat.lt_succ_of_le hle))

theorem freqTable_keys {D : List Byte} {F : FreqTable} (hF : freqTable D = some F) :
    F.map Prod.fst = (occurrences D).map Prod.fst := by
  rw [← freqTable_toNat hF, List.map_map]
  rfl

end Sys2Proof.Machine

namespace Sys2Proof.Proofs

open Sys2Proof Sys2Proof.Machine

/-- Settles O50: the table is the list of occurrences with its counts in 32 bits, which is filtered from all 256 byte
values in their order. -/
theorem freqTableCountsOccurrences : Obligations.FreqTableCountsOccurrences := by
  refine fun D => ⟨fun F hF => ?_, freqTable_eq_none_iff D⟩
  have hocc := freqTable_toNat hF
  refine ⟨fun b => ?_, fun p hp => ?_, ?_, ?_⟩
  · rw [freqTable_keys hF, mem_occurrences_keys]
  · exact (mem_occurrences.mp (hocc ▸ List.mem_map_of_mem hp)).2
  · simpa [← hocc, Function.comp_def] using occurrences_ascending D
  · simpa [← hocc, Function.comp_def] using occurrences_sum D

end Sys2Proof.Proofs
end

section
/-!
PROOFS for 48_host_software.md: the container is read back as it is written (R184, R185).
-/

namespace Sys2Proof.Machine

/-- R184, R185: what a 4-byte field is written as is read back, whatever bytes follow it. -/
theorem readU32_u32le (w : Word) (bs : List Byte) : readU32 (u32le w ++ bs) = some (w, bs) := by
  have hbytes : w.extractLsb' 24 8 ++ w.extractLsb' 16 8 ++ w.extractLsb' 8 8 ++ w.extractLsb' 0 8 = w := by
    rw [extract_append w 8 8 rfl, extract_append w 16 8 rfl, extract_append w 24 8 rfl]
    exact BitVec.extractLsb'_eq_self
  exact congrArg (fun v => some (v, bs)) hbytes

@[simp] theorem u32le_length (w : Word) : (u32le w).length = 4 := rfl

/-- R184: the bytes of the frequency table's entries. -/
def freqBytes (F : FreqTable) : List Byte := F.flatMap fun p => p.1 :: u32le p.2

theorem freqBytes_length (F : FreqTable) : (freqBytes F).length = 5 * F.length := by
  simp [freqBytes, List.length_flatMap, Nat.mul_comm]

theorem readFreqs_freqBytes (F : FreqTable) (bs : List Byte) :
    readFreqs F.length (freqBytes F ++ bs) = some (F, bs) := by
  induction F with
  | nil => rfl
  | cons p F ih =>
    have hcons : freqBytes (p :: F) ++ bs = p.1 :: (u32le p.2 ++ (freqBytes F ++ bs)) := by simp [freqBytes]
    rw [hcons, List.length_cons, readFreqs]
    simp only [readU32_u32le, ih]

/-- R184: the bytes written, where the number of entries fits its field. -/
theorem Container.write_of_le {c : Container} (hlen : c.freqs.length ≤ Config.countMax) :
    c.write = some (u32le c.originalSize ++ (u32le c.payloadCount ++ (u32le c.paddingBits ++
      (u32le (BitVec.ofNat 32 c.freqs.length) ++ (freqBytes c.freqs ++ c.payload))))) := by
  rw [Container.write, if_pos hlen, freqBytes]
  simp only [List.append_assoc]

/-- R185: the reader takes the fields one after the other as the writer puts them. -/
theorem Container.read_of_write {c : Container} {bytes : List Byte} (hw : c.write = some bytes) :
    Container.read bytes = some c := by
  obtain ⟨hlen, -⟩ := Option.ite_none_right_eq_some.mp hw
  cases (write_of_le hlen).symm.trans hw
  have hcount : (BitVec.ofNat 32 c.freqs.length).toNat = c.freqs.length := Nat.mod_eq_of_lt (Nat.lt_succ_of_le hlen)
  simp only [Container.read, readU32_u32le, hcount, readFreqs_freqBytes, Option.bind_eq_bind, Option.bind_some,
    Option.pure_def]

end Sys2Proof.Machine

namespace Sys2Proof.Proofs

open Sys2Proof Sys2Proof.Machine

/-- Settles O51: each field is read back from the bytes it is written as, in the same order. -/
theorem containerRoundTrip : Obligations.ContainerRoundTrip := by
  refine ⟨fun c hlen => ?_, fun c hlen => if_neg (Nat.not_le.mpr hlen)⟩
  have hw := Container.write_of_le (Nat.le_of_lt_succ hlen)
  refine ⟨_, hw, Container.read_of_write hw, ?_⟩
  simp only [List.length_append, u32le_length, freqBytes_length]
  omega

end Sys2Proof.Proofs
end

section
/-!
PROOFS for 48_host_software.md: the nodes of the built tree (R173, R175).
-/

namespace Sys2Proof.Machine

/-- R173: every turn takes two trees and puts back one, with one internal node more in the arena. -/
theorem mergeLoop_nodeCount {fuel : Nat} {nodes : List Node} {q : List (Nat × Nat)} (hne : q ≠ [])
    (hfuel : q.length ≤ fuel) :
    ∃ inner root, mergeLoop fuel nodes q = (nodes ++ inner, [root]) ∧ inner.length + 1 = q.length ∧
      ∀ n ∈ inner, ∃ l r, n = .inode l r := by
  induction fuel generalizing nodes q with
  | zero => exact absurd (List.length_eq_zero_iff.mp (Nat.le_zero.mp hfuel)) hne
  | succ fuel ih =>
    match q with
    | [x] => exact ⟨[], x, by simp [mergeLoop], rfl, nofun⟩
    | x :: y :: q =>
      have hlen : (queueInsert (x.1 + y.1, nodes.length) q).length = q.length + 1 := (queueInsert_perm _ q).length_eq
      obtain ⟨inner, root, hrun, hcount, hinner⟩ := ih
        (nodes := nodes ++ [.inode (BitVec.ofNat 9 x.2) (BitVec.ofNat 9 y.2)])
        (List.ne_nil_of_length_eq_add_one hlen) (hlen.trans_le (Nat.le_of_succ_le_succ hfuel))
      refine ⟨.inode (BitVec.ofNat 9 x.2) (BitVec.ofNat 9 y.2) :: inner, root, ?_, by simp [hcount, hlen],
        List.forall_mem_cons.mpr ⟨⟨_, _, rfl⟩, hinner⟩⟩
      rw [mergeLoop, hrun, List.append_assoc, List.singleton_append]

/-- R175: the priority structure the loop begins with: the leaves, by frequency and then handle. -/
def leafQueue (F : FreqTable) : List (Nat × Nat) := (F.mapIdx fun i p => (p.2.toNat, i)).foldr queueInsert []

theorem leafQueue_length (F : FreqTable) : (leafQueue F).length = F.length := by
  simpa [leafQueue] using (foldr_queueInsert_perm (F.mapIdx fun i p => (p.2.toNat, i))).length_eq

theorem build_of_mergeLoop {F : FreqTable} {nodes : List Node} {root : Nat × Nat} {rest : List (Nat × Nat)}
    (hrun : mergeLoop F.length (F.map fun p => .leaf p.1) (leafQueue F) = (nodes, root :: rest)) :
    build F = some ⟨nodes, BitVec.ofNat 9 root.2⟩ := by
  rw [leafQueue] at hrun
  rw [build, hrun]

end Sys2Proof.Machine

namespace Sys2Proof.Proofs

open Sys2Proof Sys2Proof.Machine

/-- Settles O52: the loop begins with the leaves and one queue entry for each, and ends with one entry. -/
theorem builderNodeCount : Obligations.BuilderNodeCount := by
  intro F hne
  have hlen := leafQueue_length F
  obtain ⟨inner, root, hrun, hcount, hinner⟩ := mergeLoop_nodeCount (nodes := F.map fun p => .leaf p.1)
    (List.ne_nil_of_length_pos (hlen ▸ List.length_pos_iff.mpr hne)) hlen.le
  exact ⟨_, inner, build_of_mergeLoop hrun, rfl, by omega, hinner⟩

end Sys2Proof.Proofs
end

section
/-!
PROOFS for 48_host_software.md: the two flows. The codes of a frequency table and the tree that is built again from it
(R181, R182), the empty table included (R183).
-/

namespace Sys2Proof.Machine

/-- R182, R183: the tree `decompress` sends to DEC, of no nodes for the empty table. -/
def treeOfFreqs (F : FreqTable) : BuiltTree := (build F).getD ⟨[], 0#9⟩

/-- R109, R178, R179: the codes loaded into ENC agree with the tree loaded into DEC, and each symbol of the table has one
that `ENC.LOAD` takes. -/
structure CodesAgree (F : FreqTable) : Prop where
  agree : Agree (codeMapOf (codesOfFreqs F)) (treeOfFreqs F).map (treeOfFreqs F).root
  isSome : ∀ b ∈ F.map Prod.fst, (codeMapOf (codesOfFreqs F) b).isSome
  length : ∀ p ∈ codesOfFreqs F, 1 ≤ p.2.length ∧ p.2.length ≤ Config.maxLen

/-- R183: the empty table has no codes, and no path leads to a symbol in the tree of no nodes. -/
theorem codesAgree_nil : CodesAgree [] where
  agree := fun _ _ => iff_of_false nofun id
  isSome := nofun
  length := nofun

/-- R188: for every table of distinct byte values. -/
theorem codesAgree_of_nodup {F : FreqTable} (hF : (F.map Prod.fst).Nodup) : CodesAgree F := by
  by_cases hne : F = []
  · exact hne ▸ codesAgree_nil
  · obtain ⟨T, hT, hagree, -, hkeys, hlength⟩ := Proofs.builderCodesAgreeWithTree F hne hF
    have htree : treeOfFreqs F = T := by rw [treeOfFreqs, hT, Option.getD_some]
    have hcodes : codesOfFreqs F = codes T.map T.root := by rw [codesOfFreqs, hT]
    refine ⟨by rwa [htree, hcodes], fun b hb => ?_, by rwa [hcodes]⟩
    obtain ⟨⟨s, c⟩, hmem, rfl⟩ := List.mem_map.mp (hkeys.mem_iff.mpr hb)
    rw [hcodes, (codeMapOf_eq_some (hkeys.nodup_iff.mpr hF) s c).mpr hmem, Option.isSome_some]

/-- R8, R173: the tree fits the tree memory. -/
theorem treeOfFreqs_length_le {F : FreqTable} (hF : (F.map Prod.fst).Nodup) :
    (treeOfFreqs F).nodes.length ≤ Config.nNodes := by
  by_cases hne : F = []
  · rw [hne]
    exact Nat.zero_le _
  · obtain ⟨T, -, hT, -, -, hlen⟩ := build_holds F hne (FreqTable.length_le hF)
    have hle := FreqTable.length_le hF
    rw [treeOfFreqs, hT, Option.getD_some]
    show T.nodes.length ≤ 512
    omega

theorem treeLeft_decNode (idx : Handle) (n : Node) (h : Handle) :
    treeLeft [decNode idx n] h = if h = idx then some n else none := by
  cases n <;> simp [decNode, treeLeft]

/-- R179, R182: the commands for an arena that fits the tree memory leave each node at its index. -/
theorem treeLeft_decNodes {t : BuiltTree} (ht : t.nodes.length ≤ Config.nNodes) : treeLeft (decNodes t) = t.map := by
  funext h
  obtain ⟨nodes, root⟩ := t
  show treeLeft (nodes.mapIdx fun i n => decNode (BitVec.ofNat 9 i) n) h = nodes[h.toNat]?
  induction nodes using List.reverseRecOn with
  | nil => rfl
  | append_singleton nodes n ih =>
    have hlt : nodes.length < 512 := by simpa using ht
    have hidx : h = BitVec.ofNat 9 nodes.length ↔ h.toNat = nodes.length := by
      rw [← BitVec.toNat_inj, BitVec.toNat_ofNat, Nat.mod_eq_of_lt hlt]
    rw [List.mapIdx_concat, treeLeft_append, treeLeft_decNode, ih hlt.le]
    by_cases hn : h.toNat = nodes.length
    · rw [if_pos (hidx.mpr hn), hn, List.getElem?_concat_length, Option.some_or]
    · rw [if_neg (mt hidx.mp hn), Option.none_or, List.getElem?_append]
      split
      · rfl
      · rw [List.getElem?_eq_none (by omega), List.getElem?_eq_none (by simp; omega)]

end Sys2Proof.Machine
end

section
/-!
PROOFS for 48_host_software.md: `compress` and then `decompress` gives the input back (R181, R182, R188).
-/

namespace Sys2Proof.Machine

/-! ### The responses -/

/-- R59: commands that read no register leave `RSP`. -/
theorem runCommands_rsp {is : List Instr} (hread : ∀ i ∈ is, isLegalRead i = false) {s t : State}
    (h : runCommands is s = .next t) : t.rsp = s.rsp := by
  induction is generalizing s with
  | nil =>
    cases h
    rfl
  | cons i is ih =>
    obtain ⟨hi, his⟩ := List.forall_mem_cons.mp hread
    cases hexec : exec i s with
    | next s' =>
      rw [runCommands_cons hexec] at h
      exact (ih his h).trans (exec_rsp_of_not_isLegalRead hi hexec)
    | fault f => simp [runCommands, hexec] at h
    | refused r => simp [runCommands, hexec] at h

/-- R142: no command that configures DEC is a read. -/
theorem isLegalRead_of_isDecConfig {i : Instr} (h : isDecConfig i = true) : isLegalRead i = false := by
  cases i with
  | decRd reg => exact nomatch h
  | encRd reg => exact nomatch h
  | _ => rfl

/-- R202, R205: the status word of a run that ended without a fault. -/
theorem statusWord_done : statusWord 0#4 .done = 0x00000002#32 := by decide

/-- R223 step 6: the words the reads after a run of ENC answer. -/
theorem runCommands_encReads (s : State) :
    runCommands encReads s =
      .next { s with rsp := s.rsp ++ [eStatus s.enc, s.enc.eOrig, s.enc.ePayload, s.enc.ePad.zeroExtend 32] } := by
  simp [encReads, runCommands, exec, execEncRd, encReadReg, respond]

/-- R205: the unit reports `DONE` and no fault. -/
theorem EncDone.eStatus_eq {T : CodeMap} {D : List Byte} {e : EncState} (h : EncDone T D e) :
    eStatus e = 0x00000002#32 := by
  rw [eStatus, h.noErr, h.done, statusWord_done]

/-! ### A run of DEC over a payload -/

/-- R182: a run of DEC configured by `nodes` reads no register. -/
theorem isLegalRead_of_mem_decRun {nodes : List Instr} (hnodes : ∀ i ∈ nodes, isDecConfig i = true)
    (orig pcount pad root : Word) (P : List Byte) :
    ∀ i ∈ decRun nodes orig pcount pad root P, isLegalRead i = false := by
  simp only [decRun, decCfg, decPuts, List.forall_mem_append, List.forall_mem_cons, List.forall_mem_map]
  have hread : ∀ i ∈ nodes, isLegalRead i = false := fun i hi => isLegalRead_of_isDecConfig (hnodes i hi)
  simpa [isLegalRead] using hread

/-- R148: over the payload of `D`, with a tree that agrees with the codes and the three counts of R104, DEC emits `D`. -/
theorem runCommands_decRun_payload {nodes : List Instr} {T : CodeMap} {root : Handle} {D : List Byte}
    {orig pcount pad : Word} (hnodes : ∀ i ∈ nodes, isDecConfig i = true) (hagree : Agree T (treeLeft nodes) root)
    (hD : ∀ d ∈ D, (T d).isSome) (horig : orig.toNat = D.length) (hpcount : pcount.toNat = (payload T D).length)
    (hpad : pad.toNat = padOf T D) (s : State) :
    ∃ t, runCommands (decRun nodes orig pcount pad (root.zeroExtend 32) (payload T D)) s = .next t ∧
      dStatus t.dec = 0x00000002#32 ∧ t.decOut = s.decOut ++ D ∧ t.rsp = s.rsp := by
  obtain ⟨t, ht, hend⟩ := runCommands_decRun
    (List.forall_mem_append.mpr ⟨hnodes, isDecConfig_of_mem_decCfg (orig := orig) (payload := pcount) (pad := pad)⟩)
    (payload T D) s
  have hroot : BitVec.ofNat 9 (root.zeroExtend 32).toNat = root := by
    rw [BitVec.ofNat_toNat, BitVec.zeroExtend, BitVec.setWidth_setWidth_of_le _ (by decide), BitVec.setWidth_eq]
  rw [setupLeft_append_decCfg, horig, hpcount, hpad, hroot] at hend
  rw [← List.append_assoc [Instr.decReset]] at ht
  have hrsp := runCommands_rsp (isLegalRead_of_mem_decRun hnodes _ _ _ _ _) ht
  cases hend with
  | done ok st noErr _ _ emitted =>
    cases ok.symm.trans (decompressPayload_payload hagree hD)
    exact ⟨t, ht, by rw [dStatus, noErr, st, statusWord_done], emitted, hrsp⟩
  | stopped error => exact nomatch error.symm.trans (decompressPayload_payload hagree hD)

/-! ### The two flows -/

/-- R181: `compress` writes the container from the counts read back and the bytes emitted. -/
theorem compress_of_run {D : List Byte} {F : FreqTable} {t : State} {bytes : List Byte} (hF : freqTable D = some F)
    (hrun : runCommands (encRun (codesOfFreqs F) D) State.reset = .next t) (hst : eStatus t.enc = 0x00000002#32)
    (hrsp : t.rsp = [])
    (hw : Container.write ⟨t.enc.eOrig, t.enc.ePayload, t.enc.ePad.zeroExtend 32, F, t.encOut⟩ = some bytes) :
    compress D = some (bytes, compressedSize t.encOut bytes) := by
  have hreads := (runCommands_append _ encReads _ _ hrun).trans (runCommands_encReads t)
  simp only [compress, hF, hreads, hrsp, hst, hw, List.nil_append, if_true, Option.bind_eq_bind, Option.bind_some,
    Option.pure_def]

/-- R182: `decompress` returns the bytes emitted for the container it reads. -/
theorem decompress_of_run {bytes : List Byte} {c : Container} {t : State} (hread : Container.read bytes = some c)
    (hrun : runCommands (decRun (decNodes (treeOfFreqs c.freqs)) c.originalSize c.payloadCount c.paddingBits
      ((treeOfFreqs c.freqs).root.zeroExtend 32) c.payload) State.reset = .next t)
    (hst : dStatus t.dec = 0x00000002#32) (hrsp : t.rsp = []) : decompress bytes = some t.decOut := by
  have hstatus : runCommands [.decRd 0#4] t = .next { t with rsp := t.rsp ++ [dStatus t.dec] } :=
    runCommands_cons (exec_decRd_of_some rfl)
  have hall := (runCommands_append _ [.decRd 0#4] _ _ hrun).trans hstatus
  unfold treeOfFreqs at hall
  simp only [decompress, hread, hall, hrsp, hst, List.nil_append, if_true, Option.bind_eq_bind, Option.bind_some]

/-- R178, R179: the nodes `decompress` sends are configuration commands. -/
theorem isDecConfig_of_mem_decNodes (t : BuiltTree) : ∀ i ∈ decNodes t, isDecConfig i = true := by
  intro i hi
  obtain ⟨k, hk, rfl⟩ := List.mem_mapIdx.mp hi
  exact isDecConfig_decNode _ _

end Sys2Proof.Machine

namespace Sys2Proof.Proofs

open Sys2Proof Sys2Proof.Machine

/-- Settles O55: the run of ENC leaves the payload and its counts, the container carries them with the table, and the run
of DEC walks the tree built from that table, which agrees with the codes. -/
theorem compressDecompressRoundTrip : Obligations.CompressDecompressRoundTrip := by
  intro D hlen
  obtain ⟨F, hF⟩ := exists_freqTable hlen
  refine ⟨F, hF, fun hsize => ?_⟩
  have hnodup : (F.map Prod.fst).Nodup := freqTable_keys hF ▸ occurrences_keys_nodup D
  obtain ⟨hagree, hsome, hcodes⟩ := codesAgree_of_nodup hnodup
  have hD : ∀ d ∈ D, (codeMapOf (codesOfFreqs F) d).isSome := fun d hd =>
    hsome d (by rwa [freqTable_keys hF, mem_occurrences_keys])
  obtain ⟨e, hrun, hdone⟩ :=
    runCommands_encRun hcodes hD (Nat.le_of_lt_succ hlen) (Nat.le_of_lt_succ hsize) State.reset
  have hentries : F.length ≤ Config.countMax := (FreqTable.length_le hnodup).trans (by decide)
  obtain ⟨bytes, hw⟩ : ∃ bytes, Container.write
      ⟨e.eOrig, e.ePayload, e.ePad.zeroExtend 32, F, payload (codeMapOf (codesOfFreqs F)) D⟩ = some bytes :=
    ⟨_, Container.write_of_le hentries⟩
  have hpad : (e.ePad.zeroExtend 32).toNat = padOf (codeMapOf (codesOfFreqs F)) D := by
    rw [BitVec.toNat_setWidth_of_le (by decide), hdone.pad]
  rw [← treeLeft_decNodes (treeOfFreqs_length_le hnodup)] at hagree
  obtain ⟨t, ht, hst, hout, hrsp⟩ := runCommands_decRun_payload (isDecConfig_of_mem_decNodes _) hagree hD hdone.orig
    hdone.payload hpad State.reset
  refine ⟨bytes, _, compress_of_run hF hrun hdone.eStatus_eq rfl hw, ?_⟩
  rw [decompress_of_run (Container.read_of_write hw) ht hst hrsp, hout]
  rfl

end Sys2Proof.Proofs
end

section
/-!
PROOFS for 49_command_classes.md: the transition relation of a unit's run state over the commands (R192, R206, R208).
-/

namespace Sys2Proof.Machine

/-- R192: the run state an accepted command that does not fault leaves. -/
def runStateAfter : Instr → RunState → RunState
  | .encStart, _ => .run
  | .decStart, _ => .run
  | .encFinish, _ => .done
  | .decFinish, _ => .done
  | _, st => st

/-- R192: the moves of a unit's run state by one of its commands. -/
inductive RunStateMove (i : Instr) (st : RunState) : RunState → Prop
  | reset (hreset : isReset i) : RunStateMove i st .cfg
  | read (hread : isLegalRead i = true) : RunStateMove i st st
  /-- The command is ignored in `ERR` (R206), or it faults (R204). -/
  | err (hreset : ¬ isReset i) (hread : isLegalRead i = false) : RunStateMove i st .err
  | own (hreset : ¬ isReset i) (hread : isLegalRead i = false) (hst : st ≠ .err) (hacc : acceptedIn i st = true)
      (hrd : ∀ reg, i ≠ .encRd reg ∧ i ≠ .decRd reg) : RunStateMove i st (runStateAfter i st)

theorem not_isReset_of_isResetB {i : Instr} (h : isResetB i = false) : ¬ isReset i := by
  rw [← isResetB_iff, h]
  exact Bool.false_ne_true

theorem not_isReset_of_isLegalRead {i : Instr} (h : isLegalRead i = true) : ¬ isReset i := by
  rintro (rfl | rfl) <;> exact nomatch h

/-- A body of ENC that succeeds leaves the run state R192 names. -/
theorem encBody_runState {i : Instr} {e e' : EncState} {bs : List Byte} (h : encBody i e = .ok (e', bs)) :
    e'.eSt = runStateAfter i e.eSt := by
  obtain ⟨-, -, -, hst, -⟩ := encBody_st h
  cases i with
  | decStart | decFinish => exact nomatch h
  | _ => exact hst

/-- A body of DEC that succeeds leaves the run state R192 names. -/
theorem decBody_runState {i : Instr} {d d' : DecState} {bs : List Byte} (h : decBody i d = .ok (d', bs)) :
    d'.dSt = runStateAfter i d.dSt := by
  obtain ⟨-, -, -, hst, -⟩ := decBody_st h
  cases i with
  | encStart | encFinish => exact nomatch h
  | _ => exact hst

/-- The gate of ENC around the body of a command moves the run state of ENC as R192 says. -/
theorem encCommand_runStateMove {i : Instr} {s t : State} (hreset : ¬ isReset i) (hread : isLegalRead i = false)
    (h : encCommand s (encBody i s.enc) = .next t) : RunStateMove i s.enc.eSt t.enc.eSt := by
  rcases encCommand_cases h with ⟨herr, rfl⟩ | ⟨-, c, -, rfl⟩ | ⟨hne, e, bs, hok, rfl⟩
  · rw [herr]; exact .err hreset hread
  · exact .err hreset hread
  · obtain ⟨hacc, -, hrd, -⟩ := encBody_st hok
    rw [emitEnc_field_enc, encBody_runState hok]
    exact .own hreset hread hne hacc fun reg => ⟨hrd reg, by rintro rfl; exact nomatch hok⟩

/-- The gate of DEC around the body of a command moves the run state of DEC as R192 says. -/
theorem decCommand_runStateMove {i : Instr} {s t : State} (hreset : ¬ isReset i) (hread : isLegalRead i = false)
    (h : decCommand s (decBody i s.dec) = .next t) : RunStateMove i s.dec.dSt t.dec.dSt := by
  rcases decCommand_cases h with ⟨herr, rfl⟩ | ⟨-, c, -, rfl⟩ | ⟨hne, d, bs, hok, rfl⟩
  · rw [herr]; exact .err hreset hread
  · exact .err hreset hread
  · obtain ⟨hacc, -, hrd, -⟩ := decBody_st hok
    rw [emitDec_field_dec, decBody_runState hok]
    exact .own hreset hread hne hacc fun reg => ⟨by rintro rfl; exact (nomatch hok), hrd reg⟩

/-- Every command that answers a next state moves the run state of its unit as R192 says. -/
theorem exec_runStateMove {i : Instr} {s t : State} (h : exec i s = .next t) :
    RunStateMove i (runState i.unit s) (runState i.unit t) := by
  rcases exec_shape h with ⟨rfl, rfl⟩ | ⟨rfl, rfl⟩ | ⟨hread, -, v, rfl, -⟩ | ⟨hread, hb, hu, hc, -⟩ |
    ⟨hread, hb, hu, hc, -⟩
  · exact .reset (.inl rfl)
  · exact .reset (.inr rfl)
  · exact .read hread
  · rw [hu]; exact encCommand_runStateMove (not_isReset_of_isResetB hb) hread hc
  · rw [hu]; exact decCommand_runStateMove (not_isReset_of_isResetB hb) hread hc

/-- R20: a command leaves the run state of the other unit. -/
theorem exec_runState_other {i : Instr} {s t : State} (h : exec i s = .next t) {u : HbcUnit} (hu : u ≠ i.unit) :
    runState u t = runState u s := by
  cases hi : i.unit with
  | enc =>
    obtain ⟨-, hdec, -⟩ := exec_frame_enc hi h
    cases u with
    | enc => exact absurd hi.symm hu
    | dec => exact congrArg DecState.dSt hdec
  | dec =>
    obtain ⟨-, henc, -⟩ := exec_frame_dec hi h
    cases u with
    | enc => exact congrArg EncState.eSt henc
    | dec => exact absurd hi.symm hu

namespace RunStateMove

variable {i : Instr} {st st' : RunState}

theorem of_isReset (h : RunStateMove i st st') (hreset : isReset i) : st' = .cfg := by
  cases h with
  | reset => rfl
  | read hread => exact absurd hreset (not_isReset_of_isLegalRead hread)
  | err hno | own hno => exact absurd hreset hno

theorem of_err (h : RunStateMove i st st') (hreset : ¬ isReset i) (hst : st = .err) : st' = .err := by
  cases h with
  | reset hr => exact absurd hr hreset
  | read => exact hst
  | err => rfl
  | own _ _ hne => exact absurd hst hne

theorem of_isLegalRead (h : RunStateMove i st st') (hread : isLegalRead i = true) : st' = st := by
  cases h with
  | reset hr => exact absurd hr (not_isReset_of_isLegalRead hread)
  | read => rfl
  | err _ hno | own _ hno => exact nomatch hno.symm.trans hread

/-- R192: a command that is neither reset nor legal read faults or is ignored, or it is an accepted one and no read. -/
theorem err_or_own (h : RunStateMove i st st') (hreset : ¬ isReset i) (hread : isLegalRead i = false) :
    st' = .err ∨ (st' = runStateAfter i st ∧ acceptedIn i st = true ∧ ∀ reg, i ≠ .encRd reg ∧ i ≠ .decRd reg) := by
  cases h with
  | reset hr => exact absurd hr hreset
  | read hr => exact nomatch hread.symm.trans hr
  | err => exact .inl rfl
  | own _ _ _ hacc hrd => exact .inr ⟨rfl, hacc, hrd⟩

end RunStateMove

end Sys2Proof.Machine

namespace Sys2Proof.Proofs

open Sys2Proof Sys2Proof.Machine

/-- Settles O30: the moves of the run state are those of `exec`, a reset, a legal read, or the gate around a body, which
succeeds only for an accepted command. -/
theorem runStateTransitions : Obligations.RunStateTransitions := by
  intro i s t h
  have hmove := exec_runStateMove h
  refine ⟨fun _ hu => exec_runState_other h hu, hmove.of_isReset, hmove.of_err, hmove.of_isLegalRead,
    fun hreset hread _ => ?_⟩
  rcases hmove.err_or_own hreset hread with herr | ⟨hafter, hacc, hrd⟩
  · exact ⟨fun _ => herr, fun _ _ => herr, .inl herr⟩
  · refine ⟨fun hno => ?_, fun reg hreg => ?_, .inr ?_⟩
    · exact nomatch hno.symm.trans hacc
    · exact (not_or.mpr (hrd reg) hreg).elim
    · cases i <;> exact hafter

end Sys2Proof.Proofs
end

section
/-!
PROOFS for 60_exceptions.md: how a unit comes into `ERR` (R204), what it does there (R206), and how it leaves (R207).
-/

namespace Sys2Proof

theorem unitOf_of_not_getLsbD {h : Word} (hb : h.getLsbD 31 = false) : unitOf h = .enc :=
  if_neg (Bool.eq_false_iff.mp hb)

theorem unitOf_of_getLsbD {h : Word} (hb : h.getLsbD 31 = true) : unitOf h = .dec := if_pos hb

theorem getLsbD_of_unitOf_enc {h : Word} (hu : unitOf h = .enc) : h.getLsbD 31 = false :=
  Bool.eq_false_iff.mpr fun hb => nomatch hu.symm.trans (unitOf_of_getLsbD hb)

theorem getLsbD_of_unitOf_dec {h : Word} (hu : unitOf h = .dec) : h.getLsbD 31 = true :=
  Bool.eq_true_of_not_eq_false fun hb => nomatch hu.symm.trans (unitOf_of_not_getLsbD hb)

namespace Machine

/-- Everything a step can do, with what the decoder says of the words it takes. -/
theorem step_cases_decode {s t : State} (h : step s = .next t) :
    t = s ∨ ∃ hd ext rest, s.cmd = hd :: (ext ++ rest) ∧ ext.length = extWords hd ∧
      ((∃ i, decode hd ext = .ok i ∧ exec i { s with cmd := rest } = .next t) ∨
        execIllegal (unitOf hd) { s with cmd := rest } = .next t) := by
  cases hf : frame s.cmd with
  | none => exact .inl (Host.Outcome.next.inj ((step_of_no_frame hf).symm.trans h)).symm
  | some f =>
    obtain ⟨hd, ext, rest⟩ := f
    obtain ⟨hcmd, hlen⟩ := frame_some hf
    refine .inr ⟨hd, ext, rest, hcmd, hlen, ?_⟩
    cases hdec : decode hd ext with
    | ok i => exact .inl ⟨i, rfl, (step_of_decode hcmd hlen hdec).symm.trans h⟩
    | error e => exact .inr ((step_of_decode_error hcmd hlen hdec).symm.trans h)

/-! ### Into `ERR` (R204) -/

/-- R204: the second state is the first but for the two writes of a fault of the unit. -/
inductive TakesFault : HbcUnit → State → State → Prop
  | enc (c : EncCause) (s : State) : TakesFault .enc s (takeFault .enc c.code s)
  | dec (c : DecCause) (s : State) : TakesFault .dec s (takeFault .dec c.code s)

/-- R201: the two writes, with the bounds of the cause. -/
theorem TakesFault.enc_writes {s t : State} (h : TakesFault .enc s t) :
    ∃ c : BitVec 4, 1 ≤ c.toNat ∧ c.toNat ≤ 5 ∧ t = { s with enc := { s.enc with eSt := .err, eErr := c } } := by
  obtain ⟨c, _⟩ := h
  obtain ⟨hne, hle⟩ := c.code_range
  exact ⟨c.code, Nat.pos_of_ne_zero fun h0 => hne (BitVec.eq_of_toNat_eq h0), hle, rfl⟩

/-- R202: the two writes, with the bounds of the cause. -/
theorem TakesFault.dec_writes {s t : State} (h : TakesFault .dec s t) :
    ∃ c : BitVec 4, 1 ≤ c.toNat ∧ c.toNat ≤ 9 ∧ t = { s with dec := { s.dec with dSt := .err, dErr := c } } := by
  obtain ⟨_, _⟩ | ⟨c, _⟩ := h
  obtain ⟨hne, hle⟩ := c.code_range
  exact ⟨c.code, Nat.pos_of_ne_zero fun h0 => hne (BitVec.eq_of_toNat_eq h0), hle, rfl⟩

/-- R204: a fault moves the run state of its unit alone. -/
theorem TakesFault.runState_eq {v : HbcUnit} {s t : State} (h : TakesFault v s t) (u : HbcUnit) :
    runState u t = if u = v then .err else runState u s := by
  cases h <;> cases u <;> rfl

theorem runStateAfter_ne_err {i : Instr} {st : RunState} (hne : st ≠ .err) : runStateAfter i st ≠ .err := by
  cases i with
  | encStart | decStart | encFinish | decFinish => exact nofun
  | _ => exact hne

/-- The gate of ENC brings a unit into `ERR` only by a fault of ENC, since no body that succeeds leaves `ERR`. -/
theorem encCommand_takesFault {u : HbcUnit} {s t : State} {body : Except EncCause (EncState × List Byte)}
    (hbody : ∀ e bs, body = .ok (e, bs) → s.enc.eSt ≠ .err → e.eSt ≠ .err) (h : encCommand s body = .next t)
    (hne : runState u s ≠ .err) (herr : runState u t = .err) : u = .enc ∧ TakesFault u s t := by
  rcases encCommand_cases h with ⟨-, rfl⟩ | ⟨-, c, -, rfl⟩ | ⟨hst, e, bs, hok, rfl⟩
  · exact absurd herr hne
  · cases u with
    | enc => exact ⟨rfl, .enc c s⟩
    | dec => exact absurd herr hne
  · cases u with
    | enc => exact absurd herr (hbody e bs hok hst)
    | dec => exact absurd herr hne

/-- The gate of DEC brings a unit into `ERR` only by a fault of DEC. -/
theorem decCommand_takesFault {u : HbcUnit} {s t : State} {body : Except DecCause (DecState × List Byte)}
    (hbody : ∀ d bs, body = .ok (d, bs) → s.dec.dSt ≠ .err → d.dSt ≠ .err) (h : decCommand s body = .next t)
    (hne : runState u s ≠ .err) (herr : runState u t = .err) : u = .dec ∧ TakesFault u s t := by
  rcases decCommand_cases h with ⟨-, rfl⟩ | ⟨-, c, -, rfl⟩ | ⟨hst, d, bs, hok, rfl⟩
  · exact absurd herr hne
  · cases u with
    | enc => exact absurd herr hne
    | dec => exact ⟨rfl, .dec c s⟩
  · cases u with
    | enc => exact absurd herr hne
    | dec => exact absurd herr (hbody d bs hok hst)

@[simp] theorem runState_withCmd (u : HbcUnit) (s : State) (ws : List Word) :
    runState u { s with cmd := ws } = runState u s := by cases u <;> rfl

theorem runState_resetUnit (u v : HbcUnit) (s : State) :
    runState u (resetUnit v s) = if u = v then .cfg else runState u s := by
  cases u <;> cases v <;> rfl

/-- A reset brings no unit into `ERR`. -/
theorem runState_resetUnit_ne_err {u : HbcUnit} {s : State} (v : HbcUnit) (hne : runState u s ≠ .err) :
    runState u (resetUnit v s) ≠ .err := by
  rw [runState_resetUnit]
  split
  · exact nofun
  · exact hne

/-- R204, for one command that words encode: whatever brings a unit into `ERR` is a fault of a command of that unit. -/
theorem exec_takesFault {u : HbcUnit} {i : Instr} {s t : State} (h : exec i s = .next t)
    (hne : runState u s ≠ .err) (herr : runState u t = .err) : u = i.unit ∧ TakesFault u s t := by
  rcases exec_shape h with ⟨-, rfl⟩ | ⟨-, rfl⟩ | ⟨-, -, v, rfl, -⟩ | ⟨-, -, hu, hc, -⟩ | ⟨-, -, hu, hc, -⟩
  · exact absurd herr (runState_resetUnit_ne_err .enc hne)
  · exact absurd herr (runState_resetUnit_ne_err .dec hne)
  · cases u <;> exact absurd herr hne
  · rw [hu]
    exact encCommand_takesFault (fun _ _ hok hst => encBody_runState hok ▸ runStateAfter_ne_err hst) hc hne herr
  · rw [hu]
    exact decCommand_takesFault (fun _ _ hok hst => decBody_runState hok ▸ runStateAfter_ne_err hst) hc hne herr

/-- R204, for an illegal command. -/
theorem execIllegal_takesFault {u v : HbcUnit} {s t : State} (h : execIllegal v s = .next t)
    (hne : runState u s ≠ .err) (herr : runState u t = .err) : u = v ∧ TakesFault u s t := by
  cases v with
  | enc => exact encCommand_takesFault (body := .error .illegal) nofun h hne herr
  | dec => exact decCommand_takesFault (body := .error .illegal) nofun h hne herr

/-- R204, for a step: the words of the command are consumed and its unit takes the fault. -/
theorem step_takesFault {u : HbcUnit} {s t : State} (h : step s = .next t) (hne : runState u s ≠ .err)
    (herr : runState u t = .err) : ∃ hd ext rest, s.cmd = hd :: (ext ++ rest) ∧ ext.length = extWords hd ∧
      unitOf hd = u ∧ TakesFault u { s with cmd := rest } t := by
  rcases step_cases_decode h with rfl | ⟨hd, ext, rest, hcmd, hlen, ⟨i, hdec, hexec⟩ | hill⟩
  · exact absurd herr hne
  · obtain ⟨hu, hf⟩ := exec_takesFault hexec (by rwa [runState_withCmd]) herr
    exact ⟨hd, ext, rest, hcmd, hlen, (unit_of_decode hdec).symm.trans hu.symm, hf⟩
  · obtain ⟨hu, hf⟩ := execIllegal_takesFault hill (by rwa [runState_withCmd]) herr
    exact ⟨hd, ext, rest, hcmd, hlen, hu.symm, hf⟩

/-! ### In `ERR` (R206) -/

/-- R206, for a legal command: one that is neither a reset nor a legal read meets the gate, which is shut. -/
theorem exec_of_err {i : Instr} {s : State} (hwf : i.wf = true) (hreset : ¬ isReset i) (hread : isLegalRead i = false)
    (herr : runState i.unit s = .err) : exec i s = .next s := by
  obtain ⟨t, ht⟩ := exec_total i s hwf
  rcases exec_shape ht with ⟨rfl, -⟩ | ⟨rfl, -⟩ | ⟨hyes, -⟩ | ⟨-, -, hu, -, hsame⟩ | ⟨-, -, hu, -, hsame⟩
  · exact absurd (.inl rfl) hreset
  · exact absurd (.inr rfl) hreset
  · exact nomatch hread.symm.trans hyes
  · rw [hu] at herr
    rw [hsame s rfl, encCommand_err herr]
  · rw [hu] at herr
    rw [hsame s rfl, decCommand_err herr]

/-- R206, for an illegal command. -/
theorem execIllegal_of_err {u : HbcUnit} {s : State} (herr : runState u s = .err) : execIllegal u s = .next s := by
  cases u with
  | enc => exact encCommand_err herr (.error .illegal)
  | dec => exact decCommand_err herr (.error .illegal)

/-- R206 speaks of the unit that bit 31 of the header word names. -/
theorem runState_unitOf_eq_err {h : Word} {s : State}
    (herr : (h.getLsbD 31 = false ∧ s.enc.eSt = .err) ∨ (h.getLsbD 31 = true ∧ s.dec.dSt = .err)) :
    runState (unitOf h) s = .err := by
  rcases herr with ⟨hb, hst⟩ | ⟨hb, hst⟩
  · rw [unitOf_of_not_getLsbD hb]; exact hst
  · rw [unitOf_of_getLsbD hb]; exact hst

/-! ### Out of `ERR` (R207) -/

/-- R120, R140: the `RESET` of a unit. -/
def resetOf : HbcUnit → Instr
  | .enc => .encReset
  | .dec => .decReset

theorem exec_resetOf (u : HbcUnit) (s : State) : exec (resetOf u) s = .next (resetUnit u s) := by cases u <;> rfl

theorem resetOf_unit_of_isReset {i : Instr} (h : isReset i) : resetOf i.unit = i := by
  rcases h with rfl | rfl <;> rfl

/-- R207, for one command that words encode: a unit in `ERR` leaves it by its own `RESET` only. -/
theorem exec_leavesErr {u : HbcUnit} {i : Instr} {s t : State} (h : exec i s = .next t) (herr : runState u s = .err)
    (hne : runState u t ≠ .err) : i = resetOf u ∧ t = resetUnit u s := by
  have hu : u = i.unit := by_contra fun hother => hne ((exec_runState_other h hother).trans herr)
  subst hu
  have hreset : isReset i := by_contra fun hno => hne ((exec_runStateMove h).of_err hno herr)
  have hi := resetOf_unit_of_isReset hreset
  have hexec := exec_resetOf i.unit s
  rw [hi, h] at hexec
  exact ⟨hi.symm, Host.Outcome.next.inj hexec⟩

/-- R127, R150: an illegal command is ignored or faults. -/
theorem execIllegal_cases {v : HbcUnit} {s t : State} (h : execIllegal v s = .next t) : t = s ∨ TakesFault v s t := by
  cases v with
  | enc =>
    rcases encCommand_cases (body := .error .illegal) h with ⟨-, ht⟩ | ⟨-, c, -, rfl⟩ | ⟨-, _, _, hok, -⟩
    · exact .inl ht
    · exact .inr (.enc c s)
    · exact nomatch hok
  | dec =>
    rcases decCommand_cases (body := .error .illegal) h with ⟨-, ht⟩ | ⟨-, c, -, rfl⟩ | ⟨-, _, _, hok, -⟩
    · exact .inl ht
    · exact .inr (.dec c s)
    · exact nomatch hok

/-- R207: no illegal command leaves `ERR`. -/
theorem execIllegal_keepsErr {u v : HbcUnit} {s t : State} (h : execIllegal v s = .next t)
    (herr : runState u s = .err) : runState u t = .err := by
  rcases execIllegal_cases h with rfl | hf
  · exact herr
  · rw [hf.runState_eq]
    split
    · rfl
    · exact herr

/-- R207, for a step: the word at the head of `CMD` is the unit's `RESET`, and only it is consumed. -/
theorem step_leavesErr {u : HbcUnit} {s t : State} (h : step s = .next t) (herr : runState u s = .err)
    (hne : runState u t ≠ .err) :
    ∃ rest, s.cmd = encode (resetOf u) ++ rest ∧ t = resetUnit u { s with cmd := rest } := by
  rcases step_cases_decode h with rfl | ⟨hd, ext, rest, hcmd, -, ⟨i, hdec, hexec⟩ | hill⟩
  · exact absurd herr hne
  · obtain ⟨rfl, ht⟩ := exec_leavesErr hexec (by rwa [runState_withCmd]) hne
    exact ⟨rest, by rw [encode_decode hdec]; exact hcmd, ht⟩
  · exact absurd (execIllegal_keepsErr hill (by rwa [runState_withCmd])) hne

end Machine

end Sys2Proof

namespace Sys2Proof.Proofs

open Sys2Proof Sys2Proof.Machine

/-- Settles O27: a body that succeeds never ends in `ERR`, so a unit gets there by a fault alone. -/
theorem faultWritesOnlyStateAndCause : Obligations.FaultWritesOnlyStateAndCause := by
  refine ⟨fun i s t h => ⟨fun hne herr => ?_, fun hne herr => ?_⟩,
    fun s t h => ⟨fun hne herr => ?_, fun hne herr => ?_⟩⟩
  · obtain ⟨-, hf⟩ := exec_takesFault (u := .enc) h hne herr
    exact hf.enc_writes
  · obtain ⟨-, hf⟩ := exec_takesFault (u := .dec) h hne herr
    exact hf.dec_writes
  · obtain ⟨hd, ext, rest, hcmd, hlen, hu, hf⟩ := step_takesFault (u := .enc) h hne herr
    obtain ⟨c, hpos, hle, ht⟩ := hf.enc_writes
    exact ⟨hd, ext, rest, c, hcmd, hlen, getLsbD_of_unitOf_enc hu, hpos, hle, ht⟩
  · obtain ⟨hd, ext, rest, hcmd, hlen, hu, hf⟩ := step_takesFault (u := .dec) h hne herr
    obtain ⟨c, hpos, hle, ht⟩ := hf.dec_writes
    exact ⟨hd, ext, rest, c, hcmd, hlen, getLsbD_of_unitOf_dec hu, hpos, hle, ht⟩

/-- Settles O28: the gate of the unit is shut to all but a reset and a legal read. -/
theorem errStateIgnoresCommands : Obligations.ErrStateIgnoresCommands := by
  intro s h ext rest hcmd hlen herr
  have hst : runState (unitOf h) { s with cmd := rest } = .err :=
    (runState_withCmd _ s rest).trans (runState_unitOf_eq_err herr)
  refine ⟨fun e hdec => ?_, fun i hdec hreset hread => ?_, step_of_decode hcmd hlen, step_of_decode hcmd hlen,
    fun i hdec hread => ?_⟩
  · exact (step_of_decode_error hcmd hlen hdec).trans (execIllegal_of_err hst)
  · rw [← unit_of_decode hdec] at hst
    exact (step_of_decode hcmd hlen hdec).trans (exec_of_err (wf_of_decode hdec) hreset hread hst)
  · obtain ⟨v, hv⟩ := exec_of_isLegalRead hread s
    exact ⟨v, (step_of_decode hcmd hlen hdec).trans (hv _ rfl rfl)⟩

/-- Settles O29: every move of the run state from `ERR` but that of a reset stays there, and the words of a reset are
the one word that encodes it. -/
theorem onlyResetLeavesErr : Obligations.OnlyResetLeavesErr :=
  ⟨fun _ _ _ h => ⟨exec_leavesErr (u := .enc) h, exec_leavesErr (u := .dec) h⟩,
    fun _ _ h => ⟨step_leavesErr (u := .enc) h, step_leavesErr (u := .dec) h⟩⟩

end Sys2Proof.Proofs
end
